-- ==== Sys2Proof/Word.lean ====
section
/-! DEFINITION. The word types of the engine (00_scope.md R12, R15, R16). -/

namespace Sys2Proof

/-- One byte of DMEM or of a byte string (R17). -/
abbrev Byte := BitVec 8

/-- A host-bus word, a 32-bit register, the command word. -/
abbrev Word32 := BitVec 32

/-- A W register, a point coordinate, a scalar, an RNG word (R12). -/
abbrev U256 := BitVec 256

end Sys2Proof
end

