-- ==== Sys2Proof/Config.lean ====
section
/-! DEFINITION. What is fixed for this hardware (00_scope.md R11, R13, 47_sm2sig.md R138) and, as
constants WITHOUT a body, every value the spec leaves open. -/

namespace Sys2Proof
namespace Config

/-! ### The curve constants of R13 -/

/-- The field prime p (R13). -/
def p : Nat := 0xFFFFFFFEFFFFFFFFFFFFFFFFFFFFFFFFFFFFFFFF00000000FFFFFFFFFFFFFFFF
/-- The curve coefficient a = p − 3 (R13). -/
def a : Nat := 0xFFFFFFFEFFFFFFFFFFFFFFFFFFFFFFFFFFFFFFFF00000000FFFFFFFFFFFFFFFC
/-- The curve coefficient b (R13). -/
def b : Nat := 0x28E9FA9E9D9F5E344D5A9E4BCF6509A7F39789F515AB8F92DDBCBD414D940E93
/-- The group order n (R13). -/
def n : Nat := 0xFFFFFFFEFFFFFFFFFFFFFFFFFFFFFFFF7203DF6B21C6052B53BBF40939D54123
/-- The x coordinate of the base point G (R13). -/
def gx : Nat := 0x32C4AE2C1F1981195F9904466A39C9948FE30BBFF2660BE1715A4589334C74C7
/-- The y coordinate of the base point G (R13). -/
def gy : Nat := 0xBC3736A2F4F6779C59BDCEE36B692153D0A9877CC62A474002DF32E52139F0A0
/-- The cofactor h (R13). -/
def cofactor : Nat := 1

/-! ### The implementation parameters of R11 that have a value -/

/-- Bytes of data memory: the default of R11. -/
def dmemSize : Nat := 4096
/-- The legal values of DMEM_SIZE: multiples of 4 from 256 to 61440 (R11). -/
def dmemSizeLegal (k : Nat) : Bool := k % 4 == 0 && decide (256 ≤ k) && decide (k ≤ 61440)
/-- Most RNG requests of one command: the default of R11. -/
def retryMax : Nat := 64
/-- Bytes of one digest (R11, R24). -/
def hlen : Nat := 32
/-- The value of the ID register: "SM2" and version 1 (10_state.md R32). -/
def idWord : Word32 := 0x534D3201
/-- The default user identity, the ASCII bytes "1234567812345678" (R138). -/
def defId : List Byte :=
  [0x31, 0x32, 0x33, 0x34, 0x35, 0x36, 0x37, 0x38, 0x31, 0x32, 0x33, 0x34, 0x35, 0x36, 0x37, 0x38]

/-! ### The OPEN parameters of R11 and the free values -/

/-- The two readings of a DMEM byte that nothing has written since power-on (R11, 20_memory.md R56). -/
inductive DmemUninit where
  /-- The read returns any byte value. -/
  | draw
  /-- The model faults. -/
  | fault
deriving DecidableEq, Repr, Inhabited

/-- `DMEM_UNINIT` of R11: OPEN, so nothing says which reading it is (log 5). -/
opaque dmemUninit : DmemUninit

/-- `BASE` of R11: the platform's address of the window. OPEN. -/
opaque base : Nat

/-- `HashFn` of R11 and R24: a total function of the byte string alone. Its 32 bytes are held as the
256-bit number whose big-endian bytes they are (log 6). OPEN. -/
opaque hashWord : List Byte → U256

/-- FREE VALUE (R25, R88): the RNG port's word for request number `i` of the command that runs in step
`tick`, where the port has no word queued in State (log 3). -/
opaque rngWord : (tick i : Nat) → U256

/-- FREE VALUE (R56 under `draw`): what a read in step `tick` of the unwritten DMEM byte `addr`
returns (log 5). -/
opaque unwrittenByte : (tick addr : Nat) → Byte

/-- FREE VALUE (70_reset_and_hazards.md R165): the byte left at `addr` by a command that the soft reset of step
`tick` abandons (log 7). -/
opaque abandonedByte : (tick addr : Nat) → Byte

/-- FREE VALUE (R165): how many RNG requests a command abandoned in step `tick` had made (log 7). -/
opaque abandonedDraws : (tick : Nat) → Nat

end Config
end Sys2Proof
end

