-- ==== Sys2Proof/Machine/Field.lean ====
section
/-! DEFINITION. Arithmetic modulo p or n on natural numbers (41_modular.md R92–R95, 00_scope.md R15, R21).
The results are the integers of the rules; the multiplier's and inverter's inner representation is
invisible (R95). -/

namespace Sys2Proof
namespace Machine

/-- `(a + b) mod m` (R97). -/
def addMod (m a b : Nat) : Nat := (a + b) % m

/-- `(a − b) mod m`, a value in [0, m − 1], never negative (R98). -/
def subMod (m a b : Nat) : Nat := (a + (m - b % m)) % m

/-- `(a · b) mod m` (R99). -/
def mulMod (m a b : Nat) : Nat := a * b % m

/-- `a^e mod m` by square and multiply over the low `k` bits of `e`. -/
def powBits (m a : Nat) : (k e : Nat) → Nat
  | 0, _ => 1 % m
  | k + 1, e =>
    if e % 2 = 1 then powBits m a k (e / 2) ^ 2 % m * a % m else powBits m a k (e / 2) ^ 2 % m

/-- `a^e mod m` for an exponent below 2^256. -/
def powMod (m a e : Nat) : Nat := powBits m a 256 e

/-- The inverse the field inverter computes, `a^(m−2) mod m` (R95, R100); `inv_m` of R21 for `a mod m ≠ 0`. -/
def invMod (m a : Nat) : Nat := powMod m a (m - 2)

/-- The candidate root `a^((p+1)/4) mod p` (R101). -/
def sqrtModP (a : Nat) : Nat := powMod Config.p a ((Config.p + 1) / 4)

end Machine
end Sys2Proof
end

