-- ==== Sys2Proof/Machine/State.lean ====
section
/-! DEFINITION. The state of the block (10_state.md), as plain data, and its value after a power-on
reset (R46, R164). INVENTORY.md lists every field with its rule. -/

namespace Sys2Proof
namespace Machine

/-- A P register: a Jacobian triple (R29). -/
structure Triple where
  x : U256
  y : U256
  z : U256
deriving DecidableEq, Repr

/-- A finite point held in affine form (TAB_KEY, R43). -/
structure Affine where
  x : U256
  y : U256
deriving DecidableEq, Repr

/-- An affine-or-infinity value of the group law (00_scope.md R20). -/
inductive Point where
  /-- O, the point at infinity. -/
  | inf
  /-- The affine point (x, y). -/
  | aff (x y : Nat)
deriving DecidableEq, Repr

/-- The sequencer (R42): idle, or busy with the command word c. -/
inductive Engine where
  | idle
  | busy (c : Word32)
deriving DecidableEq, Repr

/-- The error codes of 60_exceptions.md R148, in the order of their numbers 1 to 13. -/
inductive ErrCode where
  | illegal
  | bounds
  | noInv
  | noSqrt
  | decode
  | key
  | invCt
  | integrity
  | derive
  | point
  | inf
  | retry
  | noTab
deriving DecidableEq, Repr

/-- One host bus access (20_memory.md R49): an offset in the 64 KiB window and a size in bytes. -/
inductive Access where
  | read (off : BitVec 16) (size : Nat)
  | write (off : BitVec 16) (size : Nat) (data : Word32)
deriving DecidableEq, Repr

/-- What acts next (log 1): a host access, a turn of the engine, or a power-on reset. -/
inductive Event where
  | access (a : Access)
  | engine
  | powerOn
deriving DecidableEq, Repr

/-- The bus response to an access (R49, R50); `rdata` is none for a write. -/
inductive Resp where
  | okay (rdata : Option Word32)
  | error (rdata : Option Word32)
deriving DecidableEq, Repr

/-- DMEM as the bytes that have been written since power-on, addresses strictly rising (R56). An address
not listed holds no byte: what a read of it gives is for `DMEM_UNINIT` to say. -/
abbrev Memory := List Host.Cell

/-- Why the model stops with a fault. -/
inductive Fault where
  /-- An engine command or a host read reads a DMEM byte that nothing has written since power-on, and
  `Config.dmemUninit` is `fault`: 20_memory.md R56 says the model then faults. Raised by HASH, KDF, ENC, DEC,
  SIGN, VERIFY and by host reads of the DMEM window. SAFE: R56 names it a safe reading. -/
  | dmemUnwritten
deriving DecidableEq, Repr

/-- Why the model refuses an instruction. -/
inductive Refusal where
  /-- An instruction without a meaning yet, by its mnemonic. Raised only by a refused arm of `exec`; no arm
  is refused. SAFE. -/
  | notModelled (mnemonic : String)
deriving DecidableEq, Repr

/-- Everything the spec gives the block, and the four fields of the model's own at the end. -/
structure State where
  /-- W0 to W15 (R27). -/
  w : Vector U256 16
  /-- P0 to P7 (R29). -/
  p : Vector Triple 8
  /-- CTRL.IRQEN (R33). -/
  irqen : Bool
  /-- CMD (R34). -/
  cmd : Word32
  /-- The sequencer (R42); STATUS.BUSY is `engine ≠ idle`. -/
  engine : Engine
  /-- STATUS.DONE (R35). -/
  done : Bool
  /-- STATUS.ERR (R35). -/
  err : Bool
  /-- STATUS.ERRCODE (R35, R148). -/
  errcode : Byte
  /-- STATUS.TABV (R35, R43). -/
  tabv : Bool
  /-- STATUS.WIGN (R35, R40). -/
  wign : Bool
  /-- RES (R36). -/
  res : Word32
  /-- SRC (R37). -/
  src : Word32
  /-- SLEN (R37). -/
  slen : Word32
  /-- DST (R37). -/
  dst : Word32
  /-- DLEN (R37). -/
  dlen : Word32
  /-- IDADDR (R37). -/
  idaddr : Word32
  /-- IDLEN (R37). -/
  idlen : Word32
  /-- OUTLEN (R38). -/
  outlen : Word32
  /-- TAB_KEY, hidden (R43). -/
  tabKey : Affine
  /-- The draw counter, hidden (R44, 40_control.md R87). -/
  draws : Nat
  /-- DMEM (20_memory.md R48). -/
  dmem : Memory
  /-- The model's own: what acts next, first to last (log 1). -/
  inputs : List Event
  /-- The model's own: the response to the last host access (log 2). -/
  resp : Option Resp
  /-- The model's own: the words the RNG port answers next, first to last (log 3). -/
  rng : List U256
  /-- The model's own: the number of the step, to which the free values of Config are applied (log 4). -/
  tick : Nat
deriving DecidableEq, Repr

/-- The state after a power-on reset (R46, R164): DMEM holds nothing written. -/
def State.reset : State :=
  { w := Vector.replicate 16 0
    p := Vector.replicate 8 ⟨0, 0, 0⟩
    irqen := false
    cmd := 0
    engine := .idle
    done := false
    err := false
    errcode := 0
    tabv := false
    wign := false
    res := 0
    src := 0
    slen := 0
    dst := 0
    dlen := 0
    idaddr := 0
    idlen := 0
    outlen := 0
    tabKey := ⟨0, 0⟩
    draws := 0
    dmem := []
    inputs := []
    resp := none
    rng := []
    tick := 0 }

end Machine
end Sys2Proof
end

