-- ==== Sys2Proof/Machine/Curve.lean ====
section
/-! DEFINITION. Points (42_point.md §1, §2): the affine meaning of a triple, the normal form, the curve
equation, the group law and the scalar multiple. -/

namespace Sys2Proof
namespace Machine

/-- `Aff(X, Y, Z)` (R104). -/
def aff (t : Triple) : Point :=
  if t.z.toNat % Config.p = 0 then .inf
  else
    .aff (t.x.toNat % Config.p * invMod Config.p (t.z.toNat % Config.p) ^ 2 % Config.p)
      (t.y.toNat % Config.p * invMod Config.p (t.z.toNat % Config.p) ^ 3 % Config.p)

/-- `Norm(Q)` (R105). -/
def norm : Point → Triple
  | .inf => ⟨0, 0, 0⟩
  | .aff x y => ⟨BitVec.ofNat 256 x, BitVec.ofNat 256 y, 1⟩

/-- `x³ + a·x + b mod p`, the right side of the curve equation (R13, R121). -/
def curveRhs (x : Nat) : Nat := (x * x * x + Config.a * x + Config.b) % Config.p

/-- `OnCurve(Q)` (R106): infinity is valid; a finite point when y² − x³ − a·x − b is 0 mod p. -/
def onCurve : Point → Bool
  | .inf => true
  | .aff x y => y * y % Config.p == curveRhs x

/-- The point with slope `l` through (x1, y1) and a point with abscissa x2: the last two lines of R107
and of R108 (there x2 = x1). -/
def chordPoint (l x1 y1 x2 : Nat) : Point :=
  .aff (subMod Config.p (subMod Config.p (l * l) x1) x2)
    (subMod Config.p (l * subMod Config.p x1 (subMod Config.p (subMod Config.p (l * l) x1) x2)) y1)

/-- `Dbl(Q)` (R108). -/
def dbl : Point → Point
  | .inf => .inf
  | .aff x y =>
    if y = 0 then .inf
    else chordPoint (mulMod Config.p (3 * x * x + Config.a) (invMod Config.p (2 * y))) x y x

/-- `Add(Q1, Q2)` (R107). -/
def add : Point → Point → Point
  | .inf, q => q
  | .aff x1 y1, .inf => .aff x1 y1
  | .aff x1 y1, .aff x2 y2 =>
    if x1 = x2 then if y1 = y2 ∧ y1 ≠ 0 then dbl (.aff x1 y1) else .inf
    else chordPoint (mulMod Config.p (subMod Config.p y2 y1) (invMod Config.p (subMod Config.p x2 x1))) x1 y1 x2

/-- The loop of R109 over bits i − 1 down to 0 of k, with R so far. -/
def mulLoop (k : Nat) (q : Point) : (i : Nat) → (r : Point) → Point
  | 0, r => r
  | i + 1, r => mulLoop k q i (if k.testBit i then add (dbl r) q else dbl r)

/-- `Mul(k, Q)` for k below 2^256 (R109). Its value is what the fixed-sequence ladder of R111 delivers. -/
def mul (k : Nat) (q : Point) : Point := mulLoop k q 256 .inf

/-- The base point G (R13). -/
def basePoint : Point := .aff Config.gx Config.gy

/-- `x(Q)` of a finite point (R20); 0 for O, which no caller passes. -/
def Point.xCoord : Point → Nat
  | .inf => 0
  | .aff x _ => x

/-- `y(Q)` of a finite point (R20); 0 for O, which no caller passes. -/
def Point.yCoord : Point → Nat
  | .inf => 0
  | .aff _ y => y

/-- The coordinates of a point are in [0, p − 1] (00_scope.md R20). -/
def Point.reduced : Point → Prop
  | .inf => True
  | .aff x y => x < Config.p ∧ y < Config.p

/-- A point of the curve, or O, as R20 has it. -/
abbrev Point.Valid (q : Point) : Prop := q.reduced ∧ onCurve q = true

/-- `−Q` (R20). -/
def negPoint : Point → Point
  | .inf => .inf
  | .aff x y => .aff x ((Config.p - y) % Config.p)

/-- The facts about the constants that 00_scope.md R14 states; `curveFacts` in Laws/Order.lean proves them of the model's
constants. The Hasse interval is |p + 1 − n| ≤ 2·√p. -/
def CurveFacts : Prop :=
  Nat.Prime Config.p ∧ Nat.Prime Config.n
    ∧ Config.a + 3 = Config.p ∧ Config.p % 4 = 3 ∧ Config.n % 4 = 3
    ∧ basePoint.Valid
    ∧ mul Config.n basePoint = .inf
    ∧ mul (Config.n - 1) basePoint = .aff Config.gx (Config.p - Config.gy)
    ∧ Config.n < Config.p
    ∧ ((Config.p : Int) + 1 - Config.n) ^ 2 ≤ 4 * Config.p
    ∧ Nat.card { q : Point // q.Valid } = Config.cofactor * Config.n ∧ Config.cofactor = 1
    ∧ ∀ x y, (Point.aff x y).Valid → y ≠ 0

end Machine
end Sys2Proof
end

