-- ==== Sys2Proof/Machine/Bytes.lean ====
section
/-! DEFINITION. Byte strings (00_scope.md R17) and their conversions (20_memory.md R60, R61), the hash port
(10_state.md R24). -/

namespace Sys2Proof
namespace Machine

/-- `I2OS(v, k)`: the k-byte big-endian string of v (R17). -/
def i2os (v : Nat) : Nat → List Byte
  | 0 => []
  | k + 1 => i2os (v / 256) k ++ [BitVec.ofNat 8 v]

/-- `OS2I(s)`: the integer whose big-endian bytes are s (R17). -/
def os2i (s : List Byte) : Nat := s.foldl (fun acc b => acc * 256 + b.toNat) 0

/-- `zeros(k)`: k zero bytes (R17). -/
def zeros (k : Nat) : List Byte := List.replicate k 0

/-- `⊕` on byte strings of equal length (R17). -/
def xorBytes (s t : List Byte) : List Byte := List.zipWith (· ^^^ ·) s t

/-- `s[i..j)`: bytes i to j − 1 (R17). -/
def slice (s : List Byte) (i j : Nat) : List Byte := (s.drop i).take (j - i)

/-- `Hash(s)`: the hash port's 32-byte digest (R24). -/
def hash (s : List Byte) : List Byte := i2os (Config.hashWord s).toNat Config.hlen

end Machine
end Sys2Proof
end

