-- ==== Sys2Proof/Machine/Flags.lean ====
section
/-! DEFINITION. The flags and the registers computed from them: STATUS (10_state.md R35, R41), CTRL (R33),
the error codes (60_exceptions.md R148), the IRQ output (R156), Boolean results (R36). -/

namespace Sys2Proof
namespace Machine

/-- STATUS.ERRCODE of an error (R148). -/
def ErrCode.code : ErrCode → Byte
  | .illegal => 1
  | .bounds => 2
  | .noInv => 3
  | .noSqrt => 4
  | .decode => 5
  | .key => 6
  | .invCt => 7
  | .integrity => 8
  | .derive => 9
  | .point => 10
  | .inf => 11
  | .retry => 12
  | .noTab => 13

/-- STATUS.BUSY (R35, R42). -/
def State.isBusy (s : State) : Bool :=
  match s.engine with
  | .idle => false
  | .busy _ => true

/-- A flag's bit at its place in a register word. -/
def flagAt (b : Bool) (place : Nat) : Word32 := if b then BitVec.ofNat 32 (2 ^ place) else 0

/-- The STATUS word (R35): BUSY 0, DONE 1, ERR 2, TABV 3, WIGN 4, ERRCODE 15:8, the other bits 0. -/
def statusWord (s : State) : Word32 :=
  flagAt s.isBusy 0 ||| flagAt s.done 1 ||| flagAt s.err 2 ||| flagAt s.tabv 3 ||| flagAt s.wign 4
    ||| (s.errcode.setWidth 32 <<< 8)

/-- The CTRL word (R33): IRQEN in bit 2; START and SRST read 0, as the reserved bits do. -/
def ctrlWord (s : State) : Word32 := flagAt s.irqen 2

/-- The IRQ output line (R156). -/
def irq (s : State) : Bool := s.irqen && (s.done || s.err)

/-- RES for a truth value: 1 true, 0 false (R36). -/
def boolWord (b : Bool) : Word32 := if b then 1 else 0

/-- The return from an error by a host write of 1 to STATUS.ERR: ERR and ERRCODE go to 0 together
(R35, R155). -/
def clearError (s : State) : State := { s with err := false, errcode := 0 }

/-- A host write to STATUS (R35): DONE, ERR and WIGN are cleared where the written bit is 1; nothing is set. -/
def writeStatus (v : Word32) (s : State) : State :=
  let s1 := if v.getLsbD 1 then { s with done := false } else s
  let s2 := if v.getLsbD 2 then clearError s1 else s1
  if v.getLsbD 4 then { s2 with wign := false } else s2

end Machine
end Sys2Proof
end

