-- ==== Sys2Proof/Syntax.lean ====
section
/-! DEFINITION. The command set (30_encoding.md R74): one constructor per row of the opcode map. -/

namespace Sys2Proof

/-- A `w` role field: a W register index (R71). -/
abbrev WReg := Fin 16

/-- A `p` role field: a P register index (R71). -/
abbrev PReg := Fin 8

/-- The M flag (R73): the modulus of MADD, MSUB, MMUL, MINV. -/
inductive Modulus where
  | p
  | n
deriving DecidableEq, Repr

/-- The T flag of ENC and DEC (R73, R132): the order of the ciphertext's parts. -/
inductive CipherMode where
  /-- T = 0: C1 ‖ C3 ‖ C2. -/
  | c1c3c2
  /-- T = 1: C1 ‖ C2 ‖ C3. -/
  | c1c2c3
deriving DecidableEq, Repr

/-- The constants LDC can load (41_modular.md R103). -/
inductive CurveConst where
  | p
  | a
  | b
  | n
  | gx
  | gy
  | zero
  | one
deriving DecidableEq, Repr

/-- The commands of R74. Operands stand in the order of the assembly syntax (R77): destinations first.
In `sign` and `verify` the pair (r, s) is W[rs] and W[rs + 1]; h, i and u are the flags H, I and U. -/
inductive Instr where
  | nop
  | madd (d a b : WReg) (m : Modulus)
  | msub (d a b : WReg) (m : Modulus)
  | mmul (d a b : WReg) (m : Modulus)
  | minv (d a : WReg) (m : Modulus)
  | msqrt (d a : WReg)
  | mov (d a : WReg)
  | ldc (d : WReg) (c : CurveConst)
  | padd (d a b : PReg)
  | pdbl (d a : PReg)
  | pmul (d a : PReg) (k : WReg)
  | pnorm (d a : PReg)
  | pldg (d : PReg)
  | pchk (a : PReg)
  | peq (a b : PReg)
  | pcomp (d : WReg) (a : PReg)
  | pdcmp (d : PReg) (x : WReg) (t : Bool)
  | keygen (d : WReg) (q : PReg)
  | keychk (a : PReg)
  | hash
  | kdf
  | enc (key : PReg) (t : CipherMode)
  | dec (key : WReg) (t : CipherMode)
  | sign (rs key e : WReg) (h i : Bool)
  | verify (rs e : WReg) (key : PReg) (h i u : Bool)
  | precomp (key : PReg)
deriving DecidableEq, Repr

end Sys2Proof
end

