-- ==== Sys2Proof/Machine/Operands.lean ====
section
/-! DEFINITION. The operand forms (30_encoding.md R71, R73): W and P registers, the register pair, the
modulus, the LDC constants, and the destinations RES, OUTLEN, TAB_KEY. -/

namespace Sys2Proof
namespace Machine

/-- `W[i]` (00_scope.md R18). No W register is hardwired (10_state.md R27). -/
def State.getW (s : State) (i : WReg) : U256 := s.w[i.val]

/-- `W[i] <- v` (R18). -/
def State.setW (s : State) (i : WReg) (v : U256) : State := { s with w := s.w.set i.val v }

/-- `W[i]` as the integer it holds (R15). -/
def State.natW (s : State) (i : WReg) : Nat := (s.getW i).toNat

/-- `W[i] <- v` for an integer v below 2^256. -/
def State.putW (s : State) (i : WReg) (v : Nat) : State := s.setW i (BitVec.ofNat 256 v)

/-- The second register of a `w-even` pair: W[f + 1] (R71). -/
def pairNext (i : WReg) : WReg := i + 1

/-- `P[i]` (R18). -/
def State.getP (s : State) (i : PReg) : Triple := s.p[i.val]

/-- `P[i] <- (X, Y, Z)` (R18). -/
def State.setP (s : State) (i : PReg) (t : Triple) : State := { s with p := s.p.set i.val t }

/-- `RES <- v` (00_scope.md R19). -/
def State.setRes (s : State) (v : Word32) : State := { s with res := v }

/-- `OUTLEN <- k`, the number of bytes written at DST (10_state.md R38). -/
def State.setOutlen (s : State) (k : Nat) : State := { s with outlen := BitVec.ofNat 32 k }

/-- `TAB_KEY <- (x, y); STATUS.TABV <- 1` (47_sm2sig.md R144). -/
def State.setTab (s : State) (x y : U256) : State := { s with tabKey := ⟨x, y⟩, tabv := true }

/-- The modulus m of the M flag (41_modular.md R92). -/
def modulus : Modulus → Nat
  | .p => Config.p
  | .n => Config.n

/-- `CONST[c]` (41_modular.md R103). -/
def constValue : CurveConst → Nat
  | .p => Config.p
  | .a => Config.a
  | .b => Config.b
  | .n => Config.n
  | .gx => Config.gx
  | .gy => Config.gy
  | .zero => 0
  | .one => 1

end Machine
end Sys2Proof
end

