-- ==== Sys2Proof/Machine/Ops.lean ====
section
/-! DEFINITION. The named operations every command shares: DMEM (20_memory.md), regions (R57), the completion
of a command (40_control.md R85), taking an error (60_exceptions.md R152), the random draw (R87). -/

namespace Sys2Proof
namespace Machine

/-! ### DMEM -/

/-- The byte written at an address, if any was since power-on. -/
def Memory.read? : Memory → Nat → Option Byte
  | [], _ => none
  | c :: m, a => if c.1 = a then some c.2 else Memory.read? m a

/-- Write one byte, keeping the addresses strictly rising. -/
def Memory.store : Memory → Nat → Byte → Memory
  | [], a, b => [(a, b)]
  | c :: m, a, b =>
    if a < c.1 then (a, b) :: c :: m
    else if a = c.1 then (a, b) :: m
    else c :: Memory.store m a b

/-- Write a byte string from an address up. -/
def Memory.storeAll (m : Memory) (a : Nat) : List Byte → Memory
  | [] => m
  | b :: bs => Memory.storeAll (m.store a b) (a + 1) bs

/-- The canonical form: addresses strictly rising. -/
def Memory.wf : Memory → Bool
  | [] => true
  | c :: m => m.all (fun d => decide (c.1 < d.1)) && Memory.wf m

/-- Every address is a DMEM address (R48). -/
def Memory.inDmem (m : Memory) : Bool := m.all fun c => decide (c.1 < Config.dmemSize)

/-- Every byte of (a, l) has been written since power-on. -/
def Memory.written (m : Memory) (a l : Nat) : Bool := (List.range l).all fun i => (m.read? (a + i)).isSome

/-- A read of (a, l) returns bytes: all have been written, or DMEM_UNINIT is `draw` (R56). -/
def State.readable (s : State) (a l : Nat) : Bool :=
  s.dmem.written a l || decide (Config.dmemUninit = .draw)

/-- `DMEM[a]`: the byte written there, else any byte value (R56). -/
def State.dmemByte (s : State) (a : Nat) : Byte := (s.dmem.read? a).getD (Config.unwrittenByte s.tick a)

/-- `MemRead(a, k)` (00_scope.md R18). -/
def State.memRead (s : State) (a k : Nat) : List Byte := (List.range k).map fun i => s.dmemByte (a + i)

/-- `MemWrite(a, k, s)` (R18): the k bytes are the whole string. -/
def State.memWrite (s : State) (a : Nat) (bs : List Byte) : State := { s with dmem := s.dmem.storeAll a bs }

/-- Go on with the bytes of a region, or fault where R56 says the model faults. -/
def withRead (s : State) (a k : Nat) (go : List Byte → Host.Outcome State Fault Refusal) :
    Host.Outcome State Fault Refusal :=
  if s.readable a k then go (s.memRead a k) else .fault .dmemUnwritten

/-- Region (a, l) is in bounds: computed without wrap-around (R57). -/
def inBounds (a l : Nat) : Bool := decide (a + l ≤ Config.dmemSize)

/-- Regions (a1, l1) and (a2, l2) overlap (R57). -/
def overlap (a1 l1 a2 l2 : Nat) : Bool :=
  decide (l1 > 0) && decide (l2 > 0) && decide (a1 < a2 + l2) && decide (a2 < a1 + l1)

/-! ### How a command ends -/

/-- Successful completion (R85): DONE set, BUSY cleared; the draw counter does not survive (R44). -/
def complete (s : State) : State := { s with engine := .idle, done := true, draws := 0 }

/-- `raise E` (R152): ERRCODE, ERR and DONE set, BUSY cleared, nothing else. -/
def raiseError (e : ErrCode) (s : State) : State :=
  { s with errcode := e.code, err := true, done := true, engine := .idle, draws := 0 }

/-- The command ends with its destinations written in `s`. -/
def succeed (s : State) : Host.Outcome State Fault Refusal := .next (complete s)

/-- The command ends in error E, from the state `s` it found. -/
def fail (e : ErrCode) (s : State) : Host.Outcome State Fault Refusal := .next (raiseError e s)

/-! ### Random draws (R87) -/

/-- What a drawing command got: how many RNG requests it made, and its result or its error. -/
structure Drawn (α : Type) where
  used : Nat
  out : Except ErrCode α

/-- Word number i that the RNG port answers (10_state.md R25): from its queue, else a free draw. -/
def State.rngAt (s : State) (i : Nat) : U256 := (s.rng[i]?).getD (Config.rngWord s.tick i)

/-- `draw(lo, hi)` inside a command's `loop` (R87, 46_ecies.md R133, 47_sm2sig.md R142): request i is the next
one and `fuel` requests are left. A word outside [lo, hi] is rejected; on a word inside, `attempt` gives
the result, `none` for the loop's `continue`, or an error. -/
def drawLoop {α : Type} (lo hi : Nat) (attempt : Nat → Except ErrCode (Option α)) (word : Nat → U256) :
    (fuel i : Nat) → Drawn α
  | 0, i => ⟨i, .error .retry⟩
  | fuel + 1, i =>
    if lo ≤ (word i).toNat ∧ (word i).toNat ≤ hi then
      match attempt (word i).toNat with
      | .error e => ⟨i + 1, .error e⟩
      | .ok (some r) => ⟨i + 1, .ok r⟩
      | .ok none => drawLoop lo hi attempt word fuel (i + 1)
    else drawLoop lo hi attempt word fuel (i + 1)

/-- The draws of one command: RETRY_MAX requests in all, counted from the draw counter (R87). -/
def State.takeDraws {α : Type} (s : State) (lo hi : Nat) (attempt : Nat → Except ErrCode (Option α)) : Drawn α :=
  drawLoop lo hi attempt s.rngAt (Config.retryMax - s.draws) 0

/-- The port's queue after `k` requests. -/
def State.consume (s : State) (k : Nat) : State := { s with rng := s.rng.drop k }

/-- A drawing command ends: with `writes` of its result, or in its error (R85, R152). Both have used the
port's words. -/
def concludeDraw {α : Type} (s : State) (d : Drawn α) (writes : α → State → State) : State :=
  match d.out with
  | .ok r => complete (writes r (s.consume d.used))
  | .error e => raiseError e (s.consume d.used)

end Machine
end Sys2Proof
end

