-- ==== Sys2Proof/Machine/PointOps.lean ====
section
/-! DEFINITION. The point family (42_point.md): PADD, PDBL, PMUL, PNORM, PLDG, PCHK, PEQ. Every point written
is in normal form (R105). -/

namespace Sys2Proof
namespace Machine

/-- `Aff(P[i])` (R104). -/
def State.point (s : State) (i : PReg) : Point := aff (s.getP i)

/-- `P[i] <- Norm(Q)` (R105). -/
def State.putPoint (s : State) (i : PReg) (q : Point) : State := s.setP i (norm q)

/-- PADD (R112). No check that the inputs are on the curve. -/
def execPadd (d a b : PReg) (s : State) : Host.Outcome State Fault Refusal :=
  succeed (s.putPoint d (add (s.point a) (s.point b)))

/-- PDBL (R113). -/
def execPdbl (d a : PReg) (s : State) : Host.Outcome State Fault Refusal :=
  succeed (s.putPoint d (dbl (s.point a)))

/-- PMUL (R114): ERR_POINT for a finite point off the curve; k is not reduced. -/
def execPmul (d a : PReg) (k : WReg) (s : State) : Host.Outcome State Fault Refusal :=
  if onCurve (s.point a) then succeed (s.putPoint d (mul (s.natW k) (s.point a))) else fail .point s

/-- PNORM (R115). -/
def execPnorm (d a : PReg) (s : State) : Host.Outcome State Fault Refusal :=
  succeed (s.putPoint d (s.point a))

/-- PLDG (R116). -/
def execPldg (d : PReg) (s : State) : Host.Outcome State Fault Refusal :=
  succeed (s.putPoint d basePoint)

/-- PCHK (R117). -/
def execPchk (a : PReg) (s : State) : Host.Outcome State Fault Refusal :=
  succeed (s.setRes (boolWord (onCurve (s.point a))))

/-- PEQ (R118). -/
def execPeq (a b : PReg) (s : State) : Host.Outcome State Fault Refusal :=
  succeed (s.setRes (boolWord (decide (s.point a = s.point b))))

end Machine
end Sys2Proof
end

