-- ==== Sys2Proof/Machine/Compress.lean ====
section
/-! DEFINITION. The compression family (43_compress.md): PCOMP, PDCMP, and the byte forms of R119. -/

namespace Sys2Proof
namespace Machine

/-- The compressed form's prefix: 2 for an even y, 3 for an odd one (R119, R120). -/
def compressPrefix (y : Nat) : Nat := 2 + y % 2

/-- The 33-byte compressed form the host assembles (R119). -/
def compressedBytes (x y : Nat) : List Byte := BitVec.ofNat 8 (compressPrefix y) :: i2os x 32

/-- The 65-byte uncompressed form (R119). -/
def uncompressedBytes (x y : Nat) : List Byte := 0x04 :: (i2os x 32 ++ i2os y 32)

/-- PCOMP (R120): x to W[d], the prefix to RES; ERR_INF for O. -/
def execPcomp (d : WReg) (a : PReg) (s : State) : Host.Outcome State Fault Refusal :=
  match s.point a with
  | .inf => fail .inf s
  | .aff x y => succeed ((s.putW d x).setRes (BitVec.ofNat 32 (compressPrefix y)))

/-- The y of the point with abscissa x and parity t, if there is one (R121). -/
def decompressY (x : Nat) (t : Bool) : Option Nat :=
  let alpha := curveRhs x
  let beta := sqrtModP alpha
  if beta * beta % Config.p ≠ alpha then none
  else
    let y := if beta % 2 = t.toNat then beta else Config.p - beta
    if y = Config.p then none else some y

/-- PDCMP (R121): ERR_DECODE for x ≥ p, for no square root, and for the root 0 with T = 1. -/
def execPdcmp (d : PReg) (x : WReg) (t : Bool) (s : State) : Host.Outcome State Fault Refusal :=
  if s.natW x ≥ Config.p then fail .decode s
  else
    match decompressY (s.natW x) t with
    | none => fail .decode s
    | some y => succeed (s.putPoint d (.aff (s.natW x) y))

end Machine
end Sys2Proof
end

