-- ==== Sys2Proof/Machine/Control.lean ====
section
/-! DEFINITION. The control family (40_control.md): NOP. -/

namespace Sys2Proof
namespace Machine

/-- NOP (R91): nothing, then successful completion. -/
def execNop (s : State) : Host.Outcome State Fault Refusal := succeed s

end Machine
end Sys2Proof
end

