-- ==== Sys2Proof/Machine/HashKdf.lean ====
section
/-! DEFINITION. The hash family (45_hash_kdf.md): the KDF function, HASH, KDF. -/

namespace Sys2Proof
namespace Machine

/-- `k` digest blocks of `Hash(Z ‖ I2OS(ct, 4))` for rising counters from `ct` (R128, 20_memory.md R61). -/
def kdfBlocks (z : List Byte) : (k ct : Nat) → List Byte
  | 0, _ => []
  | k + 1, ct => hash (z ++ i2os ct 4) ++ kdfBlocks z k (ct + 1)

/-- The number of digest blocks of L bytes: ceil(L / HLEN) (R128). -/
def kdfCount (l : Nat) : Nat := (l + Config.hlen - 1) / Config.hlen

/-- `KDF(Z, L)` (R128). The ERR_DERIVE branch is unreachable (R129) and kept. -/
def kdf (z : List Byte) (l : Nat) : Except ErrCode (List Byte) :=
  if kdfCount l > 2 ^ 32 - 1 then .error .derive else .ok ((kdfBlocks z (kdfCount l) 1).take l)

/-- The region checks of HASH (R130). -/
def hashRegionsOk (s : State) : Bool :=
  inBounds s.src.toNat s.slen.toNat && decide (32 ≤ s.dlen.toNat) && inBounds s.dst.toNat 32
    && !overlap s.src.toNat s.slen.toNat s.dst.toNat 32

/-- HASH (R130). -/
def execHash (s : State) : Host.Outcome State Fault Refusal :=
  if hashRegionsOk s then
    withRead s s.src.toNat s.slen.toNat fun m => succeed ((s.memWrite s.dst.toNat (hash m)).setOutlen 32)
  else fail .bounds s

/-- The region checks of KDF (R131). -/
def kdfRegionsOk (s : State) : Bool :=
  inBounds s.src.toNat s.slen.toNat && inBounds s.dst.toNat s.dlen.toNat
    && !overlap s.src.toNat s.slen.toNat s.dst.toNat s.dlen.toNat

/-- KDF (R131). -/
def execKdf (s : State) : Host.Outcome State Fault Refusal :=
  if kdfRegionsOk s then
    withRead s s.src.toNat s.slen.toNat fun z =>
      match kdf z s.dlen.toNat with
      | .error e => fail e s
      | .ok t => succeed ((s.memWrite s.dst.toNat t).setOutlen s.dlen.toNat)
  else fail .bounds s

end Machine
end Sys2Proof
end

