-- ==== Sys2Proof/Machine/Keys.lean ====
section
/-! DEFINITION. The key family (44_keys.md): the validity predicates, KEYGEN, KEYCHK. -/

namespace Sys2Proof
namespace Machine

/-- `KeyValid(X, Y, Z)` on the raw register values (R123). -/
def keyValid (t : Triple) : Bool :=
  t.z == 1 && decide (t.x.toNat < Config.p) && decide (t.y.toNat < Config.p)
    && onCurve (.aff t.x.toNat t.y.toNat)

/-- `PrivValid(d)` on the raw value (R124). -/
def privValid (d : Nat) : Bool := decide (1 ≤ d) && decide (d ≤ Config.n - 2)

/-- KEYGEN (R125): d drawn from [1, n − 2], W[d] and P[q] written. -/
def execKeygen (d : WReg) (q : PReg) (s : State) : Host.Outcome State Fault Refusal :=
  .next
    (concludeDraw s (s.takeDraws 1 (Config.n - 2) fun v => .ok (some v)) fun v t =>
      (t.putW d v).putPoint q (mul v basePoint))

/-- KEYCHK (R126). -/
def execKeychk (a : PReg) (s : State) : Host.Outcome State Fault Refusal :=
  succeed (s.setRes (boolWord (keyValid (s.getP a))))

end Machine
end Sys2Proof
end

