-- ==== Sys2Proof/Machine/Ecies.lean ====
section
/-! DEFINITION. The ECIES family (46_ecies.md): the ciphertext layout, ENC, DEC. -/

namespace Sys2Proof
namespace Machine

/-- `layout_T(C1b, C2, C3)` (R132). -/
def layout (t : CipherMode) (c1 c2 c3 : List Byte) : List Byte :=
  match t with
  | .c1c3c2 => c1 ++ c3 ++ c2
  | .c1c2c3 => c1 ++ c2 ++ c3

/-- The KDF input of a shared point: I2OS(x2, 32) ‖ I2OS(y2, 32) (R133). -/
def sharedBytes (q : Point) : List Byte := i2os q.xCoord 32 ++ i2os q.yCoord 32

/-- C3: Hash(I2OS(x2, 32) ‖ M ‖ I2OS(y2, 32)) (R133, R134). -/
def integrityDigest (q : Point) (m : List Byte) : List Byte :=
  hash (i2os q.xCoord 32 ++ m ++ i2os q.yCoord 32)

/-- One pass of ENC's loop with the nonce k (R133): the ciphertext, or `none` for `continue`. -/
def encAttempt (key : Point) (t : CipherMode) (m : List Byte) (k : Nat) : Except ErrCode (Option (List Byte)) :=
  let c1 := mul k basePoint
  match mul k key with
  | .inf => .ok none
  | .aff x2 y2 =>
    match kdf (sharedBytes (.aff x2 y2)) m.length with
    | .error e => .error e
    | .ok mask =>
      if m.length > 0 ∧ mask = zeros m.length then .ok none
      else
        .ok (some (layout t (uncompressedBytes c1.xCoord c1.yCoord) (xorBytes m mask)
          (integrityDigest (.aff x2 y2) m)))

/-- ENC's checks before it reads the message, in the order of R133. -/
def encCheck (key : PReg) (s : State) : Option ErrCode :=
  if !inBounds s.src.toNat s.slen.toNat then some .bounds
  else if s.dlen.toNat < 97 + s.slen.toNat || !inBounds s.dst.toNat (97 + s.slen.toNat) then some .bounds
  else if overlap s.src.toNat s.slen.toNat s.dst.toNat (97 + s.slen.toNat) then some .bounds
  else if !keyValid (s.getP key) then some .key
  else none

/-- The affine public key in a P register that passed KeyValid: its raw X and Y (R133, R143). -/
def State.rawKey (s : State) (i : PReg) : Point := .aff (s.getP i).x.toNat (s.getP i).y.toNat

/-- ENC (R133). -/
def execEnc (key : PReg) (t : CipherMode) (s : State) : Host.Outcome State Fault Refusal :=
  match encCheck key s with
  | some e => fail e s
  | none =>
    withRead s s.src.toNat s.slen.toNat fun m =>
      .next
        (concludeDraw s (s.takeDraws 1 (Config.n - 1) (encAttempt (s.rawKey key) t m)) fun c u =>
          (u.memWrite s.dst.toNat c).setOutlen (97 + s.slen.toNat))

/-- DEC's checks before it reads the ciphertext, in the order of R134. -/
def decCheck (key : WReg) (s : State) : Option ErrCode :=
  if !inBounds s.src.toNat s.slen.toNat then some .bounds
  else if s.slen.toNat < 97 then some .decode
  else if s.dlen.toNat < s.slen.toNat - 97 || !inBounds s.dst.toNat (s.slen.toNat - 97) then some .bounds
  else if overlap s.src.toNat s.slen.toNat s.dst.toNat (s.slen.toNat - 97) then some .bounds
  else if !privValid (s.natW key) then some .key
  else none

/-- C3 and C2 of a ciphertext (R134). -/
def cipherC3 (t : CipherMode) (ct : List Byte) : List Byte :=
  match t with
  | .c1c3c2 => slice ct 65 97
  | .c1c2c3 => slice ct (65 + (ct.length - 97)) ct.length
/-- C2 of a ciphertext (R134). -/
def cipherC2 (t : CipherMode) (ct : List Byte) : List Byte :=
  match t with
  | .c1c3c2 => slice ct 97 ct.length
  | .c1c2c3 => slice ct 65 (65 + (ct.length - 97))

/-- DEC on the bytes of the ciphertext (R134): the message, `none` where C3 does not match, or an error. -/
def decrypt (d : Nat) (t : CipherMode) (ct : List Byte) : Except ErrCode (Option (List Byte)) :=
  let x1 := os2i (slice ct 1 33)
  let y1 := os2i (slice ct 33 65)
  if ct[0]? ≠ some 0x04 then .error .decode
  else if x1 ≥ Config.p ∨ y1 ≥ Config.p then .error .decode
  else if !onCurve (.aff x1 y1) then .error .invCt
  else
    match mul d (.aff x1 y1) with
    | .inf => .error .invCt
    | .aff x2 y2 =>
      match kdf (sharedBytes (.aff x2 y2)) (ct.length - 97) with
      | .error e => .error e
      | .ok mask =>
        let m := xorBytes (cipherC2 t ct) mask
        .ok (if integrityDigest (.aff x2 y2) m = cipherC3 t ct then some m else none)

/-- DEC (R134). On a C3 mismatch the output region takes zeros and OUTLEN stays, with ERR_INTEGRITY. -/
def execDec (key : WReg) (t : CipherMode) (s : State) : Host.Outcome State Fault Refusal :=
  match decCheck key s with
  | some e => fail e s
  | none =>
    withRead s s.src.toNat s.slen.toNat fun ct =>
      match decrypt (s.natW key) t ct with
      | .error e => fail e s
      | .ok none => fail .integrity (s.memWrite s.dst.toNat (zeros (s.slen.toNat - 97)))
      | .ok (some m) => succeed ((s.memWrite s.dst.toNat m).setOutlen (s.slen.toNat - 97))

end Machine
end Sys2Proof
end

