-- ==== Sys2Proof/Machine/Modular.lean ====
section
/-! DEFINITION. The modular family (41_modular.md): MADD, MSUB, MMUL, MINV, MSQRT, MOV, LDC. Operands are
reduced first (R93), results are canonical (R94), and only W[FA] is written (R96). -/

namespace Sys2Proof
namespace Machine

/-- A two-source modular command: both operands reduced mod m, the result to W[d] (R92–R94). -/
def modularBinary (f : (m a b : Nat) → Nat) (d a b : WReg) (m : Modulus) (s : State) :
    Host.Outcome State Fault Refusal :=
  succeed (s.putW d (f (modulus m) (s.natW a % modulus m) (s.natW b % modulus m)))

/-- MADD (R97). -/
def execMadd (d a b : WReg) (m : Modulus) (s : State) : Host.Outcome State Fault Refusal :=
  modularBinary addMod d a b m s

/-- MSUB (R98). -/
def execMsub (d a b : WReg) (m : Modulus) (s : State) : Host.Outcome State Fault Refusal :=
  modularBinary subMod d a b m s

/-- MMUL (R99). -/
def execMmul (d a b : WReg) (m : Modulus) (s : State) : Host.Outcome State Fault Refusal :=
  modularBinary mulMod d a b m s

/-- MINV (R100): ERR_NOINV for a residue of 0, else a^(m−2) mod m. -/
def execMinv (d a : WReg) (m : Modulus) (s : State) : Host.Outcome State Fault Refusal :=
  if s.natW a % modulus m = 0 then fail .noInv s
  else succeed (s.putW d (invMod (modulus m) (s.natW a % modulus m)))

/-- MSQRT (R101): a^((p+1)/4) mod p, or ERR_NOSQRT where its square is not a. -/
def execMsqrt (d a : WReg) (s : State) : Host.Outcome State Fault Refusal :=
  let v := s.natW a % Config.p
  if sqrtModP v * sqrtModP v % Config.p ≠ v then fail .noSqrt s else succeed (s.putW d (sqrtModP v))

/-- MOV (R102): a copy, no reduction. -/
def execMov (d a : WReg) (s : State) : Host.Outcome State Fault Refusal := succeed (s.setW d (s.getW a))

/-- LDC (R103). -/
def execLdc (d : WReg) (c : CurveConst) (s : State) : Host.Outcome State Fault Refusal :=
  succeed (s.putW d (constValue c))

end Machine
end Sys2Proof
end

