-- ==== Sys2Proof/Machine/Signature.lean ====
section
/-! DEFINITION. The signature family (47_sm2sig.md): identity and digest, SIGN, VERIFY, PRECOMP. -/

namespace Sys2Proof
namespace Machine

/-- `ZA(ID, Px, Py)` (R139). -/
def za (ident : List Byte) (px py : Nat) : List Byte :=
  hash
    (i2os (8 * ident.length) 2 ++ ident ++ i2os Config.a 32 ++ i2os Config.b 32 ++ i2os Config.gx 32
      ++ i2os Config.gy 32 ++ i2os px 32 ++ i2os py 32)

/-- `Digest(ID, Px, Py, M)` (R140). -/
def digest (ident : List Byte) (px py : Nat) (m : List Byte) : Nat := os2i (hash (za ident px py ++ m))

/-- The region checks of SIGN and VERIFY with H = 0 (R141). -/
def digestRegionsOk (i : Bool) (s : State) : Bool :=
  inBounds s.src.toNat s.slen.toNat
    && (i || (decide (s.idlen.toNat ≤ 8191) && inBounds s.idaddr.toNat s.idlen.toNat))

/-- Go on with the identity: DEFID when I = 1, else the bytes at IDADDR (R140). -/
def withIdentity (i : Bool) (s : State) (go : List Byte → Host.Outcome State Fault Refusal) :
    Host.Outcome State Fault Refusal :=
  if i then go Config.defId else withRead s s.idaddr.toNat s.idlen.toNat go

/-- Go on with the digest e (R140): W[e], not reduced, when H = 1; else the digest of the identity, the key
and the message. -/
def withDigest (e : WReg) (h i : Bool) (q : Point) (s : State) (go : Nat → Host.Outcome State Fault Refusal) :
    Host.Outcome State Fault Refusal :=
  if h then go (s.natW e)
  else
    withIdentity i s fun ident =>
      withRead s s.src.toNat s.slen.toNat fun m => go (digest ident q.xCoord q.yCoord m)

/-- One pass of SIGN's loop with the nonce k (R142): (r, s), or `none` for `continue`. -/
def signAttempt (d e k : Nat) : Except ErrCode (Option (Nat × Nat)) :=
  let r := (e + (mul k basePoint).xCoord) % Config.n
  if r = 0 ∨ r + k = Config.n then .ok none
  else
    let sg := invMod Config.n (1 + d) * subMod Config.n k (r * d) % Config.n
    if sg = 0 then .ok none else .ok (some (r, sg))

/-- SIGN (R142). -/
def execSign (rs key e : WReg) (h i : Bool) (s : State) : Host.Outcome State Fault Refusal :=
  if !h && !digestRegionsOk i s then fail .bounds s
  else if !privValid (s.natW key) then fail .key s
  else
    withDigest e h i (mul (s.natW key) basePoint) s fun ev =>
      .next
        (concludeDraw s (s.takeDraws 1 (Config.n - 1) (signAttempt (s.natW key) ev)) fun sig t =>
          (t.putW rs sig.1).putW (pairNext rs) sig.2)

/-- The key of VERIFY: TAB_KEY when U = 1, else the raw X and Y of P[FD] (R143). -/
def State.verifyKey (s : State) (key : PReg) (u : Bool) : Point :=
  if u then .aff s.tabKey.x.toNat s.tabKey.y.toNat else s.rawKey key

/-- VERIFY's checks that raise an error, in the order of R143. -/
def verifyCheck (key : PReg) (h i u : Bool) (s : State) : Option ErrCode :=
  if u && !s.tabv then some .noTab
  else if !h && !digestRegionsOk i s then some .bounds
  else if !u && !keyValid (s.getP key) then some .key
  else none

/-- Step 1 of VERIFY: 1 ≤ r ≤ n − 1 and 1 ≤ s ≤ n − 1 (R143). -/
def sigInRange (r sg : Nat) : Bool :=
  decide (1 ≤ r) && decide (r ≤ Config.n - 1) && decide (1 ≤ sg) && decide (sg ≤ Config.n - 1)

/-- Steps 3 to 5 of VERIFY (R143). -/
def sigMatches (k : Point) (e r sg : Nat) : Bool :=
  let t := (r + sg) % Config.n
  if t = 0 then false
  else
    match add (mul sg basePoint) (mul t k) with
    | .inf => false
    | .aff x1 _ => (e + x1) % Config.n == r

/-- VERIFY (R143). -/
def execVerify (rs e : WReg) (key : PReg) (h i u : Bool) (s : State) : Host.Outcome State Fault Refusal :=
  match verifyCheck key h i u s with
  | some err => fail err s
  | none =>
    if sigInRange (s.natW rs) (s.natW (pairNext rs)) then
      withDigest e h i (s.verifyKey key u) s fun ev =>
        succeed (s.setRes (boolWord (sigMatches (s.verifyKey key u) ev (s.natW rs) (s.natW (pairNext rs)))))
    else succeed (s.setRes 0)

/-- PRECOMP (R144). -/
def execPrecomp (key : PReg) (s : State) : Host.Outcome State Fault Refusal :=
  if keyValid (s.getP key) then succeed (s.setTab (s.getP key).x (s.getP key).y) else fail .key s

end Machine
end Sys2Proof
end

