-- ==== Sys2Proof/Machine/Dispatch.lean ====
section
/-! DEFINITION. The meaning of every command: one arm per constructor of Instr. -/

namespace Sys2Proof
namespace Machine

def exec (i : Instr) (s : State) : Host.Outcome State Fault Refusal :=
  match i with
  | .nop => Sys2Proof.Machine.execNop s
  | .madd d a b m => Sys2Proof.Machine.execMadd d a b m s
  | .msub d a b m => Sys2Proof.Machine.execMsub d a b m s
  | .mmul d a b m => Sys2Proof.Machine.execMmul d a b m s
  | .minv d a m => Sys2Proof.Machine.execMinv d a m s
  | .msqrt d a => Sys2Proof.Machine.execMsqrt d a s
  | .mov d a => Sys2Proof.Machine.execMov d a s
  | .ldc d c => Sys2Proof.Machine.execLdc d c s
  | .padd d a b => Sys2Proof.Machine.execPadd d a b s
  | .pdbl d a => Sys2Proof.Machine.execPdbl d a s
  | .pmul d a k => Sys2Proof.Machine.execPmul d a k s
  | .pnorm d a => Sys2Proof.Machine.execPnorm d a s
  | .pldg d => Sys2Proof.Machine.execPldg d s
  | .pchk a => Sys2Proof.Machine.execPchk a s
  | .peq a b => Sys2Proof.Machine.execPeq a b s
  | .pcomp d a => Sys2Proof.Machine.execPcomp d a s
  | .pdcmp d x t => Sys2Proof.Machine.execPdcmp d x t s
  | .keygen d q => Sys2Proof.Machine.execKeygen d q s
  | .keychk a => Sys2Proof.Machine.execKeychk a s
  | .hash => Sys2Proof.Machine.execHash s
  | .kdf => Sys2Proof.Machine.execKdf s
  | .enc key t => Sys2Proof.Machine.execEnc key t s
  | .dec key t => Sys2Proof.Machine.execDec key t s
  | .sign rs key e h b => Sys2Proof.Machine.execSign rs key e h b s
  | .verify rs e key h b u => Sys2Proof.Machine.execVerify rs e key h b u s
  | .precomp key => Sys2Proof.Machine.execPrecomp key s

end Machine
end Sys2Proof
end

