-- ==== Sys2Proof/WellFormed.lean ====
section
/-! DEFINITION. The checks on an instruction that its operand types do not already make: the `w-even`
role (30_encoding.md R71) and the extra constraints of SIGN and VERIFY (R74). -/

namespace Sys2Proof

/-- The `w-even` role: bit 0 of the index is 0 (R71). -/
def evenReg (r : WReg) : Bool := r.val % 2 == 0

/-- The constraint SIGN and VERIFY share: H = 0 requires FC = 0, H = 1 requires I = 0 (R74). -/
def digestFieldsOk (e : WReg) (h i : Bool) : Bool := (h || e.val == 0) && (!h || !i)

/-- VERIFY's further constraint: U = 1 requires FD = 0 (R74). -/
def keyFieldOk (key : PReg) (u : Bool) : Bool := !u || key.val == 0

/-- The instruction meets every role and constraint of R71 and R74. -/
def Instr.wellFormed : Instr → Bool
  | .nop => true
  | .madd _ _ _ _ => true
  | .msub _ _ _ _ => true
  | .mmul _ _ _ _ => true
  | .minv _ _ _ => true
  | .msqrt _ _ => true
  | .mov _ _ => true
  | .ldc _ _ => true
  | .padd _ _ _ => true
  | .pdbl _ _ => true
  | .pmul _ _ _ => true
  | .pnorm _ _ => true
  | .pldg _ => true
  | .pchk _ => true
  | .peq _ _ => true
  | .pcomp _ _ => true
  | .pdcmp _ _ _ => true
  | .keygen _ _ => true
  | .keychk _ => true
  | .hash => true
  | .kdf => true
  | .enc _ _ => true
  | .dec _ _ => true
  | .sign rs _ e h i => evenReg rs && digestFieldsOk e h i
  | .verify rs e key h i u => evenReg rs && digestFieldsOk e h i && keyFieldOk key u
  | .precomp _ => true

/-- A well-formed instruction. -/
abbrev WellFormed (i : Instr) : Prop := i.wellFormed = true

end Sys2Proof
end

