-- ==== Sys2Proof/Decode.lean ====
section
/-! DEFINITION. The command word (30_encoding.md): its fields (R70), the roles each opcode gives them
(R71, R74), the decoder, total on every word and rejecting by name (R75), and the encoder. -/

namespace Sys2Proof

/-! ### Fields (R70) -/

/-- The fields of a command word, each as the number its bits spell. -/
structure Fields where
  opc : Nat
  fa : Nat
  fb : Nat
  fc : Nat
  fd : Nat
  m : Nat
  t : Nat
  h : Nat
  i : Nat
  u : Nat
  rsv : Nat
deriving DecidableEq, Repr

/-- The number in `len` bits of a word from bit `lo` up (R16). -/
def bitsAt (w lo len : Nat) : Nat := w / 2 ^ lo % 2 ^ len

/-- The fields of a command word, by the table of R70. -/
def unpack (w : Word32) : Fields :=
  { opc := bitsAt w.toNat 0 8
    fa := bitsAt w.toNat 8 4
    fb := bitsAt w.toNat 12 4
    fc := bitsAt w.toNat 16 4
    fd := bitsAt w.toNat 20 4
    m := bitsAt w.toNat 24 1
    t := bitsAt w.toNat 25 1
    h := bitsAt w.toNat 26 1
    i := bitsAt w.toNat 27 1
    u := bitsAt w.toNat 28 1
    rsv := bitsAt w.toNat 29 3 }

/-- The command word with these fields, by the table of R70. -/
def pack (f : Fields) : Word32 :=
  BitVec.ofNat 32
    (f.opc + f.fa * 2 ^ 8 + f.fb * 2 ^ 12 + f.fc * 2 ^ 16 + f.fd * 2 ^ 20 + f.m * 2 ^ 24 + f.t * 2 ^ 25
      + f.h * 2 ^ 26 + f.i * 2 ^ 27 + f.u * 2 ^ 28 + f.rsv * 2 ^ 29)

/-! ### The opcode map (R74) -/

/-- The mnemonics of R74. -/
inductive Op where
  | nop | madd | msub | mmul | minv | msqrt | mov | ldc
  | padd | pdbl | pmul | pnorm | pldg | pchk | peq
  | pcomp | pdcmp | keygen | keychk | hash | kdf | enc | dec | sign | verify | precomp
deriving DecidableEq, Repr

/-- The OPC column of R74. -/
def Op.code : Op → Nat
  | .nop => 0x00
  | .madd => 0x10
  | .msub => 0x11
  | .mmul => 0x12
  | .minv => 0x13
  | .msqrt => 0x14
  | .mov => 0x18
  | .ldc => 0x19
  | .padd => 0x20
  | .pdbl => 0x21
  | .pmul => 0x22
  | .pnorm => 0x23
  | .pldg => 0x24
  | .pchk => 0x25
  | .peq => 0x26
  | .pcomp => 0x30
  | .pdcmp => 0x31
  | .keygen => 0x40
  | .keychk => 0x41
  | .hash => 0x50
  | .kdf => 0x51
  | .enc => 0x60
  | .dec => 0x61
  | .sign => 0x70
  | .verify => 0x71
  | .precomp => 0x72

/-- Every mnemonic, in the order of R74. -/
def Op.all : List Op :=
  [.nop, .madd, .msub, .mmul, .minv, .msqrt, .mov, .ldc, .padd, .pdbl, .pmul, .pnorm, .pldg, .pchk, .peq]
    ++ [.pcomp, .pdcmp, .keygen, .keychk, .hash, .kdf, .enc, .dec, .sign, .verify, .precomp]

/-- The mnemonic of an opcode; none for an opcode not in the map (R75). -/
def Op.ofCode (c : Nat) : Option Op := Op.all.find? fun o => o.code == c

/-- The roles of R71. -/
inductive Role where
  /-- `0`: unused, must be 0. -/
  | zero
  /-- `w`: a W index 0 to 15. -/
  | w
  /-- `p`: bit 3 must be 0. -/
  | p
  /-- `w-even`: bit 0 must be 0. -/
  | wEven
  /-- `c`: bit 3 must be 0. -/
  | c
deriving DecidableEq, Repr

/-- The field value fits the role (R71). -/
def Role.fits : Role → Nat → Bool
  | .zero, v => v == 0
  | .w, _ => true
  | .p, v => v / 8 % 2 == 0
  | .wEven, v => v % 2 == 0
  | .c, v => v / 8 % 2 == 0

/-- One row of R74: the roles of the four fields and the flags the opcode uses. -/
structure Row where
  fa : Role := .zero
  fb : Role := .zero
  fc : Role := .zero
  fd : Role := .zero
  m : Bool := false
  t : Bool := false
  h : Bool := false
  i : Bool := false
  u : Bool := false
deriving DecidableEq, Repr

/-- The rows of R74. -/
def Op.row : Op → Row
  | .nop => {}
  | .madd => { fa := .w, fb := .w, fc := .w, m := true }
  | .msub => { fa := .w, fb := .w, fc := .w, m := true }
  | .mmul => { fa := .w, fb := .w, fc := .w, m := true }
  | .minv => { fa := .w, fb := .w, m := true }
  | .msqrt => { fa := .w, fb := .w }
  | .mov => { fa := .w, fb := .w }
  | .ldc => { fa := .w, fb := .c }
  | .padd => { fa := .p, fb := .p, fc := .p }
  | .pdbl => { fa := .p, fb := .p }
  | .pmul => { fa := .p, fb := .p, fc := .w }
  | .pnorm => { fa := .p, fb := .p }
  | .pldg => { fa := .p }
  | .pchk => { fb := .p }
  | .peq => { fb := .p, fc := .p }
  | .pcomp => { fa := .w, fb := .p }
  | .pdcmp => { fa := .p, fb := .w, t := true }
  | .keygen => { fa := .w, fb := .p }
  | .keychk => { fb := .p }
  | .hash => {}
  | .kdf => {}
  | .enc => { fb := .p, t := true }
  | .dec => { fb := .w, t := true }
  | .sign => { fa := .wEven, fb := .w, fc := .w, h := true, i := true }
  | .verify => { fb := .wEven, fc := .w, fd := .p, h := true, i := true, u := true }
  | .precomp => { fb := .p }

/-- The "extra constraint" column of R74. -/
def Op.constraint (o : Op) (f : Fields) : Bool :=
  let digest := (f.h == 1 || f.fc == 0) && (f.h == 0 || f.i == 0)
  match o with
  | .sign => digest
  | .verify => digest && (f.u == 0 || f.fd == 0)
  | _ => true

/-- Why a command word is illegal (R75). -/
inductive Illegal where
  /-- OPC is not in the map of R74. -/
  | opcode
  /-- RSV is not 0. -/
  | reserved
  /-- A field breaks its role: a `0` field that is not 0, a `p` or `c` field with bit 3 set, a `w-even` field
  with bit 0 set. -/
  | fieldRole
  /-- A flag that the opcode does not list is 1. -/
  | flag
  /-- The opcode's extra constraint fails. -/
  | constraint
deriving DecidableEq, Repr

/-- Every field fits its role. -/
def Row.rolesOk (r : Row) (f : Fields) : Bool :=
  r.fa.fits f.fa && r.fb.fits f.fb && r.fc.fits f.fc && r.fd.fits f.fd

/-- Every flag the row does not list is 0. -/
def Row.flagsOk (r : Row) (f : Fields) : Bool :=
  (r.m || f.m == 0) && (r.t || f.t == 0) && (r.h || f.h == 0) && (r.i || f.i == 0) && (r.u || f.u == 0)

/-! ### Operand values -/

/-- The modulus the M flag selects (R73). -/
def Modulus.ofFlag (v : Nat) : Modulus := if v = 0 then .p else .n
/-- The M flag of a modulus. -/
def Modulus.flag : Modulus → Nat
  | .p => 0
  | .n => 1

/-- The cipher mode the T flag selects (R73). -/
def CipherMode.ofFlag (v : Nat) : CipherMode := if v = 0 then .c1c3c2 else .c1c2c3
/-- The T flag of a cipher mode. -/
def CipherMode.flag : CipherMode → Nat
  | .c1c3c2 => 0
  | .c1c2c3 => 1

/-- The constant that bits [2:0] of LDC's FB select (R103). -/
def CurveConst.ofIndex (v : Nat) : CurveConst :=
  match v % 8 with
  | 0 => .p
  | 1 => .a
  | 2 => .b
  | 3 => .n
  | 4 => .gx
  | 5 => .gy
  | 6 => .zero
  | _ => .one
/-- The index of a constant (R103). -/
def CurveConst.index : CurveConst → Nat
  | .p => 0
  | .a => 1
  | .b => 2
  | .n => 3
  | .gx => 4
  | .gy => 5
  | .zero => 6
  | .one => 7

/-- A `w` or `w-even` field as a W index. -/
def wReg (v : Nat) : WReg := Fin.ofNat 16 v
/-- A `p` field as a P index: bits [2:0] (R71). -/
def pReg (v : Nat) : PReg := Fin.ofNat 8 v
/-- A flag bit as a Boolean. -/
def flagBit (v : Nat) : Bool := v == 1

/-! ### The decoder -/

/-- The instruction of a legal word: its operands from the fields R74 names. -/
def Op.build (o : Op) (f : Fields) : Instr :=
  match o with
  | .nop => .nop
  | .madd => .madd (wReg f.fa) (wReg f.fb) (wReg f.fc) (.ofFlag f.m)
  | .msub => .msub (wReg f.fa) (wReg f.fb) (wReg f.fc) (.ofFlag f.m)
  | .mmul => .mmul (wReg f.fa) (wReg f.fb) (wReg f.fc) (.ofFlag f.m)
  | .minv => .minv (wReg f.fa) (wReg f.fb) (.ofFlag f.m)
  | .msqrt => .msqrt (wReg f.fa) (wReg f.fb)
  | .mov => .mov (wReg f.fa) (wReg f.fb)
  | .ldc => .ldc (wReg f.fa) (.ofIndex f.fb)
  | .padd => .padd (pReg f.fa) (pReg f.fb) (pReg f.fc)
  | .pdbl => .pdbl (pReg f.fa) (pReg f.fb)
  | .pmul => .pmul (pReg f.fa) (pReg f.fb) (wReg f.fc)
  | .pnorm => .pnorm (pReg f.fa) (pReg f.fb)
  | .pldg => .pldg (pReg f.fa)
  | .pchk => .pchk (pReg f.fb)
  | .peq => .peq (pReg f.fb) (pReg f.fc)
  | .pcomp => .pcomp (wReg f.fa) (pReg f.fb)
  | .pdcmp => .pdcmp (pReg f.fa) (wReg f.fb) (flagBit f.t)
  | .keygen => .keygen (wReg f.fa) (pReg f.fb)
  | .keychk => .keychk (pReg f.fb)
  | .hash => .hash
  | .kdf => .kdf
  | .enc => .enc (pReg f.fb) (.ofFlag f.t)
  | .dec => .dec (wReg f.fb) (.ofFlag f.t)
  | .sign => .sign (wReg f.fa) (wReg f.fb) (wReg f.fc) (flagBit f.h) (flagBit f.i)
  | .verify => .verify (wReg f.fb) (wReg f.fc) (pReg f.fd) (flagBit f.h) (flagBit f.i) (flagBit f.u)
  | .precomp => .precomp (pReg f.fb)

/-- The legality check of R74 and R75 and the instruction, on a word's fields. -/
def decodeFields (f : Fields) : Except Illegal Instr :=
  match Op.ofCode f.opc with
  | none => .error .opcode
  | some o =>
    if f.rsv ≠ 0 then .error .reserved
    else if !o.row.rolesOk f then .error .fieldRole
    else if !o.row.flagsOk f then .error .flag
    else if !o.constraint f then .error .constraint
    else .ok (o.build f)

/-- The decoder: every one of the 2^32 words is one instruction or is illegal by name (R76). -/
def decode (w : Word32) : Except Illegal Instr := decodeFields (unpack w)

/-- The word is a legal command word (R74). -/
def legalWord (w : Word32) : Bool := (decode w).isOk

/-- The instruction the decoder reads from an instruction whose bits are `w`, `nbits` of them given by
the table and those above 0 (a command word has 32, R69). -/
def decodeTableWord (nbits w : Nat) : Option Instr :=
  (decode (BitVec.ofNat 32 (w % 2 ^ nbits))).toOption

/-! ### The encoder -/

/-- The fields of an instruction's word, by R74: every field and flag not set here is 0. -/
def Instr.fields : Instr → Fields
  | .nop => ⟨Op.nop.code, 0, 0, 0, 0, 0, 0, 0, 0, 0, 0⟩
  | .madd d a b m => ⟨Op.madd.code, d.val, a.val, b.val, 0, m.flag, 0, 0, 0, 0, 0⟩
  | .msub d a b m => ⟨Op.msub.code, d.val, a.val, b.val, 0, m.flag, 0, 0, 0, 0, 0⟩
  | .mmul d a b m => ⟨Op.mmul.code, d.val, a.val, b.val, 0, m.flag, 0, 0, 0, 0, 0⟩
  | .minv d a m => ⟨Op.minv.code, d.val, a.val, 0, 0, m.flag, 0, 0, 0, 0, 0⟩
  | .msqrt d a => ⟨Op.msqrt.code, d.val, a.val, 0, 0, 0, 0, 0, 0, 0, 0⟩
  | .mov d a => ⟨Op.mov.code, d.val, a.val, 0, 0, 0, 0, 0, 0, 0, 0⟩
  | .ldc d c => ⟨Op.ldc.code, d.val, c.index, 0, 0, 0, 0, 0, 0, 0, 0⟩
  | .padd d a b => ⟨Op.padd.code, d.val, a.val, b.val, 0, 0, 0, 0, 0, 0, 0⟩
  | .pdbl d a => ⟨Op.pdbl.code, d.val, a.val, 0, 0, 0, 0, 0, 0, 0, 0⟩
  | .pmul d a k => ⟨Op.pmul.code, d.val, a.val, k.val, 0, 0, 0, 0, 0, 0, 0⟩
  | .pnorm d a => ⟨Op.pnorm.code, d.val, a.val, 0, 0, 0, 0, 0, 0, 0, 0⟩
  | .pldg d => ⟨Op.pldg.code, d.val, 0, 0, 0, 0, 0, 0, 0, 0, 0⟩
  | .pchk a => ⟨Op.pchk.code, 0, a.val, 0, 0, 0, 0, 0, 0, 0, 0⟩
  | .peq a b => ⟨Op.peq.code, 0, a.val, b.val, 0, 0, 0, 0, 0, 0, 0⟩
  | .pcomp d a => ⟨Op.pcomp.code, d.val, a.val, 0, 0, 0, 0, 0, 0, 0, 0⟩
  | .pdcmp d x t => ⟨Op.pdcmp.code, d.val, x.val, 0, 0, 0, t.toNat, 0, 0, 0, 0⟩
  | .keygen d q => ⟨Op.keygen.code, d.val, q.val, 0, 0, 0, 0, 0, 0, 0, 0⟩
  | .keychk a => ⟨Op.keychk.code, 0, a.val, 0, 0, 0, 0, 0, 0, 0, 0⟩
  | .hash => ⟨Op.hash.code, 0, 0, 0, 0, 0, 0, 0, 0, 0, 0⟩
  | .kdf => ⟨Op.kdf.code, 0, 0, 0, 0, 0, 0, 0, 0, 0, 0⟩
  | .enc key t => ⟨Op.enc.code, 0, key.val, 0, 0, 0, t.flag, 0, 0, 0, 0⟩
  | .dec key t => ⟨Op.dec.code, 0, key.val, 0, 0, 0, t.flag, 0, 0, 0, 0⟩
  | .sign rs key e h i => ⟨Op.sign.code, rs.val, key.val, e.val, 0, 0, 0, h.toNat, i.toNat, 0, 0⟩
  | .verify rs e key h i u =>
    ⟨Op.verify.code, 0, rs.val, e.val, key.val, 0, 0, h.toNat, i.toNat, u.toNat, 0⟩
  | .precomp key => ⟨Op.precomp.code, 0, key.val, 0, 0, 0, 0, 0, 0, 0, 0⟩

/-- The command word of a well-formed instruction (R70, R74). -/
def encode (i : Instr) : Word32 := pack i.fields

/-! ### Pseudo-commands and the assembler's refusal (R77, R78) -/

/-- `MSQR[.N] wD, wA` (R78). -/
def Instr.msqr (d a : WReg) (m : Modulus) : Instr := .mmul d a a m
/-- `MDBL[.N] wD, wA` (R78). -/
def Instr.mdbl (d a : WReg) (m : Modulus) : Instr := .madd d a a m
/-- `MCLR wD` (R78). -/
def Instr.mclr (d : WReg) : Instr := .ldc d .zero
/-- `MONE wD` (R78). -/
def Instr.mone (d : WReg) : Instr := .ldc d .one
/-- `PMOV pD, pA` (R78). -/
def Instr.pmov (d a : PReg) : Instr := .pnorm d a

/-- The word an assembler emits for an instruction; it refuses one whose encoding is illegal (R77). -/
def assemble (i : Instr) : Option Word32 :=
  if i.wellFormed then some (encode i) else none

end Sys2Proof
end

