-- ==== Sys2Proof/Machine/HostPort.lean ====
section
/-! DEFINITION. The host's side of the block: the window's map (10_state.md R28, R30, R31), bus reads and writes
(20_memory.md R49–R55), the busy gate (R40), START (40_control.md R81) and the soft reset
(70_reset_and_hazards.md R165). -/

namespace Sys2Proof
namespace Machine

/-! ### The map of the window (R31) -/

/-- The twelve host registers (R31). -/
inductive HostReg where
  | id | ctrl | cmd | status | res | src | slen | dst | dlen | idaddr | idlen | outlen
deriving DecidableEq, Repr

/-- A coordinate of a P register (R30). -/
inductive Coord where
  | x | y | z
deriving DecidableEq, Repr

/-- What an aligned offset of the window names. -/
inductive Loc where
  | reg (r : HostReg)
  /-- Word j of W[i] (R28). -/
  | wWord (i : WReg) (j : Fin 8)
  /-- Word j of a coordinate of P[i] (R30). -/
  | pWord (i : PReg) (c : Coord) (j : Fin 8)
  /-- The four DMEM bytes from a up (20_memory.md R51). -/
  | dmem (a : Nat)
  | reserved
deriving DecidableEq, Repr

/-- The host register at an offset below 0x030 (R31). -/
def hostRegAt (o : Nat) : HostReg :=
  match o / 4 with
  | 0 => .id
  | 1 => .ctrl
  | 2 => .cmd
  | 3 => .status
  | 4 => .res
  | 5 => .src
  | 6 => .slen
  | 7 => .dst
  | 8 => .dlen
  | 9 => .idaddr
  | 10 => .idlen
  | _ => .outlen

/-- The coordinate at a byte offset inside a P register (R30). -/
def coordAt (o : Nat) : Coord :=
  match o / 32 with
  | 0 => .x
  | 1 => .y
  | _ => .z

/-- The map of R31, R28, R30 and 20_memory.md R48 on an offset. -/
def locate (off : BitVec 16) : Loc :=
  let o := off.toNat
  if o < 0x030 then .reg (hostRegAt o)
  else if o < 0x100 then .reserved
  else if o < 0x300 then .wWord (Fin.ofNat 16 ((o - 0x100) / 32)) (Fin.ofNat 8 ((o - 0x100) % 32 / 4))
  else if o < 0x600 then
    .pWord (Fin.ofNat 8 ((o - 0x300) / 96)) (coordAt ((o - 0x300) % 96)) (Fin.ofNat 8 ((o - 0x300) % 32 / 4))
  else if o < 0x1000 then .reserved
  else if o < 0x1000 + Config.dmemSize then .dmem (o - 0x1000)
  else .reserved

/-- The offset of a platform address in the window at BASE, if it is in the window (R31, R62). -/
def windowOffset (addr : Nat) : Option (BitVec 16) :=
  if Config.base ≤ addr ∧ addr < Config.base + 2 ^ 16 then some (BitVec.ofNat 16 (addr - Config.base)) else none

/-! ### Words of wide values -/

/-- Word j of a 256-bit value: bits [32·j + 31 : 32·j] (R28). -/
def wordOf (v : U256) (j : Fin 8) : Word32 := v.extractLsb' (32 * j.val) 32

/-- The value with word j replaced. -/
def setWordOf (v : U256) (j : Fin 8) (x : Word32) : U256 :=
  (v &&& ~~~((0xFFFFFFFF : U256) <<< (32 * j.val))) ||| (x.setWidth 256 <<< (32 * j.val))

/-- A coordinate of a triple. -/
def Triple.coord (t : Triple) : Coord → U256
  | .x => t.x
  | .y => t.y
  | .z => t.z

/-- The triple with one coordinate replaced. -/
def Triple.setCoord (t : Triple) (c : Coord) (v : U256) : Triple :=
  match c with
  | .x => { t with x := v }
  | .y => { t with y := v }
  | .z => { t with z := v }

/-- The host word of four DMEM bytes, the lowest address in bits [7:0] (20_memory.md R51). -/
def laneWord (b0 b1 b2 b3 : Byte) : Word32 := b3 ++ b2 ++ b1 ++ b0

/-- The four bytes of a host word, the lowest address first (R51). -/
def laneBytes (v : Word32) : List Byte :=
  [v.extractLsb' 0 8, v.extractLsb' 8 8, v.extractLsb' 16 8, v.extractLsb' 24 8]

/-! ### Reads -/

/-- The value of a host register. -/
def hostRegWord (r : HostReg) (s : State) : Word32 :=
  match r with
  | .id => Config.idWord
  | .ctrl => ctrlWord s
  | .cmd => s.cmd
  | .status => statusWord s
  | .res => s.res
  | .src => s.src
  | .slen => s.slen
  | .dst => s.dst
  | .dlen => s.dlen
  | .idaddr => s.idaddr
  | .idlen => s.idlen
  | .outlen => s.outlen

/-- A location whose reads return 0 while busy: RES, OUTLEN, W, P, DMEM (R40). -/
def Loc.hidden : Loc → Bool
  | .reg .res => true
  | .reg .outlen => true
  | .reg _ => false
  | .wWord _ _ => true
  | .pWord _ _ _ => true
  | .dmem _ => true
  | .reserved => false

/-- The word at a location, while the engine is idle. -/
def locWord (l : Loc) (s : State) : Word32 :=
  match l with
  | .reg r => hostRegWord r s
  | .wWord i j => wordOf (s.getW i) j
  | .pWord i c j => wordOf ((s.getP i).coord c) j
  | .dmem a => laneWord (s.dmemByte a) (s.dmemByte (a + 1)) (s.dmemByte (a + 2)) (s.dmemByte (a + 3))
  | .reserved => 0

/-- The access is aligned and 4 bytes wide (R50). -/
def accessOk (off : BitVec 16) (size : Nat) : Bool := off.toNat % 4 == 0 && size == 4

/-- The state with the response of a host access. -/
def State.respond (s : State) (r : Resp) : State := { s with resp := some r }

/-- A host read (R49, R50, R40, R39, R56): no side effect but the response (R55). -/
def hostRead (off : BitVec 16) (size : Nat) (s : State) : Host.Outcome State Fault Refusal :=
  if accessOk off size then
    if s.isBusy && (locate off).hidden then .next (s.respond (.okay (some 0)))
    else
      match locate off with
      | .dmem a => withRead s a 4 fun _ => .next (s.respond (.okay (some (locWord (.dmem a) s))))
      | l => .next (s.respond (.okay (some (locWord l s))))
  else .next (s.respond (.error (some 0)))

/-! ### Writes -/

/-- START is accepted (R81). -/
def acceptStart (s : State) : State :=
  { s with done := false, err := false, errcode := 0, draws := 0, engine := .busy s.cmd }

/-- A write that the busy engine ignores sets WIGN (R40, R81). -/
def ignoreWrite (s : State) : State := { s with wign := true }

/-- A START (R81). -/
def start (s : State) : State := if s.isBusy then ignoreWrite s else acceptStart s

/-- The output region of the command word c (R165, and the region line of each command's rule). -/
def outputRegion (c : Word32) (s : State) : Nat × Nat :=
  match decode c with
  | .ok .hash => (s.dst.toNat, 32)
  | .ok .kdf => (s.dst.toNat, s.dlen.toNat)
  | .ok (.enc _ _) => (s.dst.toNat, 97 + s.slen.toNat)
  | .ok (.dec _ _) => (s.dst.toNat, s.slen.toNat - 97)
  | _ => (0, 0)

/-- The command makes RNG requests: KEYGEN, ENC, SIGN (R25). -/
def drawsWords (c : Word32) : Bool :=
  match decode c with
  | .ok (.keygen _ _) => true
  | .ok (.enc _ _) => true
  | .ok (.sign _ _ _ _ _) => true
  | _ => false

/-- DMEM after a busy command is abandoned: the bytes of its output region that DMEM has are free values,
every other byte keeps its value (R165). -/
def abandonDmem (c : Word32) (s : State) : Memory :=
  let r := outputRegion c s
  s.dmem.storeAll r.1
    ((List.range (min r.2 (Config.dmemSize - r.1))).map fun i => Config.abandonedByte s.tick (r.1 + i))

/-- The RNG port's queue after a busy command is abandoned: it may have made any number of its requests. -/
def abandonRng (c : Word32) (s : State) : List U256 :=
  if drawsWords c then s.rng.drop (min (Config.abandonedDraws s.tick) Config.retryMax) else s.rng

/-- Every register, W, P, TAB_KEY, TABV and the draw counter at the values of R46, the engine idle; DMEM,
the world outside and the model's own fields kept. -/
def clearRegisters (s : State) : State :=
  { State.reset with dmem := s.dmem, inputs := s.inputs, resp := s.resp, rng := s.rng, tick := s.tick }

/-- The soft reset (R165). -/
def softReset (s : State) : State :=
  match s.engine with
  | .idle => clearRegisters s
  | .busy c => clearRegisters { s with dmem := abandonDmem c s, rng := abandonRng c s }

/-- The power-on reset (R164): as the soft reset, and DMEM holds nothing written (R56). -/
def powerOnReset (s : State) : State := { clearRegisters s with dmem := [], resp := none }

/-- A host write to CTRL (R33): SRST wins; otherwise IRQEN takes bit 2 and START acts when bit 0 is 1. -/
def writeCtrl (v : Word32) (s : State) : State :=
  if v.getLsbD 1 then softReset s
  else if v.getLsbD 0 then start { s with irqen := v.getLsbD 2 }
  else { s with irqen := v.getLsbD 2 }

/-- A location whose writes the busy engine ignores with WIGN: CMD, SRC to IDLEN, W, P, DMEM (R40). -/
def Loc.gated : Loc → Bool
  | .reg .cmd => true
  | .reg .src => true
  | .reg .slen => true
  | .reg .dst => true
  | .reg .dlen => true
  | .reg .idaddr => true
  | .reg .idlen => true
  | .reg _ => false
  | .wWord _ _ => true
  | .pWord _ _ _ => true
  | .dmem _ => true
  | .reserved => false

/-- A write to a host register (R31): ID, RES and OUTLEN are read-only and ignore it. -/
def writeHostReg (r : HostReg) (v : Word32) (s : State) : State :=
  match r with
  | .id => s
  | .ctrl => writeCtrl v s
  | .cmd => { s with cmd := v }
  | .status => writeStatus v s
  | .res => s
  | .src => { s with src := v }
  | .slen => { s with slen := v }
  | .dst => { s with dst := v }
  | .dlen => { s with dlen := v }
  | .idaddr => { s with idaddr := v }
  | .idlen => { s with idlen := v }
  | .outlen => s

/-- A write that is not gated. Reserved offsets ignore it (R39). -/
def writeLoc (l : Loc) (v : Word32) (s : State) : State :=
  match l with
  | .reg r => writeHostReg r v s
  | .wWord i j => s.setW i (setWordOf (s.getW i) j v)
  | .pWord i c j => s.setP i ((s.getP i).setCoord c (setWordOf ((s.getP i).coord c) j v))
  | .dmem a => s.memWrite a (laneBytes v)
  | .reserved => s

/-- A host write (R49, R50, R40). -/
def hostWrite (off : BitVec 16) (size : Nat) (v : Word32) (s : State) : State :=
  if accessOk off size then
    (if s.isBusy && (locate off).gated then ignoreWrite s else writeLoc (locate off) v s).respond (.okay none)
  else s.respond (.error none)

/-- One host access. -/
def hostAccess (a : Access) (s : State) : Host.Outcome State Fault Refusal :=
  match a with
  | .read off size => hostRead off size s
  | .write off size v => .next (hostWrite off size v s)

end Machine
end Sys2Proof
end

