-- ==== Sys2Proof/Machine/Turn.lean ====
section
/-! DEFINITION. Who acts in a step (10_state.md R23, 20_memory.md R64), the engine's turn (40_control.md R82), and
the command the engine runs next. -/

namespace Sys2Proof
namespace Machine

/-- The step is counted and its event taken from the inputs. -/
def State.advance (s : State) : State := { s with tick := s.tick + 1, inputs := s.inputs.tail }

/-- A turn of the engine: idle, it waits (70_reset_and_hazards.md R166); busy, it decodes the command word, and
runs the command to completion or raises ERR_ILLEGAL (R82). -/
def engineTurn (s : State) : Host.Outcome State Fault Refusal :=
  match s.engine with
  | .idle => .next s
  | .busy c =>
    match decode c with
    | .error _ => fail .illegal s
    | .ok i => exec i s

/-- The event at the head of the inputs; with none left the engine has its turns (R86). -/
def nextEvent (s : State) : Event := s.inputs.headD .engine

/-- One event. -/
def takeEvent (e : Event) (s : State) : Host.Outcome State Fault Refusal :=
  match e with
  | .access a => hostAccess a s
  | .engine => engineTurn s
  | .powerOn => .next (powerOnReset s)

/-- The state that a host write of the word to CMD and an accepted START leave, with the engine's turn next. -/
def loadCommand (w : Word32) (s : State) : State :=
  { acceptStart { s with cmd := w } with inputs := .engine :: s.inputs }

end Machine
end Sys2Proof
end

