-- ==== Sys2Proof/Machine/Step.lean ====
section
/-! DEFINITION. The one step function, and the placing of an instruction for its next step. -/

namespace Sys2Proof
namespace Machine

/-- One step: the event at the head of the inputs, or the engine's turn when there is none (log 1). -/
def step (s : State) : Host.Outcome State Fault Refusal := takeEvent (nextEvent s) s.advance

/-- `s` with the command word `w` written to CMD and started, so that the very next step runs it (log 8). -/
def State.withFetchWord (s : State) (nbits w : Nat) : State := loadCommand (BitVec.ofNat 32 (w % 2 ^ nbits)) s

end Machine
end Sys2Proof
end

