-- ==== Sys2Proof/Machine/HostSeq.lean ====
section
/-! DEFINITION. The host sequences of 30_encoding.md R79, as events for the inputs, and the assembly text of a
command (R77). -/

namespace Sys2Proof
namespace Machine

/-! ### Host sequences (R79) -/

/-- `WR off, v`. -/
def wr (off : Nat) (v : Word32) : Event := .access (.write (BitVec.ofNat 16 off) 4 v)

/-- `RD off -> name`. -/
def rd (off : Nat) : Event := .access (.read (BitVec.ofNat 16 off) 4)

/-- Eight `WR` of a 256-bit value from an offset up, the least significant word first. -/
def wrWide (off : Nat) (v : U256) : List Event :=
  (List.finRange 8).map fun j => wr (off + 4 * j.val) (wordOf v j)

/-- `WRW wI, v`. -/
def wrw (i : WReg) (v : U256) : List Event := wrWide (0x100 + 32 * i.val) v

/-- `WRP pI, (X, Y, Z)`. -/
def wrp (i : PReg) (t : Triple) : List Event :=
  wrWide (0x300 + 96 * i.val) t.x ++ wrWide (0x300 + 96 * i.val + 32) t.y ++ wrWide (0x300 + 96 * i.val + 64) t.z

/-- The bytes the host writes to word q of the DMEM window so that DMEM[a..a + len(s)) holds s: bytes of s
inside, the bytes read back (`old`) outside. -/
def mergedByte (old : Nat → Byte) (a : Nat) (s : List Byte) (i : Nat) : Byte :=
  if a ≤ i then (s[i - a]?).getD (old i) else old i

/-- `WRM a, s`, where `old` holds the bytes read back for a partial first or last word. -/
def wrm (old : Nat → Byte) (a : Nat) (s : List Byte) : List Event :=
  (List.range ((a + s.length + 3) / 4 - a / 4)).map fun k =>
    let q := 4 * (a / 4 + k)
    wr (0x1000 + q)
      (laneWord (mergedByte old a s q) (mergedByte old a s (q + 1)) (mergedByte old a s (q + 2))
        (mergedByte old a s (q + 3)))

/-- `RUN <command>`: write CMD, write START, and poll STATUS; the engine's turn comes before the `polls`-th
poll, which then sees BUSY = 0. `irqen` is the form written `WR 0x004, 0x5`. -/
def run (w : Word32) (irqen : Bool) (polls : Nat) : List Event :=
  [wr 0x008 w, wr 0x004 (if irqen then 5 else 1)] ++ List.replicate polls (rd 0x00C) ++ [.engine, rd 0x00C]

/-! ### Assembly text (R77) -/

/-- `w0` to `w15`. -/
def wName (i : WReg) : String := "w" ++ toString i.val
/-- `p0` to `p7`. -/
def pName (i : PReg) : String := "p" ++ toString i.val
/-- The operands of a line, separated by commas. -/
def operands (l : List String) : String := String.intercalate ", " l
/-- The suffix of the M flag. -/
def modulusSuffix : Modulus → String
  | .p => ""
  | .n => ".N"
/-- The suffix of the T flag of ENC and DEC. -/
def modeSuffix : CipherMode → String
  | .c1c3c2 => ""
  | .c1c2c3 => ".C1C2C3"
/-- The name of a constant after `#` (R77). -/
def constName : CurveConst → String
  | .p => "#P"
  | .a => "#A"
  | .b => "#B"
  | .n => "#N"
  | .gx => "#GX"
  | .gy => "#GY"
  | .zero => "#ZERO"
  | .one => "#ONE"
/-- The suffix of H and I. -/
def digestSuffix (h i : Bool) : String := if h then ".H" else if i then ".ID" else ""

/-- The assembly line of a command (R77). -/
def assembly : Instr → String
  | .nop => "NOP"
  | .madd d a b m => "MADD" ++ modulusSuffix m ++ " " ++ operands [wName d, wName a, wName b]
  | .msub d a b m => "MSUB" ++ modulusSuffix m ++ " " ++ operands [wName d, wName a, wName b]
  | .mmul d a b m => "MMUL" ++ modulusSuffix m ++ " " ++ operands [wName d, wName a, wName b]
  | .minv d a m => "MINV" ++ modulusSuffix m ++ " " ++ operands [wName d, wName a]
  | .msqrt d a => "MSQRT " ++ operands [wName d, wName a]
  | .mov d a => "MOV " ++ operands [wName d, wName a]
  | .ldc d c => "LDC " ++ operands [wName d, constName c]
  | .padd d a b => "PADD " ++ operands [pName d, pName a, pName b]
  | .pdbl d a => "PDBL " ++ operands [pName d, pName a]
  | .pmul d a k => "PMUL " ++ operands [pName d, pName a, wName k]
  | .pnorm d a => "PNORM " ++ operands [pName d, pName a]
  | .pldg d => "PLDG " ++ pName d
  | .pchk a => "PCHK " ++ pName a
  | .peq a b => "PEQ " ++ operands [pName a, pName b]
  | .pcomp d a => "PCOMP " ++ operands [wName d, pName a]
  | .pdcmp d x t => "PDCMP " ++ operands [pName d, wName x, if t then "#1" else "#0"]
  | .keygen d q => "KEYGEN " ++ operands [wName d, pName q]
  | .keychk a => "KEYCHK " ++ pName a
  | .hash => "HASH"
  | .kdf => "KDF"
  | .enc key t => "ENC" ++ modeSuffix t ++ " " ++ pName key
  | .dec key t => "DEC" ++ modeSuffix t ++ " " ++ wName key
  | .sign rs key e h i =>
    "SIGN" ++ digestSuffix h i ++ " " ++ operands ([wName rs, wName key] ++ if h then [wName e] else [])
  | .verify rs e key h i u =>
    "VERIFY" ++ digestSuffix h i ++ (if u then ".TAB" else "") ++ " "
      ++ operands ([wName rs] ++ (if h then [wName e] else []) ++ if u then [] else [pName key])
  | .precomp key => "PRECOMP " ++ pName key

end Machine
end Sys2Proof
end

