-- ==== Sys2Proof/Safety.lean ====
section
/-! DEFINITION. What counts as a good state and a safe step, in the terms the claims use. -/

namespace Sys2Proof
namespace Machine

/-- The step or the command answers a next state: no fault, no refusal. -/
def Completes (o : Host.Outcome State Fault Refusal) : Prop := ∃ t, o = .next t

/-! ### What a command writes and leaves -/

/-- The destinations of a command: W and P registers, RES, OUTLEN, the precompute table, a DMEM region given by its
address and length, the RNG port's queue. -/
structure Writes where
  w : List WReg := []
  p : List PReg := []
  res : Bool := false
  outlen : Bool := false
  tab : Bool := false
  mem : Nat × Nat := (0, 0)
  rng : Bool := false

/-- A command changes no other destination, every DMEM byte outside the region reads as before (20_memory.md R58),
and no command writes CTRL, CMD, WIGN (10_state.md R34, R41), the address and length registers (R37) or the model's
own fields. -/
def OnlyWrites (x : Writes) (s t : State) : Prop :=
  (∀ j, j ∉ x.w → t.getW j = s.getW j)
    ∧ (∀ j, j ∉ x.p → t.getP j = s.getP j)
    ∧ (x.res = false → t.res = s.res)
    ∧ (x.outlen = false → t.outlen = s.outlen)
    ∧ (x.tab = false → t.tabKey = s.tabKey ∧ t.tabv = s.tabv)
    ∧ (∀ a, a < x.mem.1 ∨ x.mem.1 + x.mem.2 ≤ a → t.dmem.read? a = s.dmem.read? a)
    ∧ (x.rng = false → t.rng = s.rng)
    ∧ t.irqen = s.irqen ∧ t.cmd = s.cmd ∧ t.wign = s.wign
    ∧ t.src = s.src ∧ t.slen = s.slen ∧ t.dst = s.dst ∧ t.dlen = s.dlen ∧ t.idaddr = s.idaddr ∧ t.idlen = s.idlen
    ∧ t.inputs = s.inputs ∧ t.resp = s.resp ∧ t.tick = s.tick

/-- The command ended without error (40_control.md R85): DONE 1, BUSY 0, ERR and ERRCODE as they were. -/
def Succeeded (s t : State) : Prop :=
  t.engine = .idle ∧ t.done = true ∧ t.draws = 0 ∧ t.err = s.err ∧ t.errcode = s.errcode

/-- The command ended with error code `c` (60_exceptions.md R152): ERRCODE, ERR 1, DONE 1, BUSY 0. -/
def Failed (c : Byte) (t : State) : Prop :=
  t.engine = .idle ∧ t.done = true ∧ t.draws = 0 ∧ t.err = true ∧ t.errcode = c

/-- The command answers a next state that ended without error and has `Q`, and it wrote nothing but `x`. -/
def EndsWell (o : Host.Outcome State Fault Refusal) (s : State) (x : Writes) (Q : State → Prop) : Prop :=
  ∃ t, o = .next t ∧ Succeeded s t ∧ OnlyWrites x s t ∧ Q t

/-- The command answers a next state that ended with error code `c`, and it wrote nothing but `x`. -/
def EndsInError (o : Host.Outcome State Fault Refusal) (s : State) (c : Byte) (x : Writes) (Q : State → Prop) : Prop :=
  ∃ t, o = .next t ∧ Failed c t ∧ OnlyWrites x s t ∧ Q t

/-! ### The rules' own terms, written without the model's operations -/

/-- The legal words of 30_encoding.md R74, row by row from the bits of the word: RSV is 0, a `0` field or a flag the
row does not list is 0, bit 3 of a `p` or `c` field is 0, bit 0 of a `w-even` field is 0. -/
def LegalWord (w : Word32) : Prop :=
  let opc := w.extractLsb' 0 8
  let fa := w.extractLsb' 8 4
  let fb := w.extractLsb' 12 4
  let fc := w.extractLsb' 16 4
  let fd := w.extractLsb' 20 4
  let m := w.getLsbD 24
  let t := w.getLsbD 25
  let h := w.getLsbD 26
  let i := w.getLsbD 27
  let u := w.getLsbD 28
  w.extractLsb' 29 3 = 0 ∧
    (opc = 0x00 ∧ fa = 0 ∧ fb = 0 ∧ fc = 0 ∧ fd = 0 ∧ !m ∧ !t ∧ !h ∧ !i ∧ !u
      ∨ (opc = 0x10 ∨ opc = 0x11 ∨ opc = 0x12) ∧ fd = 0 ∧ !t ∧ !h ∧ !i ∧ !u
      ∨ opc = 0x13 ∧ fc = 0 ∧ fd = 0 ∧ !t ∧ !h ∧ !i ∧ !u
      ∨ (opc = 0x14 ∨ opc = 0x18) ∧ fc = 0 ∧ fd = 0 ∧ !m ∧ !t ∧ !h ∧ !i ∧ !u
      ∨ opc = 0x19 ∧ !fb.getLsbD 3 ∧ fc = 0 ∧ fd = 0 ∧ !m ∧ !t ∧ !h ∧ !i ∧ !u
      ∨ opc = 0x20 ∧ !fa.getLsbD 3 ∧ !fb.getLsbD 3 ∧ !fc.getLsbD 3 ∧ fd = 0 ∧ !m ∧ !t ∧ !h ∧ !i ∧ !u
      ∨ (opc = 0x21 ∨ opc = 0x23) ∧ !fa.getLsbD 3 ∧ !fb.getLsbD 3 ∧ fc = 0 ∧ fd = 0 ∧ !m ∧ !t ∧ !h ∧ !i ∧ !u
      ∨ opc = 0x22 ∧ !fa.getLsbD 3 ∧ !fb.getLsbD 3 ∧ fd = 0 ∧ !m ∧ !t ∧ !h ∧ !i ∧ !u
      ∨ opc = 0x24 ∧ !fa.getLsbD 3 ∧ fb = 0 ∧ fc = 0 ∧ fd = 0 ∧ !m ∧ !t ∧ !h ∧ !i ∧ !u
      ∨ (opc = 0x25 ∨ opc = 0x41 ∨ opc = 0x72) ∧ fa = 0 ∧ !fb.getLsbD 3 ∧ fc = 0 ∧ fd = 0 ∧ !m ∧ !t ∧ !h ∧ !i ∧ !u
      ∨ opc = 0x26 ∧ fa = 0 ∧ !fb.getLsbD 3 ∧ !fc.getLsbD 3 ∧ fd = 0 ∧ !m ∧ !t ∧ !h ∧ !i ∧ !u
      ∨ (opc = 0x30 ∨ opc = 0x40) ∧ !fb.getLsbD 3 ∧ fc = 0 ∧ fd = 0 ∧ !m ∧ !t ∧ !h ∧ !i ∧ !u
      ∨ opc = 0x31 ∧ !fa.getLsbD 3 ∧ fc = 0 ∧ fd = 0 ∧ !m ∧ !h ∧ !i ∧ !u
      ∨ (opc = 0x50 ∨ opc = 0x51) ∧ fa = 0 ∧ fb = 0 ∧ fc = 0 ∧ fd = 0 ∧ !m ∧ !t ∧ !h ∧ !i ∧ !u
      ∨ opc = 0x60 ∧ fa = 0 ∧ !fb.getLsbD 3 ∧ fc = 0 ∧ fd = 0 ∧ !m ∧ !h ∧ !i ∧ !u
      ∨ opc = 0x61 ∧ fa = 0 ∧ fc = 0 ∧ fd = 0 ∧ !m ∧ !h ∧ !i ∧ !u
      ∨ opc = 0x70 ∧ !fa.getLsbD 0 ∧ fd = 0 ∧ !m ∧ !t ∧ !u ∧ (h = false → fc = 0) ∧ (h = true → i = false)
      ∨ opc = 0x71 ∧ fa = 0 ∧ !fb.getLsbD 0 ∧ !fd.getLsbD 3 ∧ !m ∧ !t ∧ (h = false → fc = 0)
          ∧ (h = true → i = false) ∧ (u = true → fd = 0))

/-- The word has these fields and flags, every bit of it (30_encoding.md R70). -/
def HasFields (w : Word32) (opc : Byte) (fa fb fc fd : Nat) (m t h i u : Bool) : Prop :=
  w.extractLsb' 0 8 = opc ∧ (w.extractLsb' 8 4).toNat = fa ∧ (w.extractLsb' 12 4).toNat = fb
    ∧ (w.extractLsb' 16 4).toNat = fc ∧ (w.extractLsb' 20 4).toNat = fd ∧ w.getLsbD 24 = m ∧ w.getLsbD 25 = t
    ∧ w.getLsbD 26 = h ∧ w.getLsbD 27 = i ∧ w.getLsbD 28 = u ∧ w.extractLsb' 29 3 = 0

/-- The word spells the instruction by R74's row for it, with the flags of R73. -/
def Spells (w : Word32) : Instr → Prop
  | .nop => HasFields w 0x00 0 0 0 0 false false false false false
  | .madd d a b m => HasFields w 0x10 d a b 0 (m == .n) false false false false
  | .msub d a b m => HasFields w 0x11 d a b 0 (m == .n) false false false false
  | .mmul d a b m => HasFields w 0x12 d a b 0 (m == .n) false false false false
  | .minv d a m => HasFields w 0x13 d a 0 0 (m == .n) false false false false
  | .msqrt d a => HasFields w 0x14 d a 0 0 false false false false false
  | .mov d a => HasFields w 0x18 d a 0 0 false false false false false
  | .ldc d .p => HasFields w 0x19 d 0 0 0 false false false false false
  | .ldc d .a => HasFields w 0x19 d 1 0 0 false false false false false
  | .ldc d .b => HasFields w 0x19 d 2 0 0 false false false false false
  | .ldc d .n => HasFields w 0x19 d 3 0 0 false false false false false
  | .ldc d .gx => HasFields w 0x19 d 4 0 0 false false false false false
  | .ldc d .gy => HasFields w 0x19 d 5 0 0 false false false false false
  | .ldc d .zero => HasFields w 0x19 d 6 0 0 false false false false false
  | .ldc d .one => HasFields w 0x19 d 7 0 0 false false false false false
  | .padd d a b => HasFields w 0x20 d a b 0 false false false false false
  | .pdbl d a => HasFields w 0x21 d a 0 0 false false false false false
  | .pmul d a k => HasFields w 0x22 d a k 0 false false false false false
  | .pnorm d a => HasFields w 0x23 d a 0 0 false false false false false
  | .pldg d => HasFields w 0x24 d 0 0 0 false false false false false
  | .pchk a => HasFields w 0x25 0 a 0 0 false false false false false
  | .peq a b => HasFields w 0x26 0 a b 0 false false false false false
  | .pcomp d a => HasFields w 0x30 d a 0 0 false false false false false
  | .pdcmp d x t => HasFields w 0x31 d x 0 0 false t false false false
  | .keygen d q => HasFields w 0x40 d q 0 0 false false false false false
  | .keychk a => HasFields w 0x41 0 a 0 0 false false false false false
  | .hash => HasFields w 0x50 0 0 0 0 false false false false false
  | .kdf => HasFields w 0x51 0 0 0 0 false false false false false
  | .enc key t => HasFields w 0x60 0 key 0 0 false (t == .c1c2c3) false false false
  | .dec key t => HasFields w 0x61 0 key 0 0 false (t == .c1c2c3) false false false
  | .sign rs key e h i => HasFields w 0x70 rs key e 0 false false h i false
  | .verify rs e key h i u => HasFields w 0x71 0 rs e key false false h i u
  | .precomp key => HasFields w 0x72 0 key 0 0 false false false false false

/-- The engine acts next: no event is queued, or its turn is (log 1). -/
def State.engineNext (s : State) : Prop := s.inputs = [] ∨ s.inputs.head? = some .engine

/-- The host's write of `v` at an aligned offset is next. -/
def State.writeNext (s : State) (off : Nat) (v : Word32) : Prop := s.inputs.head? = some (wr off v)

/-- The host's read at an aligned offset is next. -/
def State.readNext (s : State) (off : Nat) : Prop := s.inputs.head? = some (rd off)

/-- `k` steps, stopping at the first fault or refusal: `Host.Core.run` of this machine. -/
def steps : Nat → State → Host.Outcome State Fault Refusal
  | 0, s => .next s
  | k + 1, s =>
    match step s with
    | .next t => steps k t
    | .fault r => .fault r
    | .refused r => .refused r

/-- The state after a step in which the host got `r` and nothing else changed. -/
def State.answered (s : State) (r : Resp) : State :=
  { s with resp := some r, tick := s.tick + 1, inputs := s.inputs.tail }

/-- The values of 10_state.md R46, ID apart. -/
def AtReset (t : State) : Prop :=
  t.engine = .idle ∧ t.irqen = false ∧ t.cmd = 0
    ∧ t.done = false ∧ t.err = false ∧ t.tabv = false ∧ t.wign = false ∧ t.errcode = 0
    ∧ t.res = 0 ∧ t.src = 0 ∧ t.slen = 0 ∧ t.dst = 0 ∧ t.dlen = 0 ∧ t.idaddr = 0 ∧ t.idlen = 0 ∧ t.outlen = 0
    ∧ (∀ i, t.getW i = 0) ∧ (∀ i, t.getP i = ⟨0, 0, 0⟩) ∧ t.tabKey = ⟨0, 0⟩ ∧ t.draws = 0

/-- The output region of a command: its address and length (R165, 45_hash_kdf.md, 46_ecies.md). -/
def regionWritten (i : Instr) (s : State) : Nat × Nat :=
  match i with
  | .hash => (s.dst.toNat, 32)
  | .kdf => (s.dst.toNat, s.dlen.toNat)
  | .enc _ _ => (s.dst.toNat, 97 + s.slen.toNat)
  | .dec _ _ => (s.dst.toNat, s.slen.toNat - 97)
  | _ => (0, 0)

/-- y² − x³ − a·x − b is 0 mod p (42_point.md R106). -/
def CurveEq (x y : Nat) : Prop :=
  ((y : Int) ^ 2 - (x : Int) ^ 3 - Config.a * x - Config.b) % Config.p = 0

/-- The triple is the affine point on the line of slope `l` through (x1, y1) whose abscissa is l² − x1 − x2: the last
two lines of R107 and R108. -/
def OnLine (l x1 y1 x2 : Nat) (t : Triple) : Prop :=
  t.z = 1 ∧ t.x.toNat < Config.p ∧ t.y.toNat < Config.p
    ∧ ((t.x.toNat : Int) - (l * l - x1 - x2)) % Config.p = 0
    ∧ ((t.y.toNat : Int) - (l * (x1 - t.x.toNat) - y1)) % Config.p = 0

/-- The slope of the tangent at (x, y) (R108): l·2·y = 3·x² + a mod p. -/
def TangentSlope (l x y : Nat) : Prop := ((l : Int) * (2 * y) - (3 * x * x + Config.a)) % Config.p = 0

/-- The slope of the chord (R107): l·(x2 − x1) = y2 − y1 mod p. -/
def ChordSlope (l x1 y1 x2 y2 : Nat) : Prop := ((l : Int) * (x2 - x1) - (y2 - y1)) % Config.p = 0

/-- A public key (44_keys.md R123). -/
def GoodKey (t : Triple) : Prop :=
  t.z = 1 ∧ t.x.toNat < Config.p ∧ t.y.toNat < Config.p ∧ CurveEq t.x.toNat t.y.toNat

/-- The 32 big-endian bytes of a 256-bit value (20_memory.md R60). -/
def be256 (v : U256) : List Byte := (List.range 32).map fun i => v.extractLsb' (8 * (31 - i)) 8

/-- The 4 big-endian bytes of a KDF counter (R61). -/
def be32 (c : Word32) : List Byte := (List.range 4).map fun i => c.extractLsb' (8 * (3 - i)) 8

/-- Byte i of the hash port's answer (10_state.md R24). -/
def digestByte (m : List Byte) (i : Nat) : Byte := (Config.hashWord m).extractLsb' (8 * (31 - i)) 8

/-- Byte i of KDF's output (45_hash_kdf.md R128): byte i mod 32 of the digest of counter i div 32 + 1. -/
def maskByte (z : List Byte) (i : Nat) : Byte := digestByte (z ++ be32 (BitVec.ofNat 32 (i / 32 + 1))) (i % 32)

/-- Region (a, l) is in bounds (20_memory.md R57). -/
def InDmem (a l : Nat) : Prop := a + l ≤ 4096

/-- Two regions overlap (R57). -/
def Overlaps (a1 l1 a2 l2 : Nat) : Prop := 0 < l1 ∧ 0 < l2 ∧ a1 < a2 + l2 ∧ a2 < a1 + l1

/-- The ciphertext of 46_ecies.md R132 with C1 = (x1, y1), the shared point (x2, y2) and the message. -/
def cipherText (t : CipherMode) (x1 y1 x2 y2 : U256) (m : List Byte) : List Byte :=
  let c1 := 0x04 :: (be256 x1 ++ be256 y1)
  let c2 := (List.range m.length).map fun i => m.getD i 0 ^^^ maskByte (be256 x2 ++ be256 y2) i
  let c3 := (List.range 32).map (digestByte (be256 x2 ++ m ++ be256 y2))
  match t with
  | .c1c3c2 => c1 ++ c3 ++ c2
  | .c1c2c3 => c1 ++ c2 ++ c3

/-- The identity a SIGN or VERIFY with H = 0 reads (47_sm2sig.md R140). -/
def identityOf (i : Bool) (s : State) : List Byte := if i then Config.defId else s.memRead s.idaddr.toNat s.idlen.toNat

/-- The input of ZA (R139): the identity's length in bits in two bytes, the identity, a, b, G and the key. -/
def zaInput (ident : List Byte) (x y : U256) : List Byte :=
  [BitVec.ofNat 8 (8 * ident.length / 256), BitVec.ofNat 8 (8 * ident.length)] ++ ident
    ++ be256 (BitVec.ofNat 256 Config.a) ++ be256 (BitVec.ofNat 256 Config.b)
    ++ be256 (BitVec.ofNat 256 Config.gx) ++ be256 (BitVec.ofNat 256 Config.gy) ++ be256 x ++ be256 y

/-- The digest e of SIGN and VERIFY (R140) for the key (x, y). -/
def digestOf (e : WReg) (h i : Bool) (x y : U256) (s : State) : Nat :=
  if h then (s.getW e).toNat
  else
    (Config.hashWord
      (be256 (Config.hashWord (zaInput (identityOf i s) x y)) ++ s.memRead s.src.toNat s.slen.toNat)).toNat

/-- The region checks of SIGN and VERIFY pass (R141): none with H = 1. -/
def SigRegions (h i : Bool) (s : State) : Prop :=
  h = true ∨ InDmem s.src.toNat s.slen.toNat ∧ (i = true ∨ s.idlen.toNat ≤ 8191 ∧ InDmem s.idaddr.toNat s.idlen.toNat)

/-- The regions SIGN and VERIFY read give bytes (R140, 20_memory.md R56). -/
def SigReadable (h i : Bool) (s : State) : Prop :=
  h = true ∨ s.readable s.src.toNat s.slen.toNat = true ∧ (i = true ∨ s.readable s.idaddr.toNat s.idlen.toNat = true)

/-- Request number `j` is the first of at most RETRY_MAX = 64 whose word is good (40_control.md R87). -/
def FirstGood (good : U256 → Prop) (s : State) (j : Nat) : Prop :=
  j < 64 ∧ good (s.rngAt j) ∧ ∀ k < j, ¬ good (s.rngAt k)

/-- None of RETRY_MAX = 64 requests has a good word. -/
def NoneGood (good : U256 → Prop) (s : State) : Prop := ∀ j < 64, ¬ good (s.rngAt j)

/-- The nonce is good for ENC (46_ecies.md R133): in [1, n − 1], S finite, and the mask of a message that is not empty
is not all zero. -/
def encNonce (key : Triple) (mlen : Nat) (v : U256) : Prop :=
  1 ≤ v.toNat ∧ v.toNat ≤ Config.n - 1
    ∧ ∃ x2 y2 : U256, mul v.toNat (.aff key.x.toNat key.y.toNat) = .aff x2.toNat y2.toNat
      ∧ (mlen = 0 ∨ ∃ i < mlen, maskByte (be256 x2 ++ be256 y2) i ≠ 0)

/-- The nonce is good for SIGN with key d and digest e (47_sm2sig.md R142): in [1, n − 1], r ≠ 0, r + k ≠ n, s ≠ 0. -/
def signNonce (d e : Nat) (v : U256) : Prop :=
  1 ≤ v.toNat ∧ v.toNat ≤ Config.n - 1
    ∧ ∃ x1 y1, mul v.toNat basePoint = .aff x1 y1
      ∧ (e + x1) % Config.n ≠ 0 ∧ (e + x1) % Config.n + v.toNat ≠ Config.n
      ∧ ((v.toNat : Int) - ((e + x1) % Config.n : Nat) * d) % Config.n ≠ 0

/-! ### The invariant -/

/-- The sequencer and the flags fit together: while busy, CMD is the running word (10_state.md R40) and DONE and
ERR are 0 (40_control.md R81); ERRCODE is 0 exactly when ERR is 0 and at most 13 (R35, 60_exceptions.md R148). -/
def State.flagsInv (s : State) : Bool :=
  (match s.engine with
    | .idle => true
    | .busy c => s.cmd == c && !s.done && !s.err)
  && (s.err == decide (s.errcode ≠ 0)) && decide (s.errcode.toNat ≤ 13)

/-- The precompute table holds a valid key, or none and (0, 0) (R43, R46, 47_sm2sig.md R144). -/
def State.tableInv (s : State) : Bool :=
  if s.tabv then keyValid ⟨s.tabKey.x, s.tabKey.y, 1⟩ else s.tabKey == ⟨0, 0⟩

/-- RES is one of the values R36 names, OUTLEN counts DMEM bytes (R38), the draw counter does not survive a
command (R44). -/
def State.resultInv (s : State) : Bool :=
  decide (s.res.toNat ≤ 3) && decide (s.outlen.toNat ≤ Config.dmemSize) && decide (s.draws = 0)

/-- DMEM is in its canonical form and has only DMEM addresses (20_memory.md R48). -/
def State.memoryInv (s : State) : Bool := s.dmem.wf && s.dmem.inDmem

/-- The invariant of the block: every step keeps it, whatever the host does. -/
def State.Inv (s : State) : Prop :=
  s.flagsInv = true ∧ s.tableInv = true ∧ s.resultInv = true ∧ s.memoryInv = true

end Machine
end Sys2Proof
end

