-- ==== Sys2Proof/Certificates/Slice0/Obligations.lean ====
section
/-! DEFINITION. The statements for the provers. Each docstring names the rule of spec/ it formalises; a statement of
what a command does says where the command completes, what it writes, and that it writes nothing else. -/

open Sys2Proof Sys2Proof.Machine

/-! ### Encoding (30_encoding.md) -/

/-- No bit of an encoding is dropped: the word of every well-formed instruction decodes to it (R70, R71, R74). -/
def Obligations.DecodeOfEncode : Prop := ∀ i : Instr, WellFormed i → decode (encode i) = .ok i

/-- The map of R74, with R70, R71 and R73: the word of an instruction has the opcode, the fields and the flags of its row,
and a word decodes to a well-formed instruction exactly when it spells it so. Each word spells one instruction (R76). -/
def Obligations.DecodedWordIsEncoding : Prop :=
  ∀ (w : Word32) (i : Instr), decode w = .ok i ↔ WellFormed i ∧ Spells w i

/-- R75 with 40_control.md R82: the legal words are those of R74's table, bit by bit, and the step of an engine that is
busy with an illegal one ends in ERR_ILLEGAL and changes nothing but STATUS. The step's own count and event are the
model's (log 1, log 4). -/
def Obligations.IllegalWords : Prop :=
  (∀ w : Word32, LegalWord w ↔ ∃ i, decode w = .ok i)
    ∧ ∀ (s : State) (w : Word32), s.engineNext → s.engine = .busy w → ¬ LegalWord w →
        EndsInError (step s) { s with tick := s.tick + 1, inputs := s.inputs.tail } 1 {} fun _ => True

/-- R80: the example encodings. -/
def Obligations.ExampleWords : Prop :=
  decode 0x00000000 = .ok .nop
    ∧ decode 0x00021310 = .ok (.madd 3 1 2 .p)
    ∧ decode 0x01054012 = .ok (.mmul 0 4 5 .n)
    ∧ decode 0x00001213 = .ok (.minv 2 1 .p)
    ∧ decode 0x00005719 = .ok (.ldc 7 .gy)
    ∧ decode 0x00010220 = .ok (.padd 2 0 1)
    ∧ decode 0x00090122 = .ok (.pmul 1 0 9)
    ∧ decode 0x02004331 = .ok (.pdcmp 3 4 true)
    ∧ decode 0x02001060 = .ok (.enc 1 .c1c2c3)
    ∧ decode 0x04010270 = .ok (.sign 2 0 1 true false)
    ∧ decode 0x04112071 = .ok (.verify 2 1 1 true false false)
    ∧ decode 0x18004071 = .ok (.verify 4 0 0 false true true)

/-! ### The step -/

/-- The engine's turn of a busy engine is `exec` of the instruction its command word decodes to (40_control.md R82),
after the step is counted and its event taken from the inputs (the model's own, log 1 and log 4). A word placed
by `withFetchWord` (log 8) is run by the very next step. -/
def Obligations.StepRunsDecoded : Prop :=
  (∀ (s : State) (w : Word32) (i : Instr), s.engineNext → s.engine = .busy w → decode w = .ok i →
      step s = exec i { s with tick := s.tick + 1, inputs := s.inputs.tail })
    ∧ ∀ (s : State) (w : Word32) (i : Instr), decode w = .ok i →
        step (s.withFetchWord 32 w.toNat)
          = exec i { s with cmd := w, engine := .busy w, done := false, err := false, errcode := 0, draws := 0,
                            tick := s.tick + 1 }

/-- The idle engine runs nothing: its turn changes no piece of the block's state (40_control.md R81 starts commands;
70_reset_and_hazards.md §1 "It waits for a START"). -/
def Obligations.IdleEngineWaits : Prop :=
  ∀ s : State, s.engineNext → s.engine = .idle → step s = .next { s with tick := s.tick + 1, inputs := s.inputs.tail }

/-- The invariant of the block holds after every step from every state that has it, whatever the host does: the
flags fit the sequencer, TAB_KEY is a valid key when TABV is 1, RES and OUTLEN are in range, DMEM is in its canonical
form inside its addresses. Two of its parts are the model's own: the draw counter is 0 between steps (log 9), and
DMEM's canonical form (log 5). -/
def Obligations.StepKeepsInvariant : Prop := ∀ s t : State, s.Inv → step s = .next t → t.Inv

/-- The state after reset has the invariant. -/
def Obligations.ResetHasInvariant : Prop := State.reset.Inv

/-- R46, R164: what both resets leave; power-on leaves no DMEM byte written, and IRQ low. -/
def Obligations.ResetValues : Prop :=
  AtReset State.reset ∧ (∀ a, State.reset.dmem.read? a = none)
    ∧ (∀ s : State, s.inputs.head? = some .powerOn →
        ∃ t, step s = .next t ∧ AtReset t ∧ irq t = false ∧ (∀ a, t.dmem.read? a = none))
    ∧ (∀ (s : State) (v : Word32), s.writeNext 0x004 v → v.getLsbD 1 = true →
        ∃ t, step s = .next t ∧ AtReset t ∧ irq t = false)
    ∧ ∀ s : State, s.readNext 0x000 → step s = .next (s.answered (.okay (some 0x534D3201)))

/-- R165: the soft reset, idle or busy. A byte outside the output region of the abandoned command keeps its value; a
byte inside is the model's free value (log 7) and nothing is said of it. -/
def Obligations.SoftReset : Prop :=
  ∀ (s : State) (v : Word32), s.writeNext 0x004 v → v.getLsbD 1 = true →
    ∃ t, step s = .next t ∧ AtReset t
      ∧ (s.engine = .idle → t.dmem = s.dmem)
      ∧ (∀ c, s.engine = .busy c → ¬ LegalWord c → t.dmem = s.dmem)
      ∧ ∀ c i, s.engine = .busy c → decode c = .ok i →
          ∀ a, a < (regionWritten i s).1 ∨ (regionWritten i s).1 + (regionWritten i s).2 ≤ a →
            t.dmem.read? a = s.dmem.read? a

/-! ### The host registers (10_state.md) -/

/-- R33 and 40_control.md R81: CTRL reads IRQEN in bit 2 and 0 elsewhere; a write acts in every state; SRST wins over
START and IRQEN of the same write; otherwise IRQEN takes bit 2, and START is accepted when idle, whatever DONE and ERR
hold, and ignored with WIGN when busy. -/
def Obligations.CtrlRegister : Prop :=
  ∀ s : State,
    (s.readNext 0x004 → step s = .next (s.answered (.okay (some (if s.irqen then 4 else 0)))))
      ∧ ∀ v : Word32, s.writeNext 0x004 v →
          (v.getLsbD 1 = true → ∃ t, step s = .next t ∧ AtReset t)
            ∧ (v.getLsbD 1 = false → v.getLsbD 0 = false →
                step s = .next ({ s with irqen := v.getLsbD 2 }.answered (.okay none)))
            ∧ (v.getLsbD 1 = false → v.getLsbD 0 = true → s.engine = .idle →
                step s = .next ({ s with irqen := v.getLsbD 2, done := false, err := false, errcode := 0, draws := 0,
                                         engine := .busy s.cmd }.answered (.okay none)))
            ∧ ∀ c, v.getLsbD 1 = false → v.getLsbD 0 = true → s.engine = .busy c →
                step s = .next ({ s with irqen := v.getLsbD 2, wign := true }.answered (.okay none))

/-- R35: the fields a read of STATUS gives, and a write: 1 clears DONE, ERR with ERRCODE, and WIGN, 0 leaves them, in
every state; no bit can be set and BUSY and TABV cannot be changed. -/
def Obligations.StatusRegister : Prop :=
  ∀ s : State,
    (s.readNext 0x00C →
      ∃ v : Word32, step s = .next (s.answered (.okay (some v)))
        ∧ (v.getLsbD 0 = true ↔ ∃ c, s.engine = .busy c)
        ∧ v.getLsbD 1 = s.done ∧ v.getLsbD 2 = s.err ∧ v.getLsbD 3 = s.tabv ∧ v.getLsbD 4 = s.wign
        ∧ v.extractLsb' 5 3 = 0 ∧ v.extractLsb' 8 8 = s.errcode ∧ v.extractLsb' 16 16 = 0)
      ∧ ∀ v : Word32, s.writeNext 0x00C v →
          step s
            = .next ({ s with done := s.done && !v.getLsbD 1
                              err := s.err && !v.getLsbD 2
                              errcode := if v.getLsbD 2 then 0 else s.errcode
                              wign := s.wign && !v.getLsbD 4 }.answered (.okay none))

/-- R32, R34, R36, R37, R38, R39. Idle: CMD, SRC, SLEN, DST, DLEN, IDADDR and IDLEN take and give back every 32-bit
value. Idle or busy: ID, RES, OUTLEN and the reserved offsets ignore writes, WIGN included, and reserved offsets read
0. -/
def Obligations.HostRegisters : Prop :=
  ∀ s : State,
    (∀ v : Word32, s.engine = .idle →
      (s.writeNext 0x008 v → step s = .next ({ s with cmd := v }.answered (.okay none)))
        ∧ (s.writeNext 0x014 v → step s = .next ({ s with src := v }.answered (.okay none)))
        ∧ (s.writeNext 0x018 v → step s = .next ({ s with slen := v }.answered (.okay none)))
        ∧ (s.writeNext 0x01C v → step s = .next ({ s with dst := v }.answered (.okay none)))
        ∧ (s.writeNext 0x020 v → step s = .next ({ s with dlen := v }.answered (.okay none)))
        ∧ (s.writeNext 0x024 v → step s = .next ({ s with idaddr := v }.answered (.okay none)))
        ∧ (s.writeNext 0x028 v → step s = .next ({ s with idlen := v }.answered (.okay none))))
      ∧ (∀ (off : Nat) (v : Word32),
          (off, v) ∈ [(0x000, 0x534D3201), (0x008, s.cmd), (0x010, s.res), (0x014, s.src), (0x018, s.slen),
            (0x01C, s.dst), (0x020, s.dlen), (0x024, s.idaddr), (0x028, s.idlen), (0x02C, s.outlen)] →
          s.engine = .idle → s.readNext off → step s = .next (s.answered (.okay (some v))))
      ∧ (∀ off ∈ [0x000, 0x010, 0x02C], ∀ v, s.writeNext off v → step s = .next (s.answered (.okay none)))
      ∧ ∀ off : Nat, off % 4 = 0 →
          0x030 ≤ off ∧ off < 0x100 ∨ 0x600 ≤ off ∧ off < 0x1000 ∨ 0x2000 ≤ off ∧ off < 0x10000 →
          (s.readNext off → step s = .next (s.answered (.okay (some 0))))
            ∧ ∀ v, s.writeNext off v → step s = .next (s.answered (.okay none))

/-- R40: while busy, a write to CMD, SRC to IDLEN, W, P or DMEM is ignored and sets WIGN; a read of RES, OUTLEN, W, P
or DMEM gives 0; the other registers read their values. -/
def Obligations.BusyGate : Prop :=
  ∀ (s : State) (c : Word32), s.engine = .busy c →
    (∀ (off : Nat) (v : Word32), off % 4 = 0 →
      off = 0x008 ∨ 0x014 ≤ off ∧ off ≤ 0x028 ∨ 0x100 ≤ off ∧ off < 0x600 ∨ 0x1000 ≤ off ∧ off < 0x2000 →
      s.writeNext off v → step s = .next ({ s with wign := true }.answered (.okay none)))
      ∧ (∀ off : Nat, off % 4 = 0 →
          off = 0x010 ∨ off = 0x02C ∨ 0x100 ≤ off ∧ off < 0x600 ∨ 0x1000 ≤ off ∧ off < 0x2000 →
          s.readNext off → step s = .next (s.answered (.okay (some 0))))
      ∧ ∀ (off : Nat) (v : Word32),
          (off, v) ∈ [(0x000, 0x534D3201), (0x004, if s.irqen then 4 else 0), (0x008, s.cmd), (0x00C, statusWord s),
            (0x014, s.src), (0x018, s.slen), (0x01C, s.dst), (0x020, s.dlen), (0x024, s.idaddr), (0x028, s.idlen)] →
          s.readNext off → step s = .next (s.answered (.okay (some v)))

/-- R40's last sentence and R42: two busy blocks that differ in the command in flight, W, P, DMEM, RES, OUTLEN,
TAB_KEY or the draw counter give the host the same answer to every read. -/
def Obligations.BusyReadsHideSecrets : Prop :=
  ∀ (s1 s2 : State) (c1 c2 : Word32) (off : BitVec 16) (size : Nat),
    s1.engine = .busy c1 → s2.engine = .busy c2 →
    s1.inputs.head? = some (.access (.read off size)) → s2.inputs.head? = some (.access (.read off size)) →
    s1.irqen = s2.irqen → s1.cmd = s2.cmd → s1.done = s2.done → s1.err = s2.err → s1.errcode = s2.errcode →
    s1.tabv = s2.tabv → s1.wign = s2.wign → s1.src = s2.src → s1.slen = s2.slen → s1.dst = s2.dst →
    s1.dlen = s2.dlen → s1.idaddr = s2.idaddr → s1.idlen = s2.idlen →
    ∃ t1 t2, step s1 = .next t1 ∧ step s2 = .next t2 ∧ t1.resp = t2.resp

/-- 20_memory.md R55, first sentence: a read, aligned or not, idle or busy, changes nothing; the host gets an answer. -/
def Obligations.ReadsHaveNoSideEffect : Prop :=
  ∀ (s t : State) (off : BitVec 16) (size : Nat),
    s.inputs.head? = some (.access (.read off size)) → step s = .next t → ∃ r, t = s.answered r

/-- 20_memory.md R50: a misaligned access, or one of another size, gets ERROR, reads 0 and changes no state; an aligned
one of 4 bytes gets OKAY at every offset, but for the read of an unwritten DMEM byte where R56 has the model fault.The
sizes an access can carry (log 16) and the fault's name (log 5) are the model's choices. -/
def Obligations.BusErrors : Prop :=
  ∀ (s : State) (off : BitVec 16) (size : Nat),
    (off.toNat % 4 ≠ 0 ∨ size ≠ 4 →
      (s.inputs.head? = some (.access (.read off size)) → step s = .next (s.answered (.error (some 0))))
        ∧ ∀ v, s.inputs.head? = some (.access (.write off size v)) → step s = .next (s.answered (.error none)))
      ∧ (off.toNat % 4 = 0 → size = 4 →
          (∀ v, s.inputs.head? = some (.access (.write off size v)) →
            ∃ t, step s = .next t ∧ t.resp = some (.okay none))
          ∧ (s.inputs.head? = some (.access (.read off size)) →
            (∃ v, step s = .next (s.answered (.okay (some v))))
              ∨ step s = .fault .dmemUnwritten ∧ Config.dmemUninit = .fault ∧ s.engine = .idle
                ∧ 0x1000 ≤ off.toNat ∧ off.toNat < 0x2000 ∧ ∃ i < 4, s.dmem.read? (off.toNat - 0x1000 + i) = none))

/-! ### The windows -/

/-- R28: the word at 0x100 + 32·i + 4·j holds W[i][32·j + 31 : 32·j]; a write changes that word and no other. -/
def Obligations.WWindow : Prop :=
  ∀ (s : State) (i : WReg) (j : Fin 8), s.engine = .idle →
    (s.readNext (0x100 + 32 * i.val + 4 * j.val) →
      step s = .next (s.answered (.okay (some ((s.getW i).extractLsb' (32 * j.val) 32)))))
      ∧ ∀ v : Word32, s.writeNext (0x100 + 32 * i.val + 4 * j.val) v →
          ∃ t, step s = .next t ∧ t = { s with w := t.w }.answered (.okay none)
            ∧ (t.getW i).extractLsb' (32 * j.val) 32 = v
            ∧ (∀ k : Fin 8, k ≠ j → (t.getW i).extractLsb' (32 * k.val) 32 = (s.getW i).extractLsb' (32 * k.val) 32)
            ∧ ∀ k, k ≠ i → t.getW k = s.getW k

/-- R30: X at +0, Y at +32, Z at +64 of 0x300 + 96·i, each in the word order of R28. -/
def Obligations.PWindow : Prop :=
  ∀ (s : State) (i : PReg) (j : Fin 8), s.engine = .idle →
    ∀ (c : Coord) (place : Nat), (c, place) ∈ [(Coord.x, 0), (Coord.y, 32), (Coord.z, 64)] →
      (s.readNext (0x300 + 96 * i.val + place + 4 * j.val) →
        step s = .next (s.answered (.okay (some (((s.getP i).coord c).extractLsb' (32 * j.val) 32)))))
        ∧ ∀ v : Word32, s.writeNext (0x300 + 96 * i.val + place + 4 * j.val) v →
            ∃ t, step s = .next t ∧ t = { s with p := t.p }.answered (.okay none)
              ∧ ((t.getP i).coord c).extractLsb' (32 * j.val) 32 = v
              ∧ (∀ k : Fin 8, k ≠ j →
                  ((t.getP i).coord c).extractLsb' (32 * k.val) 32
                    = ((s.getP i).coord c).extractLsb' (32 * k.val) 32)
              ∧ (∀ e, e ≠ c → (t.getP i).coord e = (s.getP i).coord e)
              ∧ ∀ k, k ≠ i → t.getP k = s.getP k

/-- R51: the word at 0x1000 + 4·q holds DMEM bytes 4q to 4q + 3 from its low byte up; a write sets those four bytes
and no other. -/
def Obligations.DmemWindow : Prop :=
  ∀ (s : State) (q : Nat), s.engine = .idle → q < 1024 →
    (s.readNext (0x1000 + 4 * q) → (∀ i < 4, s.dmem.read? (4 * q + i) ≠ none) →
      ∃ v : Word32, step s = .next (s.answered (.okay (some v)))
        ∧ ∀ i < 4, s.dmem.read? (4 * q + i) = some (v.extractLsb' (8 * i) 8))
      ∧ ∀ v : Word32, s.writeNext (0x1000 + 4 * q) v →
          ∃ t, step s = .next t ∧ t = { s with dmem := t.dmem }.answered (.okay none)
            ∧ (∀ i < 4, t.dmem.read? (4 * q + i) = some (v.extractLsb' (8 * i) 8))
            ∧ ∀ a, a < 4 * q ∨ 4 * q + 4 ≤ a → t.dmem.read? a = s.dmem.read? a

/-- R56 with R51: the host's read of a word with an unwritten byte faults under `fault`; under `draw` it gives a word whose
written bytes read as written. An unwritten byte is a free value (log 5) and nothing is said of it. -/
def Obligations.UnwrittenRead : Prop :=
  ∀ (s : State) (q i : Nat), s.engine = .idle → q < 1024 → i < 4 → s.dmem.read? (4 * q + i) = none →
    s.readNext (0x1000 + 4 * q) →
    (Config.dmemUninit = .fault → step s = .fault .dmemUnwritten)
      ∧ (Config.dmemUninit = .draw →
          ∃ v : Word32, step s = .next (s.answered (.okay (some v)))
            ∧ ∀ j < 4, ∀ b, s.dmem.read? (4 * q + j) = some b → v.extractLsb' (8 * j) 8 = b)

/-- R52 and 30_encoding.md R79: the eight writes of `WRW wI, v` leave v in W[I] and change no other register. -/
def Obligations.WideWrite : Prop :=
  ∀ (s : State) (i : WReg) (v : U256) (rest : List Event), s.engine = .idle → s.inputs = wrw i v ++ rest →
    ∃ t, steps 8 s = .next t ∧ t.getW i = v ∧ (∀ k, k ≠ i → t.getW k = s.getW k)
      ∧ t = { s with w := t.w, resp := some (.okay none), tick := s.tick + 8, inputs := rest }

/-- 30_encoding.md R79, `RUN`, in both forms of its START, with 40_control.md R81 and R82: write CMD, write START, poll
STATUS any number of times while BUSY is 1, and the engine's turn runs the command in the state the host left; where the
command answers a next state, the poll after it reads BUSY = 0 and the loop ends. -/
def Obligations.HostRun : Prop :=
  ∀ (s : State) (w : Word32) (i : Instr) (irqen : Bool) (polls : Nat) (rest : List Event),
    s.engine = .idle → decode w = .ok i → s.inputs = run w irqen polls ++ rest →
    let started := { s with cmd := w, irqen := irqen, engine := .busy w, done := false, err := false, errcode := 0,
                            draws := 0 }
    let polled := { started with resp := some (.okay (if polls = 0 then none else some (statusWord started)))
                                 tick := s.tick + polls + 3, inputs := rd 0x00C :: rest }
    (statusWord started).getLsbD 0 = true
      ∧ steps (polls + 3) s = exec i polled
      ∧ ∀ t, exec i polled = .next t →
          steps (polls + 4) s = .next (t.answered (.okay (some (statusWord t)))) ∧ (statusWord t).getLsbD 0 = false

/-! ### Rules about every command and every step -/

/-- R41 (with R43 for TAB_KEY): which steps set and clear each flag, over every step of every state. -/
def Obligations.FlagLifetimes : Prop :=
  ∀ s t : State, step s = .next t →
    let reset := s.inputs.head? = some .powerOn ∨ ∃ v, s.writeNext 0x004 v ∧ v.getLsbD 1 = true
    let started := s.engine = .idle ∧ ∃ v, s.writeNext 0x004 v ∧ v.getLsbD 1 = false ∧ v.getLsbD 0 = true
    let completed := s.engineNext ∧ ∃ c, s.engine = .busy c
    (s.engine = .idle → t.engine ≠ .idle → started ∧ t.engine = .busy s.cmd)
      ∧ (∀ c, s.engine = .busy c → t.engine ≠ .busy c → t.engine = .idle ∧ (completed ∨ reset))
      ∧ (s.done = false → t.done = true → completed)
      ∧ (s.done = true → t.done = false → started ∨ reset ∨ ∃ v, s.writeNext 0x00C v ∧ v.getLsbD 1 = true)
      ∧ (s.err = false → t.err = true → completed)
      ∧ (s.err = true → t.err = false → started ∨ reset ∨ ∃ v, s.writeNext 0x00C v ∧ v.getLsbD 2 = true)
      ∧ (t.errcode ≠ s.errcode →
          completed ∨ started ∨ reset ∨ ∃ v, s.writeNext 0x00C v ∧ v.getLsbD 2 = true)
      ∧ (s.tabv = false → t.tabv = true → s.engineNext ∧ ∃ c k, s.engine = .busy c ∧ decode c = .ok (.precomp k))
      ∧ (s.tabv = true → t.tabv = false → reset)
      ∧ (t.tabKey ≠ s.tabKey →
          reset ∨ s.engineNext ∧ ∃ c k, s.engine = .busy c ∧ decode c = .ok (.precomp k))
      ∧ (s.wign = false → t.wign = true → (∃ c, s.engine = .busy c) ∧ ∃ off v, s.writeNext off v)
      ∧ (s.wign = true → t.wign = false → reset ∨ ∃ v, s.writeNext 0x00C v ∧ v.getLsbD 4 = true)

/-- 60_exceptions.md R156: IRQ is IRQEN and (DONE or ERR); so it is IRQEN when a command completes, with or without
error, and low after START, after DONE and ERR are cleared, and while IRQEN is 0. A high IRQ falls by nothing else but
a reset: only by a STATUS write that clears each of DONE and ERR that is 1, a CTRL write that clears IRQEN, starts a
command or resets, or a power-on. -/
def Obligations.IrqLevel : Prop :=
  (∀ s : State, irq s = true ↔ s.irqen = true ∧ (s.done = true ∨ s.err = true))
    ∧ (∀ (i : Instr) (s t : State), exec i s = .next t → irq t = s.irqen)
    ∧ (∀ (s : State) (v : Word32), s.writeNext 0x00C v → v.getLsbD 1 = true → v.getLsbD 2 = true →
        ∃ t, step s = .next t ∧ irq t = false)
    ∧ (∀ (s : State) (v : Word32), s.writeNext 0x004 v → v.getLsbD 2 = false →
        ∃ t, step s = .next t ∧ irq t = false)
    ∧ (∀ (s : State) (v : Word32), s.writeNext 0x004 v → v.getLsbD 0 = true → s.engine = .idle →
        ∃ t, step s = .next t ∧ irq t = false)
    ∧ ∀ s t : State, step s = .next t → irq s = true → irq t = false →
        s.inputs.head? = some .powerOn
          ∨ (∃ v, s.writeNext 0x00C v ∧ (s.done = true → v.getLsbD 1 = true) ∧ (s.err = true → v.getLsbD 2 = true))
          ∨ ∃ v, s.writeNext 0x004 v
              ∧ (v.getLsbD 2 = false ∨ v.getLsbD 1 = true ∨ v.getLsbD 0 = true ∧ s.engine = .idle)

/-- 40_control.md R85 and R86, 60_exceptions.md R152: every command, in every state, completes without error or with one
of the codes 1 to 13; or it reads an unwritten byte of an input region where 20_memory.md R56 has the model fault. -/
def Obligations.EveryCommandEnds : Prop :=
  ∀ (i : Instr) (s : State),
    (∃ t, exec i s = .next t
        ∧ (Succeeded s t ∨ ∃ c : Byte, 1 ≤ c.toNat ∧ c.toNat ≤ 13 ∧ Failed c t))
      ∨ exec i s = .fault .dmemUnwritten ∧ Config.dmemUninit = .fault
        ∧ ∃ a, s.dmem.read? a = none
          ∧ (s.src.toNat ≤ a ∧ a < s.src.toNat + s.slen.toNat
              ∨ s.idaddr.toNat ≤ a ∧ a < s.idaddr.toNat + s.idlen.toNat)

/-- 60_exceptions.md R152, 40_control.md R84: errors are precise. ERR was 0 when the command ran (an accepted START
clears it). A failed command leaves W, P, RES, OUTLEN, TAB_KEY, TABV and DMEM as they were, but for the zeros of
ERR_INTEGRITY; a drawing command has used the RNG port's words. -/
def Obligations.ErrorsArePrecise : Prop :=
  ∀ (i : Instr) (s t : State), s.err = false → exec i s = .next t → t.err = true →
    Failed t.errcode t
      ∧ (t.errcode ≠ 8 → OnlyWrites { rng := true } s t)
      ∧ (t.errcode = 8 →
          OnlyWrites { mem := (s.dst.toNat, s.slen.toNat - 97) } s t
            ∧ ∀ a, s.dst.toNat ≤ a → a < s.dst.toNat + (s.slen.toNat - 97) → t.dmem.read? a = some 0)

/-- 60_exceptions.md R148, its "raised by" column without ERR_ILLEGAL (that is the decoder's) and without ERR_DERIVE,
which 45_hash_kdf.md §1 infers is never raised. -/
def Obligations.ErrorCodes : Prop :=
  ∀ (i : Instr) (s t : State), s.err = false → exec i s = .next t → t.err = true →
    match i with
    | .nop | .madd .. | .msub .. | .mmul .. | .mov .. | .ldc .. | .padd .. | .pdbl .. | .pnorm .. | .pldg .. => False
    | .pchk .. | .peq .. | .keychk .. => False
    | .minv .. => t.errcode = 3
    | .msqrt .. => t.errcode = 4
    | .pmul .. => t.errcode = 10
    | .pcomp .. => t.errcode = 11
    | .pdcmp .. => t.errcode = 5
    | .keygen .. => t.errcode = 12
    | .hash | .kdf => t.errcode = 2
    | .enc .. => t.errcode = 2 ∨ t.errcode = 6 ∨ t.errcode = 12
    | .dec .. => t.errcode = 2 ∨ t.errcode = 5 ∨ t.errcode = 6 ∨ t.errcode = 7 ∨ t.errcode = 8
    | .sign .. => t.errcode = 2 ∨ t.errcode = 6 ∨ t.errcode = 12
    | .verify .. => t.errcode = 2 ∨ t.errcode = 6 ∨ t.errcode = 13
    | .precomp .. => t.errcode = 6

/-- 10_state.md R36 and R38, their command side: who writes RES and with which values, and who writes OUTLEN. -/
def Obligations.ResultRegisters : Prop :=
  ∀ (i : Instr) (s t : State), exec i s = .next t →
    (match i with
      | .pchk .. | .peq .. | .keychk .. | .verify .. => t.res = s.res ∨ t.res = 0 ∨ t.res = 1
      | .pcomp .. => t.res = s.res ∨ t.res = 2 ∨ t.res = 3
      | _ => t.res = s.res)
      ∧ match i with
        | .hash => t.outlen = s.outlen ∨ t.outlen.toNat = 32
        | .kdf => t.outlen = s.outlen ∨ t.outlen = s.dlen
        | .enc .. => t.outlen = s.outlen ∨ t.outlen.toNat = 97 + s.slen.toNat
        | .dec .. => t.outlen = s.outlen ∨ t.outlen.toNat = s.slen.toNat - 97
        | _ => t.outlen = s.outlen

/-- 10_state.md R25, 40_control.md R86: only KEYGEN, ENC and SIGN make RNG requests, at most 64 in one command. -/
def Obligations.RandomWords : Prop :=
  ∀ (i : Instr) (s t : State), exec i s = .next t →
    ∃ k, k ≤ 64 ∧ t.rng = s.rng.drop k
      ∧ match i with
        | .keygen .. | .enc .. | .sign .. => True
        | _ => k = 0

/-! ### Control and modular commands (40_control.md, 41_modular.md) -/

/-- R91: NOP completes and writes nothing. -/
def Obligations.NopChangesNothing : Prop := ∀ s : State, EndsWell (exec .nop s) s {} fun _ => True

/-- R97, R98, R99: the sum, the difference and the product of the residues mod m, in [0, m − 1], in W[FA] alone, whatever
the operands and whichever registers coincide. -/
def Obligations.ModularArithmetic : Prop :=
  ∀ (s : State) (d a b : WReg) (md : Modulus),
    let m := match md with
      | .p => Config.p
      | .n => Config.n
    let u := (s.getW a).toNat % m
    let v := (s.getW b).toNat % m
    EndsWell (exec (.madd d a b md) s) s { w := [d] } (fun t => (t.getW d).toNat = (u + v) % m)
      ∧ EndsWell (exec (.msub d a b md) s) s { w := [d] } (fun t => ((t.getW d).toNat : Int) = ((u : Int) - v) % m)
      ∧ EndsWell (exec (.mmul d a b md) s) s { w := [d] } (fun t => (t.getW d).toNat = u * v % m)

/-- R100: the inverse in [1, m − 1], which is a^(m−2) mod m; ERR_NOINV for a residue of 0. -/
def Obligations.ModularInverse : Prop :=
  ∀ (s : State) (d a : WReg) (md : Modulus),
    let m := match md with
      | .p => Config.p
      | .n => Config.n
    let u := (s.getW a).toNat % m
    (u = 0 → EndsInError (exec (.minv d a md) s) s 3 {} fun _ => True)
      ∧ (u ≠ 0 →
          EndsWell (exec (.minv d a md) s) s { w := [d] } fun t =>
            (t.getW d).toNat = u ^ (m - 2) % m ∧ u * (t.getW d).toNat % m = 1 ∧ (t.getW d).toNat < m)

/-- R101: the root a^((p+1)/4) mod p of a square, which is itself a square; ERR_NOSQRT for a non-square. -/
def Obligations.SquareRoot : Prop :=
  ∀ (s : State) (d a : WReg),
    let u := (s.getW a).toNat % Config.p
    ((∃ r, r * r % Config.p = u) →
      EndsWell (exec (.msqrt d a) s) s { w := [d] } fun t =>
        (t.getW d).toNat = u ^ ((Config.p + 1) / 4) % Config.p
          ∧ (t.getW d).toNat * (t.getW d).toNat % Config.p = u
          ∧ ∃ z, z * z % Config.p = (t.getW d).toNat)
      ∧ ((¬ ∃ r, r * r % Config.p = u) → EndsInError (exec (.msqrt d a) s) s 4 {} fun _ => True)

/-- R102, R103 and 42_point.md R116: MOV copies without reduction, LDC loads the eight constants, PLDG loads G. -/
def Obligations.MovesAndConstants : Prop :=
  (∀ (s : State) (d a : WReg), EndsWell (exec (.mov d a) s) s { w := [d] } fun t => t.getW d = s.getW a)
    ∧ (∀ (s : State) (d : WReg) (c : CurveConst) (v : U256),
        (c, v) ∈ [(CurveConst.p, 0xFFFFFFFEFFFFFFFFFFFFFFFFFFFFFFFFFFFFFFFF00000000FFFFFFFFFFFFFFFF),
            (CurveConst.a, 0xFFFFFFFEFFFFFFFFFFFFFFFFFFFFFFFFFFFFFFFF00000000FFFFFFFFFFFFFFFC),
            (CurveConst.b, 0x28E9FA9E9D9F5E344D5A9E4BCF6509A7F39789F515AB8F92DDBCBD414D940E93),
            (CurveConst.n, 0xFFFFFFFEFFFFFFFFFFFFFFFFFFFFFFFF7203DF6B21C6052B53BBF40939D54123),
            (CurveConst.gx, 0x32C4AE2C1F1981195F9904466A39C9948FE30BBFF2660BE1715A4589334C74C7),
            (CurveConst.gy, 0xBC3736A2F4F6779C59BDCEE36B692153D0A9877CC62A474002DF32E52139F0A0),
            (CurveConst.zero, 0), (CurveConst.one, 1)] →
          EndsWell (exec (.ldc d c) s) s { w := [d] } fun t => t.getW d = v)
    ∧ ∀ (s : State) (d : PReg),
        EndsWell (exec (.pldg d) s) s { p := [d] } fun t =>
          t.getP d = ⟨0x32C4AE2C1F1981195F9904466A39C9948FE30BBFF2660BE1715A4589334C74C7,
            0xBC3736A2F4F6779C59BDCEE36B692153D0A9877CC62A474002DF32E52139F0A0, 1⟩

/-! ### Point commands (42_point.md) -/

/-- R115 with R104 and R105, on the raw triple (X, Y, Z): Z ≡ 0 becomes (0, 0, 0); else the written (x, y, 1) has
x·Z² ≡ X and y·Z³ ≡ Y mod p with x, y < p. -/
def Obligations.PointNormalise : Prop :=
  ∀ (s : State) (d a : PReg),
    let q := s.getP a
    (q.z.toNat % Config.p = 0 → EndsWell (exec (.pnorm d a) s) s { p := [d] } fun t => t.getP d = ⟨0, 0, 0⟩)
      ∧ (q.z.toNat % Config.p ≠ 0 →
          EndsWell (exec (.pnorm d a) s) s { p := [d] } fun t =>
            (t.getP d).z = 1 ∧ (t.getP d).x.toNat < Config.p ∧ (t.getP d).y.toNat < Config.p
              ∧ (t.getP d).x.toNat * q.z.toNat ^ 2 % Config.p = q.x.toNat % Config.p
              ∧ (t.getP d).y.toNat * q.z.toNat ^ 3 % Config.p = q.y.toNat % Config.p)

/-- R112 with R107: the sum in normal form, on and off the curve; each case of Add by its own clause. -/
def Obligations.PointAddition : Prop :=
  ∀ (s : State) (d a b : PReg),
    (aff (s.getP a) = .inf →
      EndsWell (exec (.padd d a b) s) s { p := [d] } fun t => t.getP d = Machine.norm (aff (s.getP b)))
      ∧ (aff (s.getP b) = .inf →
          EndsWell (exec (.padd d a b) s) s { p := [d] } fun t => t.getP d = Machine.norm (aff (s.getP a)))
      ∧ ∀ x1 y1 x2 y2, aff (s.getP a) = .aff x1 y1 → aff (s.getP b) = .aff x2 y2 →
          (x1 ≠ x2 →
            EndsWell (exec (.padd d a b) s) s { p := [d] } fun t =>
              ∃ l, l < Config.p ∧ ChordSlope l x1 y1 x2 y2 ∧ OnLine l x1 y1 x2 (t.getP d))
          ∧ (x1 = x2 → y1 = y2 → y1 ≠ 0 →
            EndsWell (exec (.padd d a b) s) s { p := [d] } fun t =>
              ∃ l, l < Config.p ∧ TangentSlope l x1 y1 ∧ OnLine l x1 y1 x1 (t.getP d))
          ∧ (x1 = x2 → ¬ (y1 = y2 ∧ y1 ≠ 0) →
            EndsWell (exec (.padd d a b) s) s { p := [d] } fun t => t.getP d = ⟨0, 0, 0⟩)

/-- R113 with R108: the double in normal form, on and off the curve. -/
def Obligations.PointDoubling : Prop :=
  ∀ (s : State) (d a : PReg),
    (aff (s.getP a) = .inf → EndsWell (exec (.pdbl d a) s) s { p := [d] } fun t => t.getP d = ⟨0, 0, 0⟩)
      ∧ ∀ x y, aff (s.getP a) = .aff x y →
          (y = 0 → EndsWell (exec (.pdbl d a) s) s { p := [d] } fun t => t.getP d = ⟨0, 0, 0⟩)
          ∧ (y ≠ 0 →
            EndsWell (exec (.pdbl d a) s) s { p := [d] } fun t =>
              ∃ l, l < Config.p ∧ TangentSlope l x y ∧ OnLine l x y x (t.getP d))

/-- R107 and R108 give a commutative group on the points of the curve and O, as 00_scope.md R14 has it: sums stay on
the curve, O is the unit, −Q is the inverse, Add is commutative and associative, Dbl(Q) = Add(Q, Q). -/
def Obligations.GroupLaw : Prop :=
  ∀ q r u : Point, q.Valid → r.Valid → u.Valid →
    (add q r).Valid ∧ (negPoint q).Valid ∧ add .inf q = q ∧ add q (negPoint q) = .inf ∧ add q r = add r q
      ∧ add (add q r) u = add q (add r u) ∧ dbl q = add q q

/-- What 42_point.md §2 says of Mul under R109 ("For Q on the curve, Mul(k, Q) is the group multiple k·Q"): the spec's own
inference from the loop and the order of the curve. -/
def Obligations.ScalarMultiple : Prop :=
  ∀ q : Point, q.Valid →
    mul 0 q = .inf ∧ mul 1 q = q ∧ mul Config.n q = .inf
      ∧ (∀ k, k + 1 < 2 ^ 256 → mul (k + 1) q = add (mul k q) q)
      ∧ ∀ k, k < 2 ^ 256 → mul k q = mul (k % Config.n) q

/-- R114: Mul(k, Q) in normal form with k not reduced, ERR_POINT for a finite point off the curve, and the corner
cases k = 0, Q = O, k = n, k = n − 1 and k ≥ n. -/
def Obligations.PointMultiplication : Prop :=
  ∀ (s : State) (d a : PReg) (k : WReg),
    let q := aff (s.getP a)
    let e := (s.getW k).toNat
    (∀ x y, q = .aff x y → ¬ CurveEq x y → EndsInError (exec (.pmul d a k) s) s 10 {} fun _ => True)
      ∧ ((∀ x y, q = .aff x y → CurveEq x y) →
          EndsWell (exec (.pmul d a k) s) s { p := [d] } fun t =>
            t.getP d = Machine.norm (mul e q)
              ∧ (e = 0 ∨ q = .inf ∨ e = Config.n → t.getP d = ⟨0, 0, 0⟩)
              ∧ (e = Config.n - 1 → t.getP d = Machine.norm (negPoint q))
              ∧ (Config.n ≤ e → t.getP d = Machine.norm (mul (e % Config.n) q)))

/-- R117 with R104 and R106, on the raw triple: RES is 1 for Z ≡ 0 and for Y² ≡ X³ + a·X·Z⁴ + b·Z⁶ mod p, else 0. -/
def Obligations.PointCheck : Prop :=
  ∀ (s : State) (a : PReg),
    let q := s.getP a
    EndsWell (exec (.pchk a) s) s { res := true } fun t =>
      (t.res = 0 ∨ t.res = 1)
        ∧ (t.res = 1 ↔
            q.z.toNat % Config.p = 0
              ∨ ((q.y.toNat : Int) ^ 2 - (q.x.toNat : Int) ^ 3 - Config.a * q.x.toNat * q.z.toNat ^ 4
                  - Config.b * q.z.toNat ^ 6) % Config.p = 0)

/-- R118 with R104, on the raw triples: RES is 1 when both stand for O, or neither does and X1·Z2² ≡ X2·Z1² and
Y1·Z2³ ≡ Y2·Z1³ mod p; else 0. -/
def Obligations.PointEquality : Prop :=
  ∀ (s : State) (a b : PReg),
    let q := s.getP a
    let r := s.getP b
    EndsWell (exec (.peq a b) s) s { res := true } fun t =>
      (t.res = 0 ∨ t.res = 1)
        ∧ (t.res = 1 ↔
            q.z.toNat % Config.p = 0 ∧ r.z.toNat % Config.p = 0
              ∨ q.z.toNat % Config.p ≠ 0 ∧ r.z.toNat % Config.p ≠ 0
                ∧ q.x.toNat * r.z.toNat ^ 2 % Config.p = r.x.toNat * q.z.toNat ^ 2 % Config.p
                ∧ q.y.toNat * r.z.toNat ^ 3 % Config.p = r.y.toNat * q.z.toNat ^ 3 % Config.p)

/-! ### Compression and keys (43_compress.md, 44_keys.md) -/

/-- R120: x to W[FA] and 2 or 3 by the parity of y to RES; ERR_INF for O. -/
def Obligations.Compress : Prop :=
  ∀ (s : State) (d : WReg) (a : PReg),
    (aff (s.getP a) = .inf → EndsInError (exec (.pcomp d a) s) s 11 {} fun _ => True)
      ∧ ∀ x y, aff (s.getP a) = .aff x y →
          EndsWell (exec (.pcomp d a) s) s { w := [d], res := true } fun t =>
            (t.getW d).toNat = x ∧ t.res = if y % 2 = 0 then 2 else 3

/-- R121: for x < p with a y < p on the curve whose parity is T, P[FA] is (x, y, 1) with that y; for every other x,
ERR_DECODE. -/
def Obligations.Decompress : Prop :=
  ∀ (s : State) (d : PReg) (x : WReg) (tag : Bool),
    let v := (s.getW x).toNat
    (∀ y, v < Config.p → y < Config.p → CurveEq v y → y % 2 = tag.toNat →
      EndsWell (exec (.pdcmp d x tag) s) s { p := [d] } fun t =>
        (t.getP d).x.toNat = v ∧ (t.getP d).y.toNat = y ∧ (t.getP d).z = 1)
      ∧ ((¬ ∃ y, v < Config.p ∧ y < Config.p ∧ CurveEq v y ∧ y % 2 = tag.toNat) →
          EndsInError (exec (.pdcmp d x tag) s) s 5 {} fun _ => True)

/-- 43_compress.md §2, R122's claim (the spec's own inference): PDCMP of what PCOMP gave, with T = RES − 2, writes Norm(Q)
for every finite Q on the curve. -/
def Obligations.CompressRoundTrip : Prop :=
  ∀ (s : State) (i : WReg) (b d : PReg) (x y : Nat), aff (s.getP b) = .aff x y → CurveEq x y →
    ∃ c t, exec (.pcomp i b) s = .next c ∧ exec (.pdcmp d i (c.res == 3)) c = .next t
      ∧ Succeeded s c ∧ Succeeded c t ∧ t.getP d = Machine.norm (Point.aff x y)

/-- R126 with R123: RES is 1 for Z = 1, X < p, Y < p and (X, Y) on the curve, on the raw values; else 0. -/
def Obligations.KeyCheck : Prop :=
  ∀ (s : State) (a : PReg),
    EndsWell (exec (.keychk a) s) s { res := true } fun t =>
      (t.res = 0 ∨ t.res = 1) ∧ (t.res = 1 ↔ GoodKey (s.getP a))

/-- R125 with 40_control.md R87: the first word in [1, n − 2] of at most 64 is d, and P[FB] is Norm(Mul(d, G)); with no
such word, ERR_RETRY. The draw counter is 0, as START leaves it. -/
def Obligations.KeyGeneration : Prop :=
  ∀ (s : State) (d : WReg) (q : PReg), s.draws = 0 →
    let good := fun v : U256 => 1 ≤ v.toNat ∧ v.toNat ≤ Config.n - 2
    (∀ j, FirstGood good s j →
      EndsWell (exec (.keygen d q) s) s { w := [d], p := [q], rng := true } fun t =>
        t.getW d = s.rngAt j ∧ t.getP q = Machine.norm (mul (s.rngAt j).toNat basePoint) ∧ t.rng = s.rng.drop (j + 1))
      ∧ (NoneGood good s →
          EndsInError (exec (.keygen d q) s) s 12 { rng := true } fun t => t.rng = s.rng.drop 64)

/-- R125's inference that the pair is always valid: after a KEYGEN without error, W[FA] is in [1, n − 2], and KEYCHK of
P[FB] gives RES = 1. -/
def Obligations.GeneratedKeysAreValid : Prop :=
  ∀ (s t : State) (d : WReg) (q : PReg), s.err = false → exec (.keygen d q) s = .next t → t.err = false →
    1 ≤ (t.getW d).toNat ∧ (t.getW d).toNat ≤ Config.n - 2
      ∧ EndsWell (exec (.keychk q) t) t { res := true } fun u => u.res = 1

/-! ### Hash and KDF (45_hash_kdf.md) -/

/-- R130: the region checks, the digest of the input in the 32 bytes at DST, OUTLEN = 32, no other byte changed. Where
R56 has the model fault on an unwritten input byte, it faults. -/
def Obligations.HashCommand : Prop :=
  ∀ s : State,
    let ok := InDmem s.src.toNat s.slen.toNat ∧ 32 ≤ s.dlen.toNat ∧ InDmem s.dst.toNat 32
      ∧ ¬ Overlaps s.src.toNat s.slen.toNat s.dst.toNat 32
    (¬ ok → EndsInError (exec .hash s) s 2 {} fun _ => True)
      ∧ (ok → s.readable s.src.toNat s.slen.toNat = false → exec .hash s = .fault .dmemUnwritten)
      ∧ (ok → s.readable s.src.toNat s.slen.toNat = true →
          EndsWell (exec .hash s) s { outlen := true, mem := (s.dst.toNat, 32) } fun t =>
            t.outlen.toNat = 32
              ∧ ∀ i < 32, t.dmem.read? (s.dst.toNat + i)
                  = some (digestByte (s.memRead s.src.toNat s.slen.toNat) i))

/-- R131 with R128: byte i of the output is byte i mod 32 of the digest of Z followed by the big-endian counter
i div 32 + 1. -/
def Obligations.KdfCommand : Prop :=
  ∀ s : State,
    let ok := InDmem s.src.toNat s.slen.toNat ∧ InDmem s.dst.toNat s.dlen.toNat
      ∧ ¬ Overlaps s.src.toNat s.slen.toNat s.dst.toNat s.dlen.toNat
    (¬ ok → EndsInError (exec .kdf s) s 2 {} fun _ => True)
      ∧ (ok → s.readable s.src.toNat s.slen.toNat = false → exec .kdf s = .fault .dmemUnwritten)
      ∧ (ok → s.readable s.src.toNat s.slen.toNat = true →
          EndsWell (exec .kdf s) s { outlen := true, mem := (s.dst.toNat, s.dlen.toNat) } fun t =>
            t.outlen = s.dlen
              ∧ ∀ i < s.dlen.toNat, t.dmem.read? (s.dst.toNat + i)
                  = some (maskByte (s.memRead s.src.toNat s.slen.toNat) i))

/-! ### ECIES (46_ecies.md) -/

/-- R133: the checks in order; then the first good nonce k of at most 64 words gives the ciphertext of k·G, k·K and the
message at DST and OUTLEN = 97 + SLEN; with no good word, ERR_RETRY. An invalid key makes no RNG request. -/
def Obligations.Encrypt : Prop :=
  ∀ (s : State) (key : PReg) (tm : CipherMode), s.draws = 0 →
    let mlen := s.slen.toNat
    let olen := 97 + mlen
    let ok := InDmem s.src.toNat mlen ∧ olen ≤ s.dlen.toNat ∧ InDmem s.dst.toNat olen
      ∧ ¬ Overlaps s.src.toNat mlen s.dst.toNat olen
    let m := s.memRead s.src.toNat mlen
    let k := s.getP key
    (¬ ok → EndsInError (exec (.enc key tm) s) s 2 {} fun _ => True)
      ∧ (ok → ¬ GoodKey k → EndsInError (exec (.enc key tm) s) s 6 {} fun _ => True)
      ∧ (ok → GoodKey k → s.readable s.src.toNat mlen = false → exec (.enc key tm) s = .fault .dmemUnwritten)
      ∧ (ok → GoodKey k → s.readable s.src.toNat mlen = true → NoneGood (encNonce k mlen) s →
          EndsInError (exec (.enc key tm) s) s 12 { rng := true } fun t => t.rng = s.rng.drop 64)
      ∧ ∀ j, ok → GoodKey k → s.readable s.src.toNat mlen = true → FirstGood (encNonce k mlen) s j →
          EndsWell (exec (.enc key tm) s) s { outlen := true, mem := (s.dst.toNat, olen), rng := true } fun t =>
            t.outlen.toNat = olen ∧ t.rng = s.rng.drop (j + 1)
              ∧ ∃ x1 y1 x2 y2 : U256,
                  mul (s.rngAt j).toNat basePoint = .aff x1.toNat y1.toNat
                    ∧ mul (s.rngAt j).toNat (.aff k.x.toNat k.y.toNat) = .aff x2.toNat y2.toNat
                    ∧ ∀ i < olen, t.dmem.read? (s.dst.toNat + i) = (cipherText tm x1 y1 x2 y2 m)[i]?

/-- R134: the checks in order, each with its code; then the message at DST and OUTLEN = SLEN − 97, or zeros there,
OUTLEN kept and ERR_INTEGRITY where the digest does not match. (x1, y1) are the coordinates the ciphertext holds. -/
def Obligations.Decrypt : Prop :=
  ∀ (s : State) (key : WReg) (tm : CipherMode) (x1 y1 : U256),
    let clen := s.slen.toNat
    let mlen := clen - 97
    let d := (s.getW key).toNat
    let ct := s.memRead s.src.toNat clen
    let room := mlen ≤ s.dlen.toNat ∧ InDmem s.dst.toNat mlen ∧ ¬ Overlaps s.src.toNat clen s.dst.toNat mlen
    let go := InDmem s.src.toNat clen ∧ 97 ≤ clen ∧ room ∧ 1 ≤ d ∧ d ≤ Config.n - 2
    let c2 := match tm with
      | .c1c3c2 => ct.drop 97
      | .c1c2c3 => (ct.drop 65).take mlen
    let c3 := match tm with
      | .c1c3c2 => (ct.drop 65).take 32
      | .c1c2c3 => ct.drop (65 + mlen)
    let coords := (ct.drop 1).take 64 = be256 x1 ++ be256 y1
    (¬ InDmem s.src.toNat clen → EndsInError (exec (.dec key tm) s) s 2 {} fun _ => True)
      ∧ (InDmem s.src.toNat clen → clen < 97 → EndsInError (exec (.dec key tm) s) s 5 {} fun _ => True)
      ∧ (InDmem s.src.toNat clen → 97 ≤ clen → ¬ room → EndsInError (exec (.dec key tm) s) s 2 {} fun _ => True)
      ∧ (InDmem s.src.toNat clen → 97 ≤ clen → room → ¬ (1 ≤ d ∧ d ≤ Config.n - 2) →
          EndsInError (exec (.dec key tm) s) s 6 {} fun _ => True)
      ∧ (go → s.readable s.src.toNat clen = false → exec (.dec key tm) s = .fault .dmemUnwritten)
      ∧ (go → s.readable s.src.toNat clen = true → coords →
          (ct[0]? ≠ some 0x04 ∨ Config.p ≤ x1.toNat ∨ Config.p ≤ y1.toNat →
            EndsInError (exec (.dec key tm) s) s 5 {} fun _ => True)
          ∧ (ct[0]? = some 0x04 → x1.toNat < Config.p → y1.toNat < Config.p →
              (¬ CurveEq x1.toNat y1.toNat → EndsInError (exec (.dec key tm) s) s 7 {} fun _ => True)
              ∧ (CurveEq x1.toNat y1.toNat →
                  ∃ x2 y2 : U256, mul d (.aff x1.toNat y1.toNat) = .aff x2.toNat y2.toNat
                    ∧ let m := (List.range mlen).map fun i => c2.getD i 0 ^^^ maskByte (be256 x2 ++ be256 y2) i
                      ((List.range 32).map (digestByte (be256 x2 ++ m ++ be256 y2)) = c3 →
                        EndsWell (exec (.dec key tm) s) s { outlen := true, mem := (s.dst.toNat, mlen) } fun t =>
                          t.outlen.toNat = mlen ∧ ∀ i < mlen, t.dmem.read? (s.dst.toNat + i) = m[i]?)
                      ∧ ((List.range 32).map (digestByte (be256 x2 ++ m ++ be256 y2)) ≠ c3 →
                        EndsInError (exec (.dec key tm) s) s 8 { mem := (s.dst.toNat, mlen) } fun t =>
                          ∀ i < mlen, t.dmem.read? (s.dst.toNat + i) = some 0))))

/-- 46_ecies.md §3, R135's property (the spec's own inference): what ENC wrote under the public key of d, DEC with d and
the same mode reads back, for every message, the empty one included, every hash function and every RNG word. -/
def Obligations.EncryptThenDecrypt : Prop :=
  ∀ (s t : State) (key : PReg) (dk : WReg) (tm : CipherMode) (dst dlen : Word32),
    s.err = false → exec (.enc key tm) s = .next t → t.err = false →
    1 ≤ (s.getW dk).toNat → (s.getW dk).toNat ≤ Config.n - 2 →
    s.getP key = Machine.norm (mul (s.getW dk).toNat basePoint) →
    s.slen.toNat ≤ dlen.toNat → InDmem dst.toNat s.slen.toNat →
    ¬ Overlaps s.dst.toNat (97 + s.slen.toNat) dst.toNat s.slen.toNat →
    let u := { t with src := s.dst, slen := t.outlen, dst := dst, dlen := dlen }
    EndsWell (exec (.dec dk tm) u) u { outlen := true, mem := (dst.toNat, s.slen.toNat) } fun v =>
      v.outlen = s.slen ∧ ∀ i < s.slen.toNat, v.dmem.read? (dst.toNat + i) = some (s.dmemByte (s.src.toNat + i))

/-- 46_ecies.md §3, R137's first sentence (the spec's own inference): another private key computes another shared point
from every point C1 = k·G that ENC can write. -/
def Obligations.WrongKeyDiffers : Prop :=
  ∀ k d e : Nat, 1 ≤ k → k ≤ Config.n - 1 → 1 ≤ d → d ≤ Config.n - 2 → 1 ≤ e → e ≤ Config.n - 2 → d ≠ e →
    mul d (mul k basePoint) ≠ mul e (mul k basePoint) ∧ mul d (mul k basePoint) ≠ .inf

/-! ### Signatures (47_sm2sig.md) -/

/-- R142: the checks in order; then the first good nonce k of at most 64 words gives r = (e + x1) mod n in W[FA] and the
s with s·(1 + d) ≡ k − r·d mod n in W[FA + 1], both in [1, n − 1]; with no good word, ERR_RETRY. -/
def Obligations.Sign : Prop :=
  ∀ (s : State) (rs key e : WReg) (h i : Bool), WellFormed (.sign rs key e h i) → s.draws = 0 →
    let d := (s.getW key).toNat
    let run := exec (.sign rs key e h i) s
    (¬ SigRegions h i s → EndsInError run s 2 {} fun _ => True)
      ∧ (SigRegions h i s → ¬ (1 ≤ d ∧ d ≤ Config.n - 2) → EndsInError run s 6 {} fun _ => True)
      ∧ (SigRegions h i s → 1 ≤ d → d ≤ Config.n - 2 → ¬ SigReadable h i s → run = .fault .dmemUnwritten)
      ∧ (SigRegions h i s → 1 ≤ d → d ≤ Config.n - 2 → SigReadable h i s →
          ∀ px py : U256, mul d basePoint = .aff px.toNat py.toNat →
            let ev := digestOf e h i px py s
            (NoneGood (signNonce d ev) s → EndsInError run s 12 { rng := true } fun t => t.rng = s.rng.drop 64)
            ∧ ∀ j, FirstGood (signNonce d ev) s j →
                EndsWell run s { w := [rs, pairNext rs], rng := true } fun t =>
                  t.rng = s.rng.drop (j + 1)
                    ∧ ∃ x1 y1, mul (s.rngAt j).toNat basePoint = .aff x1 y1
                      ∧ (t.getW rs).toNat = (ev + x1) % Config.n
                      ∧ (((t.getW (pairNext rs)).toNat : Int) * (1 + d)
                          - ((s.rngAt j).toNat - (t.getW rs).toNat * d)) % Config.n = 0
                      ∧ 1 ≤ (t.getW rs).toNat ∧ 1 ≤ (t.getW (pairNext rs)).toNat
                      ∧ (t.getW (pairNext rs)).toNat < Config.n)

/-- R143: the checks in order; a signature out of range gives RES = 0 before anything is read; else RES is 1 exactly when
t = (r + s) mod n is not 0 and Mul(s, G) + Mul(t, K) is a finite point whose x has (e + x) mod n = r. -/
def Obligations.Verify : Prop :=
  ∀ (s : State) (rs e : WReg) (key : PReg) (h i u : Bool), WellFormed (.verify rs e key h i u) →
    let r := (s.getW rs).toNat
    let sg := (s.getW (pairNext rs)).toNat
    let run := exec (.verify rs e key h i u) s
    let inRange := 1 ≤ r ∧ r ≤ Config.n - 1 ∧ 1 ≤ sg ∧ sg ≤ Config.n - 1
    let keyOk := u = true ∨ GoodKey (s.getP key)
    let kx := if u then s.tabKey.x else (s.getP key).x
    let ky := if u then s.tabKey.y else (s.getP key).y
    (u = true → s.tabv = false → EndsInError run s 13 {} fun _ => True)
      ∧ (¬ (u = true ∧ s.tabv = false) → ¬ SigRegions h i s → EndsInError run s 2 {} fun _ => True)
      ∧ (¬ (u = true ∧ s.tabv = false) → SigRegions h i s → ¬ keyOk → EndsInError run s 6 {} fun _ => True)
      ∧ (¬ (u = true ∧ s.tabv = false) → SigRegions h i s → keyOk →
          (¬ inRange → EndsWell run s { res := true } fun t => t.res = 0)
          ∧ (inRange → ¬ SigReadable h i s → run = .fault .dmemUnwritten)
          ∧ (inRange → SigReadable h i s →
              EndsWell run s { res := true } fun t =>
                (t.res = 0 ∨ t.res = 1)
                  ∧ (t.res = 1 ↔
                      (r + sg) % Config.n ≠ 0
                        ∧ ∃ x y, add (mul sg basePoint) (mul ((r + sg) % Config.n) (.aff kx.toNat ky.toNat)) = .aff x y
                          ∧ (digestOf e h i kx ky s + x) % Config.n = r)))

/-- 47_sm2sig.md §3, R145's property (the spec's own inference): what SIGN wrote under d verifies against Mul(d, G) with
the same H, I and digest or message and identity, for every hash function and every RNG word. With H = 1 VERIFY takes
the digest from any register that holds it after SIGN, so SIGN may have overwritten its own. -/
def Obligations.SignThenVerify : Prop :=
  ∀ (s t : State) (rs key e f : WReg) (pk : PReg) (h i : Bool), WellFormed (.sign rs key e h i) →
    (h = false → f = e) → (h = true → t.getW f = s.getW e) →
    s.err = false → exec (.sign rs key e h i) s = .next t → t.err = false →
    s.getP pk = Machine.norm (mul (s.getW key).toNat basePoint) →
    EndsWell (exec (.verify rs f pk h i false) t) t { res := true } fun v => v.res = 1

/-- R144: TAB_KEY takes X and Y and TABV becomes 1; ERR_KEY for an invalid key, and an earlier table stays. -/
def Obligations.PrecomputeTable : Prop :=
  ∀ (s : State) (a : PReg),
    (GoodKey (s.getP a) →
      EndsWell (exec (.precomp a) s) s { tab := true } fun t =>
        t.tabv = true ∧ t.tabKey.x = (s.getP a).x ∧ t.tabKey.y = (s.getP a).y)
      ∧ (¬ GoodKey (s.getP a) → EndsInError (exec (.precomp a) s) s 6 {} fun _ => True)

/-- 47_sm2sig.md §3, R146's claim (the spec's own inference): after PRECOMP pA, in every later state that still has that
table and that P[A], VERIFY with U = 1 ends in the same state as VERIFY with U = 0 and FD = A. -/
def Obligations.PrecomputeIsInvisible : Prop :=
  ∀ (s t v : State) (a : PReg) (rs e : WReg) (h i : Bool), s.err = false → exec (.precomp a) s = .next t →
    t.err = false → v.tabv = t.tabv → v.tabKey = t.tabKey → v.getP a = t.getP a →
    exec (.verify rs e 0 h i true) v = exec (.verify rs e a h i false) v
end

