-- ==== Sys2Proof/Laws/Field.lean ====
section
/-! SUPPORT. What the modular operations compute, as integers and in the ring ZMod m, and the certificate
check by which Laws/Primes.lean shows p and n prime. -/

namespace Sys2Proof
namespace Machine

/-! ### Square and multiply -/

theorem powBits_eq (m a : Nat) (k e : Nat) (h : e < 2 ^ k) : powBits m a k e = a ^ e % m := by
  induction k generalizing e with
  | zero =>
    obtain rfl : e = 0 := by simpa using h
    rfl
  | succ k ih =>
    have h2 : e / 2 < 2 ^ k := by rw [Nat.pow_succ] at h; omega
    rw [powBits, ih _ h2]
    have hd : (a ^ (e / 2) % m) ^ 2 % m = a ^ (2 * (e / 2)) % m := by rw [← Nat.pow_mod, ← pow_mul, Nat.mul_comm]
    split
    · rename_i ho
      rw [Nat.mod_mul_mod, ← Nat.mod_mul_mod, hd, Nat.mod_mul_mod, ← pow_succ]
      congr 2
      omega
    · rw [hd]
      congr 2
      omega

/-- `powMod` is the power mod m (41_modular.md R100, R101). -/
theorem powMod_eq (m a e : Nat) (h : e < 2 ^ 256) : powMod m a e = a ^ e % m := powBits_eq m a 256 e h

theorem powMod_lt (m a e : Nat) (hm : 0 < m) : powMod m a e < m := by
  unfold powMod powBits
  split <;> exact Nat.mod_lt _ hm

theorem invMod_lt (m a : Nat) (hm : 0 < m) : invMod m a < m := powMod_lt m a _ hm
theorem addMod_lt (m a b : Nat) (hm : 0 < m) : addMod m a b < m := Nat.mod_lt _ hm
theorem subMod_lt (m a b : Nat) (hm : 0 < m) : subMod m a b < m := Nat.mod_lt _ hm
theorem mulMod_lt (m a b : Nat) (hm : 0 < m) : mulMod m a b < m := Nat.mod_lt _ hm

/-- `subMod` is the integer difference mod m (41_modular.md R98). -/
theorem subMod_eq_emod (m a b : Nat) (hm : 0 < m) : (subMod m a b : Int) = ((a : Int) - b) % m := by
  have hb := Nat.mod_lt b hm
  rw [subMod, Int.natCast_emod, Nat.cast_add, Nat.cast_sub hb.le, Int.natCast_emod]
  have : (a : Int) + (m - b % m) = (a - b) + m * (b / m + 1) := by
    have := Int.emod_add_mul_ediv (b : Int) m
    linarith
  rw [this, Int.add_mul_emod_self_left]

/-! ### The operations in ZMod m -/

theorem cast_addMod (m a b : Nat) : ((addMod m a b : Nat) : ZMod m) = a + b := by simp [addMod]

theorem cast_mulMod (m a b : Nat) : ((mulMod m a b : Nat) : ZMod m) = a * b := by simp [mulMod]

theorem cast_subMod (m a b : Nat) (hm : 0 < m) : ((subMod m a b : Nat) : ZMod m) = a - b := by
  have hb := Nat.mod_lt b hm
  rw [subMod, ZMod.natCast_mod, Nat.cast_add, Nat.cast_sub hb.le, ZMod.natCast_mod, ZMod.natCast_self]
  ring

theorem cast_powMod (m a e : Nat) (h : e < 2 ^ 256) : ((powMod m a e : Nat) : ZMod m) = (a : ZMod m) ^ e := by
  rw [powMod_eq _ _ _ h, ZMod.natCast_mod, Nat.cast_pow]

/-- In a prime field `invMod` is the inverse (00_scope.md R21): Fermat's little theorem. -/
theorem cast_invMod (m a : Nat) [Fact m.Prime] (h2 : 2 < m) (hm : m < 2 ^ 256) :
    ((invMod m a : Nat) : ZMod m) = (a : ZMod m)⁻¹ := by
  rw [invMod, cast_powMod _ _ _ (by omega)]
  by_cases ha : (a : ZMod m) = 0
  · rw [ha, inv_zero, zero_pow (by omega)]
  · refine eq_inv_of_mul_eq_one_left ?_
    rw [← pow_succ, show m - 2 + 1 = m - 1 by omega]
    exact ZMod.pow_card_sub_one_eq_one ha

/-! ### Primality certificates -/

/-- Lucas's test on a full factorisation of q − 1, with the powers computed by `powMod`. -/
def lucasCheck (q a : Nat) (fs : List Nat) : Bool :=
  decide (fs.prod + 1 = q) && decide (q < 2 ^ 256) && powMod q a (q - 1) == 1
    && fs.all fun f => powMod q a ((q - 1) / f) != 1

theorem prime_of_lucasCheck (q a : Nat) (fs : List Nat) (hq : 1 < q) (hfs : ∀ f ∈ fs, f.Prime)
    (h : lucasCheck q a fs = true) : q.Prime := by
  simp only [lucasCheck, Bool.and_eq_true, decide_eq_true_eq, beq_iff_eq, List.all_eq_true, bne_iff_ne] at h
  obtain ⟨⟨⟨hp, hlt⟩, h1⟩, h2⟩ := h
  have : Fact (1 < q) := ⟨hq⟩
  refine lucas_primality q (a : ZMod q) ?_ fun r hr hd => ?_
  · rw [← cast_powMod q a (q - 1) (by omega), h1, Nat.cast_one]
  · have hmem : r ∈ fs := by
      have : r ∣ fs.prod := by rwa [show fs.prod = q - 1 by omega]
      obtain ⟨f, hf, hrf⟩ := (Nat.Prime.prime hr).dvd_prod_iff.1 this
      rwa [(Nat.prime_dvd_prime_iff_eq hr (hfs f hf)).1 hrf]
    have hle := Nat.div_le_self (q - 1) r
    have hne := h2 r hmem
    rw [← cast_powMod q a _ (by omega)]
    intro hc
    refine hne ?_
    have hl := powMod_lt q a ((q - 1) / r) (by omega)
    have := (ZMod.natCast_eq_natCast_iff' (powMod q a ((q - 1) / r)) 1 q).1 (by simpa using hc)
    rwa [Nat.mod_eq_of_lt hl, Nat.mod_eq_of_lt hq] at this

end Machine
end Sys2Proof
end

