-- ==== Sys2Proof/Laws/Primes.lean ====
section
/-! SUPPORT. p and n are prime (00_scope.md R14): Pratt certificates, each level a full factorisation of q − 1
checked by `lucasCheck` in the kernel. -/

namespace Sys2Proof
namespace Machine

theorem prime_3079049 : Nat.Prime 3079049 := by
  refine prime_of_lucasCheck _ 3 [2, 2, 2, 7, 54983] (by decide) ?_ (by decide +kernel)
  simp only [List.mem_cons, List.not_mem_nil, or_false]
  rintro _ (rfl | rfl | rfl | rfl | rfl)
  · norm_num
  · norm_num
  · norm_num
  · norm_num
  · norm_num
theorem prime_6158099 : Nat.Prime 6158099 := by
  refine prime_of_lucasCheck _ 2 [2, 3079049] (by decide) ?_ (by decide +kernel)
  simp only [List.mem_cons, List.not_mem_nil, or_false]
  rintro _ (rfl | rfl)
  · norm_num
  · exact prime_3079049
theorem prime_8214737 : Nat.Prime 8214737 := by
  refine prime_of_lucasCheck _ 3 [2, 2, 2, 2, 67, 79, 97] (by decide) ?_ (by decide +kernel)
  simp only [List.mem_cons, List.not_mem_nil, or_false]
  rintro _ (rfl | rfl | rfl | rfl | rfl | rfl | rfl)
  · norm_num
  · norm_num
  · norm_num
  · norm_num
  · norm_num
  · norm_num
  · norm_num
theorem prime_9061163 : Nat.Prime 9061163 := by
  refine prime_of_lucasCheck _ 2 [2, 11, 71, 5801] (by decide) ?_ (by decide +kernel)
  simp only [List.mem_cons, List.not_mem_nil, or_false]
  rintro _ (rfl | rfl | rfl | rfl)
  · norm_num
  · norm_num
  · norm_num
  · norm_num
theorem prime_10042883 : Nat.Prime 10042883 := by
  refine prime_of_lucasCheck _ 2 [2, 1013, 4957] (by decide) ?_ (by decide +kernel)
  simp only [List.mem_cons, List.not_mem_nil, or_false]
  rintro _ (rfl | rfl | rfl)
  · norm_num
  · norm_num
  · norm_num
theorem prime_17965699 : Nat.Prime 17965699 := by
  refine prime_of_lucasCheck _ 2 [2, 3, 71, 181, 233] (by decide) ?_ (by decide +kernel)
  simp only [List.mem_cons, List.not_mem_nil, or_false]
  rintro _ (rfl | rfl | rfl | rfl | rfl)
  · norm_num
  · norm_num
  · norm_num
  · norm_num
  · norm_num
theorem prime_107615843 : Nat.Prime 107615843 := by
  refine prime_of_lucasCheck _ 2 [2, 43, 103, 12149] (by decide) ?_ (by decide +kernel)
  simp only [List.mem_cons, List.not_mem_nil, or_false]
  rintro _ (rfl | rfl | rfl | rfl)
  · norm_num
  · norm_num
  · norm_num
  · norm_num
theorem prime_117774739 : Nat.Prime 117774739 := by
  refine prime_of_lucasCheck _ 2 [2, 3, 3, 59, 110899] (by decide) ?_ (by decide +kernel)
  simp only [List.mem_cons, List.not_mem_nil, or_false]
  rintro _ (rfl | rfl | rfl | rfl | rfl)
  · norm_num
  · norm_num
  · norm_num
  · norm_num
  · norm_num
theorem prime_1413296869 : Nat.Prime 1413296869 := by
  refine prime_of_lucasCheck _ 6 [2, 2, 3, 117774739] (by decide) ?_ (by decide +kernel)
  simp only [List.mem_cons, List.not_mem_nil, or_false]
  rintro _ (rfl | rfl | rfl | rfl)
  · norm_num
  · norm_num
  · norm_num
  · exact prime_117774739
theorem prime_2566129871 : Nat.Prime 2566129871 := by
  refine prime_of_lucasCheck _ 7 [2, 5, 3049, 84163] (by decide) ?_ (by decide +kernel)
  simp only [List.mem_cons, List.not_mem_nil, or_false]
  rintro _ (rfl | rfl | rfl | rfl)
  · norm_num
  · norm_num
  · norm_num
  · norm_num
theorem prime_3017783777 : Nat.Prime 3017783777 := by
  refine prime_of_lucasCheck _ 3 [2, 2, 2, 2, 2, 7, 7, 337, 5711] (by decide) ?_ (by decide +kernel)
  simp only [List.mem_cons, List.not_mem_nil, or_false]
  rintro _ (rfl | rfl | rfl | rfl | rfl | rfl | rfl | rfl | rfl)
  · norm_num
  · norm_num
  · norm_num
  · norm_num
  · norm_num
  · norm_num
  · norm_num
  · norm_num
  · norm_num
theorem prime_348253387243 : Nat.Prime 348253387243 := by
  refine prime_of_lucasCheck _ 3 [2, 3, 61, 5303, 179429] (by decide) ?_ (by decide +kernel)
  simp only [List.mem_cons, List.not_mem_nil, or_false]
  rintro _ (rfl | rfl | rfl | rfl | rfl)
  · norm_num
  · norm_num
  · norm_num
  · norm_num
  · norm_num
theorem prime_2368433183657 : Nat.Prime 2368433183657 := by
  refine prime_of_lucasCheck _ 3 [2, 2, 2, 41, 719, 10042883] (by decide) ?_ (by decide +kernel)
  simp only [List.mem_cons, List.not_mem_nil, or_false]
  rintro _ (rfl | rfl | rfl | rfl | rfl | rfl)
  · norm_num
  · norm_num
  · norm_num
  · norm_num
  · norm_num
  · exact prime_10042883
theorem prime_4641351449027 : Nat.Prime 4641351449027 := by
  refine prime_of_lucasCheck _ 2 [2, 769, 3017783777] (by decide) ?_ (by decide +kernel)
  simp only [List.mem_cons, List.not_mem_nil, or_false]
  rintro _ (rfl | rfl | rfl)
  · norm_num
  · norm_num
  · exact prime_3017783777
theorem prime_5636460199499 : Nat.Prime 5636460199499 := by
  refine prime_of_lucasCheck _ 2 [2, 31, 79, 127, 9061163] (by decide) ?_ (by decide +kernel)
  simp only [List.mem_cons, List.not_mem_nil, or_false]
  rintro _ (rfl | rfl | rfl | rfl | rfl)
  · norm_num
  · norm_num
  · norm_num
  · norm_num
  · exact prime_9061163
theorem prime_101456283590983 : Nat.Prime 101456283590983 := by
  refine prime_of_lucasCheck _ 3 [2, 3, 3, 5636460199499] (by decide) ?_ (by decide +kernel)
  simp only [List.mem_cons, List.not_mem_nil, or_false]
  rintro _ (rfl | rfl | rfl | rfl)
  · norm_num
  · norm_num
  · norm_num
  · exact prime_5636460199499
theorem prime_417514796639753 : Nat.Prime 417514796639753 := by
  refine prime_of_lucasCheck _ 3 [2, 2, 2, 7, 367, 2473, 8214737] (by decide) ?_ (by decide +kernel)
  simp only [List.mem_cons, List.not_mem_nil, or_false]
  rintro _ (rfl | rfl | rfl | rfl | rfl | rfl | rfl)
  · norm_num
  · norm_num
  · norm_num
  · norm_num
  · norm_num
  · norm_num
  · exact prime_8214737
theorem prime_3258964060712033 : Nat.Prime 3258964060712033 := by
  refine prime_of_lucasCheck _ 3 [2, 2, 2, 2, 2, 43, 2368433183657] (by decide) ?_ (by decide +kernel)
  simp only [List.mem_cons, List.not_mem_nil, or_false]
  rintro _ (rfl | rfl | rfl | rfl | rfl | rfl | rfl)
  · norm_num
  · norm_num
  · norm_num
  · norm_num
  · norm_num
  · norm_num
  · exact prime_2368433183657
theorem prime_4773264379806847 : Nat.Prime 4773264379806847 := by
  refine prime_of_lucasCheck _ 3 [2, 3, 7, 11, 823, 34511, 363761] (by decide) ?_ (by decide +kernel)
  simp only [List.mem_cons, List.not_mem_nil, or_false]
  rintro _ (rfl | rfl | rfl | rfl | rfl | rfl | rfl)
  · norm_num
  · norm_num
  · norm_num
  · norm_num
  · norm_num
  · norm_num
  · norm_num
theorem prime_66013261729388519804782124120027 : Nat.Prime 66013261729388519804782124120027 := by
  refine prime_of_lucasCheck _ 2 [2, 13, 1213, 71209, 6158099, 4773264379806847] (by decide) ?_ (by decide +kernel)
  simp only [List.mem_cons, List.not_mem_nil, or_false]
  rintro _ (rfl | rfl | rfl | rfl | rfl | rfl)
  · norm_num
  · norm_num
  · norm_num
  · norm_num
  · exact prime_6158099
  · exact prime_4773264379806847
theorem prime_18120927127286907576013935251791662753637 : Nat.Prime 18120927127286907576013935251791662753637 := by
  refine prime_of_lucasCheck _ 6 [2, 2, 3, 3, 17965699, 107615843, 2566129871, 101456283590983] (by decide) ?_ (by decide +kernel)
  simp only [List.mem_cons, List.not_mem_nil, or_false]
  rintro _ (rfl | rfl | rfl | rfl | rfl | rfl | rfl | rfl)
  · norm_num
  · norm_num
  · norm_num
  · norm_num
  · exact prime_17965699
  · exact prime_107615843
  · exact prime_2566129871
  · exact prime_101456283590983
theorem prime_125197554539772723432468576818475380947471091418362477724521 : Nat.Prime 125197554539772723432468576818475380947471091418362477724521 := by
  refine prime_of_lucasCheck _ 3 [2, 2, 2, 5, 53, 3258964060712033, 18120927127286907576013935251791662753637] (by decide) ?_ (by decide +kernel)
  simp only [List.mem_cons, List.not_mem_nil, or_false]
  rintro _ (rfl | rfl | rfl | rfl | rfl | rfl | rfl)
  · norm_num
  · norm_num
  · norm_num
  · norm_num
  · norm_num
  · exact prime_3258964060712033
  · exact prime_18120927127286907576013935251791662753637
/-- n is prime (R14). -/
theorem prime_n : Nat.Prime Config.n := by
  refine prime_of_lucasCheck _ 3 [2, 3, 7759, 14057, 1413296869, 125197554539772723432468576818475380947471091418362477724521] (by decide) ?_ (by decide +kernel)
  simp only [List.mem_cons, List.not_mem_nil, or_false]
  rintro _ (rfl | rfl | rfl | rfl | rfl | rfl)
  · norm_num
  · norm_num
  · norm_num
  · norm_num
  · exact prime_1413296869
  · exact prime_125197554539772723432468576818475380947471091418362477724521
/-- p is prime (R14). -/
theorem prime_p : Nat.Prime Config.p := by
  refine prime_of_lucasCheck _ 13 [2, 43, 30223, 348253387243, 4641351449027, 417514796639753, 66013261729388519804782124120027] (by decide) ?_ (by decide +kernel)
  simp only [List.mem_cons, List.not_mem_nil, or_false]
  rintro _ (rfl | rfl | rfl | rfl | rfl | rfl | rfl)
  · norm_num
  · norm_num
  · norm_num
  · exact prime_348253387243
  · exact prime_4641351449027
  · exact prime_417514796639753
  · exact prime_66013261729388519804782124120027

end Machine
end Sys2Proof
end

