-- ==== Sys2Proof/Laws/Curve.lean ====
section
/-! SUPPORT. The group law: the engine's Add, Dbl and Mul (42_point.md R107–R109) on points of the curve are those of
the elliptic curve over the field of p elements, so Mul(k, Q) is the group multiple. -/

namespace Sys2Proof
namespace Machine

open WeierstrassCurve

theorem fact_prime_p : Fact (Nat.Prime Config.p) := ⟨prime_p⟩
theorem fact_prime_n : Fact (Nat.Prime Config.n) := ⟨prime_n⟩

theorem p_pos : 0 < Config.p := by decide
theorem p_lt : Config.p < 2 ^ 256 := by decide
theorem two_lt_p : 2 < Config.p := by decide
theorem n_lt_p : Config.n < Config.p := by decide

/-- An integer below p is 0 in the field only if it is 0. -/
theorem cast_eq_cast_iff {x y : Nat} (hx : x < Config.p) (hy : y < Config.p) :
    ((x : Nat) : ZMod Config.p) = y ↔ x = y := by
  rw [ZMod.natCast_eq_natCast_iff', Nat.mod_eq_of_lt hx, Nat.mod_eq_of_lt hy]

theorem cast_eq_zero_iff {x : Nat} (hx : x < Config.p) : ((x : Nat) : ZMod Config.p) = 0 ↔ x = 0 := by
  simpa using cast_eq_cast_iff hx p_pos

theorem cast_ne_zero_of_lt {x : Nat} (h0 : 0 < x) (hx : x < Config.p) : ((x : Nat) : ZMod Config.p) ≠ 0 := by
  rw [Ne, cast_eq_zero_iff hx]
  omega

@[simp] theorem add_inf_left (q : Point) : add .inf q = q := rfl
@[simp] theorem add_inf_right (q : Point) : add q .inf = q := by cases q <;> rfl
@[simp] theorem dbl_inf : dbl .inf = .inf := rfl

theorem dbl_aff (x y : Nat) :
    dbl (.aff x y) =
      if y = 0 then .inf
      else chordPoint (mulMod Config.p (3 * x * x + Config.a) (invMod Config.p (2 * y))) x y x := rfl

theorem add_aff (x1 y1 x2 y2 : Nat) :
    add (.aff x1 y1) (.aff x2 y2) =
      if x1 = x2 then if y1 = y2 ∧ y1 ≠ 0 then dbl (.aff x1 y1) else .inf
      else
        chordPoint (mulMod Config.p (subMod Config.p y2 y1) (invMod Config.p (subMod Config.p x2 x1))) x1 y1 x2 := rfl

/-- The curve of R13 over the field of p elements. -/
def curve : WeierstrassCurve.Affine (ZMod Config.p) := ⟨0, 0, 0, (Config.a : ZMod Config.p), (Config.b : ZMod Config.p)⟩

theorem onCurve_iff (x y : Nat) : onCurve (.aff x y) = true ↔ curve.Equation (x : ZMod Config.p) y := by
  rw [Affine.equation_iff]
  simp only [onCurve, curveRhs, beq_iff_eq, curve]
  rw [← ZMod.natCast_eq_natCast_iff']
  push_cast
  constructor <;> intro h <;> linear_combination h

theorem smul_double {A : Type*} [AddCommGroup A] (m k : Nat) (x y : A) :
    m • (x + x) + k • y = (m * 2) • x + k • y := by rw [mul_smul, two_smul]

theorem smul_double_add {A : Type*} [AddCommGroup A] (m k : Nat) (x y : A) :
    m • (x + x + y) + k • y = (m * 2) • x + (k + m) • y := by
  rw [mul_smul, two_smul, smul_add, add_smul]
  abel

theorem smul_zero_add {A : Type*} [AddCommGroup A] (m k : Nat) (y : A) : m • (0 : A) + k • y = k • y := by
  rw [smul_zero, zero_add]

theorem eq_smul_one {A : Type*} [AddCommGroup A] (x y : A) : x = 1 • x + 0 • y := by
  rw [one_smul, zero_smul, add_zero]

section Field
variable [Fact (Nat.Prime Config.p)]

theorem curve_disc_ne_zero : curve.Δ ≠ 0 := by
  have hd : curve.Δ = -((16 * (4 * Config.a ^ 3 + 27 * Config.b ^ 2) : Nat) : ZMod Config.p) := by
    simp only [WeierstrassCurve.Δ, WeierstrassCurve.b₂, WeierstrassCurve.b₄, WeierstrassCurve.b₆,
      WeierstrassCurve.b₈, curve]
    push_cast
    ring
  rw [hd, neg_ne_zero, Ne, ZMod.natCast_eq_zero_iff]
  decide +kernel

theorem nonsingular_of_onCurve {x y : Nat} (h : onCurve (.aff x y) = true) :
    curve.Nonsingular (x : ZMod Config.p) y :=
  (Affine.equation_iff_nonsingular_of_Δ_ne_zero curve_disc_ne_zero).1 ((onCurve_iff x y).1 h)

open Classical in
/-- The point of the elliptic curve that an engine point stands for. -/
noncomputable def toE : Point → curve.Point
  | .inf => 0
  | .aff x y => if h : curve.Nonsingular (x : ZMod Config.p) y then .some _ _ h else 0

@[simp] theorem toE_inf : toE .inf = 0 := rfl

theorem toE_aff {x y : Nat} (h : onCurve (.aff x y) = true) :
    toE (.aff x y) = .some _ _ (nonsingular_of_onCurve h) := by
  rw [toE, dif_pos (nonsingular_of_onCurve h)]

theorem toE_inj {q r : Point} (hq : q.Valid) (hr : r.Valid) (h : toE q = toE r) : q = r := by
  cases q with
  | inf =>
    cases r with
    | inf => rfl
    | aff x y => rw [toE_aff hr.2] at h; exact absurd h.symm (Affine.Point.some_ne_zero _)
  | aff x y =>
    cases r with
    | inf => rw [toE_aff hq.2] at h; exact absurd h (Affine.Point.some_ne_zero _)
    | aff x' y' =>
      rw [toE_aff hq.2, toE_aff hr.2] at h
      injection h with h1 h2
      rw [(cast_eq_cast_iff hq.1.1 hr.1.1).1 h1, (cast_eq_cast_iff hq.1.2 hr.1.2).1 h2]

theorem cast_inv_p (v : Nat) : ((invMod Config.p v : Nat) : ZMod Config.p) = (v : ZMod Config.p)⁻¹ :=
  cast_invMod _ _ two_lt_p p_lt

theorem negY_curve (x y : ZMod Config.p) : curve.negY x y = -y := by simp [Affine.negY, curve]

/-- A point with the coordinates `chordPoint` computes. -/
theorem chordPoint_spec (l x1 y1 x2 : Nat) :
    ∃ x3 y3, chordPoint l x1 y1 x2 = .aff x3 y3 ∧ x3 < Config.p ∧ y3 < Config.p
      ∧ (x3 : ZMod Config.p) = curve.addX (x1 : ZMod Config.p) x2 l
      ∧ (y3 : ZMod Config.p) = curve.addY (x1 : ZMod Config.p) x2 y1 l := by
  refine ⟨_, _, rfl, subMod_lt _ _ _ p_pos, subMod_lt _ _ _ p_pos, ?_, ?_⟩
  · simp only [cast_subMod _ _ _ p_pos, Nat.cast_mul, Affine.addX, curve]
    ring
  · simp only [cast_subMod _ _ _ p_pos, Nat.cast_mul, Affine.addX, Affine.addY, Affine.negAddY, Affine.negY, curve]
    ring

/-- The point with these casts is valid and stands for this curve point. -/
theorem toE_of_cast {x y : Nat} {X Y : ZMod Config.p} (hX : (x : ZMod Config.p) = X) (hY : (y : ZMod Config.p) = Y)
    (h : curve.Nonsingular X Y) (hx : x < Config.p) (hy : y < Config.p) :
    (Point.aff x y).Valid ∧ toE (.aff x y) = .some X Y h := by
  subst hX hY
  have hc : onCurve (.aff x y) = true := (onCurve_iff x y).2 h.1
  exact ⟨⟨⟨hx, hy⟩, hc⟩, toE_aff hc⟩

/-- R108: Dbl is the group's doubling. -/
theorem toE_dbl {q : Point} (hq : q.Valid) : (dbl q).Valid ∧ toE (dbl q) = toE q + toE q := by
  cases q with
  | inf => exact ⟨⟨trivial, rfl⟩, by simp⟩
  | aff x y =>
    have hn := nonsingular_of_onCurve hq.2
    rw [toE_aff hq.2, dbl_aff]
    split
    · rename_i h0
      refine ⟨⟨trivial, rfl⟩, ?_⟩
      subst h0
      rw [toE_inf, Affine.Point.add_self_of_Y_eq (by rw [negY_curve, Nat.cast_zero, neg_zero])]
    · rename_i h0
      have h2 : (2 : ZMod Config.p) ≠ 0 := by
        have := cast_ne_zero_of_lt (x := 2) (by decide) two_lt_p
        simpa using this
      have hy0 : (y : ZMod Config.p) ≠ 0 := by
        rw [Ne, cast_eq_zero_iff hq.1.2]; exact h0
      have hne : (y : ZMod Config.p) ≠ curve.negY x y := by
        rw [negY_curve]
        intro h
        have : (2 : ZMod Config.p) * y = 0 := by linear_combination h
        rcases mul_eq_zero.1 this with h | h
        · exact h2 h
        · exact hy0 h
      obtain ⟨x3, y3, he, hx3, hy3, hcx, hcy⟩ :=
        chordPoint_spec (mulMod Config.p (3 * x * x + Config.a) (invMod Config.p (2 * y))) x y x
      have hl : ((mulMod Config.p (3 * x * x + Config.a) (invMod Config.p (2 * y)) : Nat) : ZMod Config.p)
          = curve.slope x x y y := by
        rw [cast_mulMod, cast_inv_p, Affine.slope_of_Y_ne rfl hne, negY_curve]
        push_cast
        rw [div_eq_mul_inv]
        simp only [curve]
        ring_nf
      rw [hl] at hcx hcy
      rw [he, Affine.Point.add_self_of_Y_ne hne]
      exact toE_of_cast hcx hcy _ hx3 hy3

/-- R107: Add is the group's addition. -/
theorem toE_add {q r : Point} (hq : q.Valid) (hr : r.Valid) : (add q r).Valid ∧ toE (add q r) = toE q + toE r := by
  cases q with
  | inf => exact ⟨by simpa using hr, by simp⟩
  | aff x1 y1 =>
    cases r with
    | inf => exact ⟨by simpa using hq, by simp⟩
    | aff x2 y2 =>
      have hn1 := nonsingular_of_onCurve hq.2
      have hn2 := nonsingular_of_onCurve hr.2
      rw [add_aff]
      split
      · rename_i hx
        subst hx
        split
        · rename_i h
          obtain ⟨rfl, -⟩ := h
          exact toE_dbl hq
        · rename_i h
          refine ⟨⟨trivial, rfl⟩, ?_⟩
          rw [toE_aff hq.2, toE_aff hr.2, toE_inf, Affine.Point.add_of_Y_eq rfl]
          rcases Affine.Y_eq_of_X_eq hn1.1 hn2.1 rfl with hy | hy
          · have hyy := (cast_eq_cast_iff hq.1.2 hr.1.2).1 hy
            have : y1 = 0 := by
              by_contra h0
              exact h ⟨hyy, h0⟩
            subst hyy this
            rw [negY_curve, Nat.cast_zero, neg_zero]
          · exact hy
      · rename_i hx
        have hne : (x1 : ZMod Config.p) ≠ x2 := by
          rw [Ne, cast_eq_cast_iff hq.1.1 hr.1.1]; exact hx
        rw [toE_aff hq.2, toE_aff hr.2, Affine.Point.add_of_X_ne hne]
        obtain ⟨x3, y3, he, hx3, hy3, hcx, hcy⟩ :=
          chordPoint_spec (mulMod Config.p (subMod Config.p y2 y1) (invMod Config.p (subMod Config.p x2 x1))) x1 y1 x2
        have hl : ((mulMod Config.p (subMod Config.p y2 y1) (invMod Config.p (subMod Config.p x2 x1)) : Nat)
            : ZMod Config.p) = curve.slope x1 x2 y1 y2 := by
          rw [cast_mulMod, cast_inv_p, Affine.slope_of_X_ne hne, cast_subMod _ _ _ p_pos, cast_subMod _ _ _ p_pos,
            ← div_eq_mul_inv, ← neg_sub (y1 : ZMod Config.p), ← neg_sub (x1 : ZMod Config.p), neg_div_neg_eq]
        rw [hl] at hcx hcy
        rw [he]
        exact toE_of_cast hcx hcy _ hx3 hy3

/-- The loop of R109 from R: 2^i times R and the low bits of k times Q. -/
theorem toE_mulLoop {q : Point} (hq : q.Valid) (k i : Nat) {r : Point} (hr : r.Valid) :
    (mulLoop k q i r).Valid ∧ toE (mulLoop k q i r) = 2 ^ i • toE r + (k % 2 ^ i) • toE q := by
  induction i generalizing r with
  | zero =>
    refine ⟨hr, ?_⟩
    rw [mulLoop, Nat.pow_zero, Nat.mod_one]
    exact eq_smul_one _ _
  | succ i ih =>
    have hd := toE_dbl hr
    have hb : k % 2 ^ (i + 1) = k % 2 ^ i + 2 ^ i * (k.testBit i).toNat := by
      rw [Nat.testBit_eq_decide_div_mod_eq, Nat.pow_succ, Nat.mod_mul]
      rcases Nat.mod_two_eq_zero_or_one (k / 2 ^ i) with h | h <;> simp [h]
    unfold mulLoop
    cases hbit : k.testBit i with
    | false =>
      obtain ⟨hv, he⟩ := ih hd.1
      refine ⟨by simpa using hv, ?_⟩
      simp only [Bool.false_eq_true, if_false]
      rw [he, hd.2, hb, hbit, Bool.toNat_false, Nat.mul_zero, Nat.add_zero, Nat.pow_succ]
      exact smul_double _ _ _ _
    | true =>
      have ha := toE_add hd.1 hq
      obtain ⟨hv, he⟩ := ih ha.1
      refine ⟨by simpa using hv, ?_⟩
      simp only [if_true]
      rw [he, ha.2, hd.2, hb, hbit, Bool.toNat_true, Nat.mul_one, Nat.pow_succ]
      exact smul_double_add _ _ _ _

/-- R109: Mul(k, Q) is the group multiple k·Q, a point of the curve. -/
theorem toE_mul {q : Point} (hq : q.Valid) (k : Nat) (hk : k < 2 ^ 256) :
    (mul k q).Valid ∧ toE (mul k q) = k • toE q := by
  obtain ⟨hv, he⟩ := toE_mulLoop hq k 256 (r := .inf) ⟨trivial, rfl⟩
  refine ⟨hv, ?_⟩
  rw [Nat.mod_eq_of_lt hk] at he
  exact he.trans (smul_zero_add _ _ _)

end Field

end Machine
end Sys2Proof
end

