-- ==== Sys2Proof/Laws/Group.lean ====
section
/-! SUPPORT. The scalar multiple as integers see it: Mul is additive and commutes (42_point.md R109), the base point
has order n (00_scope.md R14), and a multiple of G by 1 ≤ k < n is finite. -/

namespace Sys2Proof
namespace Machine

theorem valid_inf : Point.inf.Valid := ⟨trivial, rfl⟩

/-- G is on the curve (R14). -/
theorem valid_basePoint : basePoint.Valid := ⟨⟨by decide, by decide⟩, by decide +kernel⟩

/-- Dbl, Add and Mul stay on the curve. -/
theorem valid_dbl {q : Point} (hq : q.Valid) : (dbl q).Valid := by
  have := fact_prime_p
  exact (toE_dbl hq).1

theorem valid_add {q r : Point} (hq : q.Valid) (hr : r.Valid) : (add q r).Valid := by
  have := fact_prime_p
  exact (toE_add hq hr).1

theorem valid_mul {q : Point} (hq : q.Valid) (k : Nat) : (mul k q).Valid := by
  have := fact_prime_p
  exact (toE_mulLoop hq k 256 valid_inf).1

/-- Mul(j, Q) + Mul(k, Q) = Mul(j + k, Q). -/
theorem add_mul_mul {q : Point} (hq : q.Valid) (j k : Nat) (h : j + k < 2 ^ 256) :
    add (mul j q) (mul k q) = mul (j + k) q := by
  have := fact_prime_p
  have hj := toE_mul hq j (by omega)
  have hk := toE_mul hq k (by omega)
  have ha := toE_add hj.1 hk.1
  refine toE_inj ha.1 (valid_mul hq _) ?_
  rw [ha.2, hj.2, hk.2, (toE_mul hq (j + k) h).2]
  exact (add_smul _ _ _).symm

/-- Mul(j, Mul(k, Q)) = Mul(k, Mul(j, Q)). -/
theorem mul_mul_comm {q : Point} (hq : q.Valid) (j k : Nat) (hj : j < 2 ^ 256) (hk : k < 2 ^ 256) :
    mul j (mul k q) = mul k (mul j q) := by
  have := fact_prime_p
  have h1 := toE_mul hq j hj
  have h2 := toE_mul hq k hk
  refine toE_inj (valid_mul h2.1 _) (valid_mul h1.1 _) ?_
  rw [(toE_mul h2.1 j hj).2, h2.2, (toE_mul h1.1 k hk).2, h1.2]
  exact smul_comm _ _ _

/-- n·G is the point at infinity (R14), by the loop of R109 in the kernel. -/
theorem mul_n_basePoint : mul Config.n basePoint = .inf := by decide +kernel

theorem n_lt : Config.n < 2 ^ 256 := by decide

/-- Multiples of G agree exactly when the scalars agree mod n. -/
theorem smul_basePoint_eq_iff [Fact (Nat.Prime Config.p)] (j k : Nat) :
    j • toE basePoint = k • toE basePoint ↔ j % Config.n = k % Config.n := by
  have h0 : Config.n • toE basePoint = 0 := by
    rw [← (toE_mul valid_basePoint Config.n n_lt).2, mul_n_basePoint, toE_inf]
  have hne : toE basePoint ≠ 0 := by
    intro h
    exact absurd (toE_inj valid_basePoint valid_inf (by rw [h, toE_inf])) (by decide)
  have hord : addOrderOf (toE basePoint) = Config.n :=
    addOrderOf_eq_prime (hp := ⟨prime_n⟩) h0 hne
  rw [← hord]
  exact nsmul_eq_nsmul_iff_modEq

/-- Mul(k, G) depends on k mod n only. -/
theorem mul_basePoint_eq_iff (j k : Nat) (hj : j < 2 ^ 256) (hk : k < 2 ^ 256) :
    mul j basePoint = mul k basePoint ↔ j % Config.n = k % Config.n := by
  have := fact_prime_p
  have h1 := toE_mul valid_basePoint j hj
  have h2 := toE_mul valid_basePoint k hk
  rw [← smul_basePoint_eq_iff, ← h1.2, ← h2.2]
  exact ⟨fun h => by rw [h], toE_inj h1.1 h2.1⟩

/-- A multiple of G by 1 ≤ k < n is a finite point (46_ecies.md R133, 44_keys.md R125). -/
theorem mul_basePoint_ne_inf (k : Nat) (h1 : 1 ≤ k) (h2 : k < Config.n) : mul k basePoint ≠ .inf := by
  rw [← mul_n_basePoint, Ne, mul_basePoint_eq_iff _ _ (h2.trans n_lt) n_lt, Nat.mod_self, Nat.mod_eq_of_lt h2]
  omega

end Machine
end Sys2Proof
end

