-- ==== Sys2Proof/Laws/Order.lean ====
section
/-! SUPPORT. The group of the curve has exactly n points (00_scope.md R14): n divides its order, the order is at most
2p + 1, and it is odd because x³ + a·x + b has no root mod p. So n·Q = O for EVERY point of the curve. -/

namespace Sys2Proof
namespace Machine

open WeierstrassCurve

/-! ### x³ + a·x + b has no root mod p -/

/-- A polynomial c0 + c1·X + c2·X² modulo x³ + a·x + b. -/
structure Quad where
  c0 : Nat
  c1 : Nat
  c2 : Nat
deriving DecidableEq

/-- The product modulo x³ + a·x + b, coefficients mod p. -/
def quadMul : Quad → Quad → Quad
  | ⟨u0, u1, u2⟩, ⟨v0, v1, v2⟩ =>
    ⟨(u0 * v0 + (Config.p - Config.b) * (u1 * v2 + u2 * v1)) % Config.p,
      (u0 * v1 + u1 * v0 + (Config.p - Config.a) * (u1 * v2 + u2 * v1) + (Config.p - Config.b) * (u2 * v2)) % Config.p,
      (u0 * v2 + u1 * v1 + u2 * v0 + (Config.p - Config.a) * (u2 * v2)) % Config.p⟩

def quadSq (u : Quad) : Quad := quadMul u u

/-- X^e by square and multiply. -/
def quadPow : (k e : Nat) → Quad
  | 0, _ => ⟨1, 0, 0⟩
  | k + 1, e =>
    if e % 2 = 1 then quadMul (quadSq (quadPow k (e / 2))) ⟨0, 1, 0⟩ else quadSq (quadPow k (e / 2))

/-- The value of the polynomial at x. -/
def Quad.eval (u : Quad) (x : ZMod Config.p) : ZMod Config.p := u.c0 + u.c1 * x + u.c2 * x ^ 2

theorem eval_quadMul (u v : Quad) (x : ZMod Config.p) (h : x ^ 3 + Config.a * x + Config.b = 0) :
    (quadMul u v).eval x = u.eval x * v.eval x := by
  obtain ⟨u0, u1, u2⟩ := u
  obtain ⟨v0, v1, v2⟩ := v
  simp only [quadMul, Quad.eval, ZMod.natCast_mod, Nat.cast_add, Nat.cast_mul,
    Nat.cast_sub (show Config.a ≤ Config.p by decide), Nat.cast_sub (show Config.b ≤ Config.p by decide),
    ZMod.natCast_self]
  linear_combination (-((u1 : ZMod Config.p) * v2 + u2 * v1) - x * (u2 * v2)) * h

theorem eval_quadPow (k e : Nat) (he : e < 2 ^ k) (x : ZMod Config.p) (h : x ^ 3 + Config.a * x + Config.b = 0) :
    (quadPow k e).eval x = x ^ e := by
  induction k generalizing e with
  | zero =>
    obtain rfl : e = 0 := by simpa using he
    simp [quadPow, Quad.eval]
  | succ k ih =>
    have h2 : e / 2 < 2 ^ k := by rw [Nat.pow_succ] at he; omega
    have hs : (quadSq (quadPow k (e / 2))).eval x = x ^ (2 * (e / 2)) := by
      rw [quadSq, eval_quadMul _ _ _ h, ih _ h2, ← pow_add, two_mul]
    unfold quadPow
    split
    · rw [eval_quadMul _ _ _ h, hs]
      simp only [Quad.eval, Nat.cast_zero, Nat.cast_one, zero_add, one_mul, zero_mul, add_zero, ← pow_succ]
      congr 1
      omega
    · rw [hs]
      congr 1
      omega

/-- X^p − X modulo x³ + a·x + b. -/
def frobeniusMinusX : Quad :=
  ⟨(quadPow 256 Config.p).c0, (quadPow 256 Config.p).c1 + (Config.p - 1), (quadPow 256 Config.p).c2⟩

/-- Its inverse modulo x³ + a·x + b. -/
def frobeniusInverse : Quad :=
  ⟨0xeb9539fb12a69fa8a00429afc717f1319f0c8d5b6b742939772c4ea8ae886749,
    0xbbea3c6e4f9890bc31aef1ce9abbeaf4847d5c84bfa4437849cb29256264e8b1,
    0x4eacc0d01f9e2a10d4f0056c0628ef26e06a3759ce9c5557561509c6fc21376f⟩

theorem frobenius_unit : quadMul frobeniusInverse frobeniusMinusX = ⟨1, 0, 0⟩ := by decide +kernel

variable [Fact (Nat.Prime Config.p)]

/-- E has no point with y = 0 (R14). -/
theorem no_root (x : ZMod Config.p) : x ^ 3 + Config.a * x + Config.b ≠ 0 := by
  intro h
  have h1 := eval_quadMul frobeniusInverse frobeniusMinusX x h
  have h0 : frobeniusMinusX.eval x = 0 := by
    have hp := eval_quadPow 256 Config.p p_lt x h
    rw [ZMod.pow_card] at hp
    simp only [Quad.eval, frobeniusMinusX, Nat.cast_add, Nat.cast_sub (show 1 ≤ Config.p by decide),
      ZMod.natCast_self, Nat.cast_one] at hp ⊢
    linear_combination hp
  rw [frobenius_unit, h0, mul_zero] at h1
  simp [Quad.eval] at h1

/-! ### The order of the group -/

theorem equation_iff_curve (x y : ZMod Config.p) : curve.Equation x y ↔ y ^ 2 = x ^ 3 + Config.a * x + Config.b := by
  rw [Affine.equation_iff]
  simp only [curve]
  constructor <;> intro h <;> linear_combination h

theorem y_ne_zero {x y : ZMod Config.p} (h : curve.Nonsingular x y) : y ≠ 0 := by
  rintro rfl
  refine no_root x ?_
  rw [← (equation_iff_curve x 0).1 h.1]
  ring

/-- A point as its abscissa and the parity of its ordinate. -/
def tag : curve.Point → Option (ZMod Config.p × Bool)
  | .zero => none
  | .some x y _ => some (x, decide (y.val % 2 = 0))

theorem tag_injective : Function.Injective tag := by
  intro P Q h
  cases P with
  | zero => cases Q with
    | zero => rfl
    | some => simp [tag] at h
  | some x y hP => cases Q with
    | zero => simp [tag] at h
    | some x' y' hQ =>
      simp only [tag, Option.some.injEq, Prod.mk.injEq, decide_eq_decide] at h
      obtain ⟨rfl, hpar⟩ := h
      have hy : y = y' ∨ y = -y' := by
        have := (equation_iff_curve x y).1 hP.1
        rw [← (equation_iff_curve x y').1 hQ.1] at this
        exact sq_eq_sq_iff_eq_or_eq_neg.1 this
      rcases hy with rfl | rfl
      · rfl
      · exfalso
        have hne : y' ≠ 0 := y_ne_zero hQ
        have : NeZero y' := ⟨hne⟩
        rw [ZMod.val_neg_of_ne_zero] at hpar
        have hlt := ZMod.val_lt y'
        have hodd : Config.p % 2 = 1 := by decide
        omega

theorem finite_points : Finite curve.Point := Finite.of_injective tag tag_injective

theorem card_points_le : Nat.card curve.Point ≤ 2 * Config.p + 1 := by
  have := Nat.card_le_card_of_injective tag tag_injective
  have h2 : Nat.card Bool = 2 := by simp
  rw [Finite.card_option, Nat.card_prod, Nat.card_zmod, h2] at this
  omega

/-- The order of the group is n (R14). -/
theorem card_points : Nat.card curve.Point = Config.n := by
  have := finite_points
  have hdvd : Config.n ∣ Nat.card curve.Point := by
    have h0 : Config.n • toE basePoint = 0 := by
      rw [← (toE_mul valid_basePoint Config.n n_lt).2, mul_n_basePoint, toE_inf]
    have hne : toE basePoint ≠ 0 := fun h =>
      absurd (toE_inj valid_basePoint valid_inf (by rw [h, toE_inf])) (by decide)
    rw [← addOrderOf_eq_prime (hp := ⟨prime_n⟩) h0 hne]
    exact addOrderOf_dvd_natCard _
  have hodd : ¬ 2 ∣ Nat.card curve.Point := by
    intro h2
    have : Fact (Nat.Prime 2) := ⟨Nat.prime_two⟩
    obtain ⟨P, hP⟩ := exists_prime_addOrderOf_dvd_card' 2 h2
    cases P with
    | zero =>
      have : addOrderOf (0 : curve.Point) = 2 := hP
      rw [addOrderOf_zero] at this
      omega
    | some x y h =>
      have hd : (Affine.Point.some x y h : curve.Point) + .some x y h = 0 := by
        have := addOrderOf_nsmul_eq_zero (Affine.Point.some x y h : curve.Point)
        rw [hP] at this
        exact (two_nsmul _).symm.trans this
      have hne : y ≠ curve.negY x y := by
        rw [negY_curve]
        intro hy
        have h2' : (2 : ZMod Config.p) ≠ 0 := by
          simpa using cast_ne_zero_of_lt (x := 2) (by decide) two_lt_p
        have : (2 : ZMod Config.p) * y = 0 := by linear_combination hy
        rcases mul_eq_zero.1 this with h | h'
        · exact h2' h
        · exact y_ne_zero h h'
      rw [Affine.Point.add_self_of_Y_ne hne] at hd
      exact Affine.Point.some_ne_zero _ hd
  obtain ⟨k, hk⟩ := hdvd
  have hpos : 0 < Nat.card curve.Point := Nat.card_pos
  have hle := card_points_le
  have h3 : 2 * Config.p + 1 < 3 * Config.n := by decide
  rw [hk] at hle hpos hodd ⊢
  have hk3 : k < 3 := by
    by_contra hge
    have : Config.n * 3 ≤ Config.n * k := Nat.mul_le_mul_left _ (by omega)
    omega
  interval_cases k
  · omega
  · omega
  · exact absurd (Dvd.intro_left _ rfl) hodd

omit [Fact (Nat.Prime Config.p)] in
/-- Mul(n, Q) = O for every point of the curve (42_point.md R109). -/
theorem mul_n {q : Point} (hq : q.Valid) : mul Config.n q = .inf := by
  have := fact_prime_p
  have hm := toE_mul hq Config.n n_lt
  refine toE_inj hm.1 valid_inf ?_
  rw [hm.2, toE_inf, ← card_points]
  exact card_nsmul_eq_zero'

omit [Fact (Nat.Prime Config.p)] in
/-- A finite point of the curve has order n: Mul(j, Q) = Mul(k, Q) exactly when j and k agree mod n. -/
theorem mul_eq_mul_iff {q : Point} (hq : q.Valid) (hf : q ≠ .inf) (j k : Nat) (hj : j < 2 ^ 256) (hk : k < 2 ^ 256) :
    mul j q = mul k q ↔ j % Config.n = k % Config.n := by
  have := fact_prime_p
  have h0 : Config.n • toE q = 0 := by rw [← (toE_mul hq Config.n n_lt).2, mul_n hq, toE_inf]
  have hne : toE q ≠ 0 := fun h => hf (toE_inj hq valid_inf (by rw [h, toE_inf]))
  have hord : addOrderOf (toE q) = Config.n := addOrderOf_eq_prime (hp := ⟨prime_n⟩) h0 hne
  have h1 := toE_mul hq j hj
  have h2 := toE_mul hq k hk
  have : j • toE q = k • toE q ↔ j % Config.n = k % Config.n := by
    rw [← hord]
    exact nsmul_eq_nsmul_iff_modEq
  rw [← this, ← h1.2, ← h2.2]
  exact ⟨fun h => by rw [h], toE_inj h1.1 h2.1⟩

omit [Fact (Nat.Prime Config.p)] in
/-- A multiple of a finite point of the curve by 1 ≤ k < n is finite (46_ecies.md R133, R134). -/
theorem mul_ne_inf {q : Point} (hq : q.Valid) (hf : q ≠ .inf) (k : Nat) (h1 : 1 ≤ k) (h2 : k < Config.n) :
    mul k q ≠ .inf := by
  rw [← mul_n hq, Ne, mul_eq_mul_iff hq hf _ _ (h2.trans n_lt) n_lt, Nat.mod_self, Nat.mod_eq_of_lt h2]
  omega

/-! ### The facts of R14 -/

/-- The curve's points as the model has them are the points of Mathlib's curve. -/
theorem toE_bijective : Function.Bijective fun q : { q : Point // q.Valid } => toE q.1 := by
  refine ⟨fun q r h => Subtype.ext (toE_inj q.2 r.2 h), fun P => ?_⟩
  cases P with
  | zero => exact ⟨⟨.inf, valid_inf⟩, rfl⟩
  | some x y h =>
    have hv := toE_of_cast (ZMod.natCast_zmod_val x) (ZMod.natCast_zmod_val y) h (ZMod.val_lt x) (ZMod.val_lt y)
    exact ⟨⟨_, hv.1⟩, hv.2⟩

omit [Fact (Nat.Prime Config.p)] in
theorem card_valid : Nat.card { q : Point // q.Valid } = Config.n := by
  have := fact_prime_p
  rw [Nat.card_eq_of_bijective _ toE_bijective, card_points]

omit [Fact (Nat.Prime Config.p)] in
/-- The model's constants meet every fact of 00_scope.md R14. -/
theorem curveFacts : CurveFacts := by
  have := fact_prime_p
  refine ⟨prime_p, prime_n, by decide, by decide, by decide, valid_basePoint, mul_n_basePoint, by decide +kernel,
    by decide, by decide, ?_, rfl, ?_⟩
  · rw [card_valid, Config.cofactor, one_mul]
  · rintro x y hv rfl
    exact y_ne_zero (nonsingular_of_onCurve hv.2) Nat.cast_zero

end Machine
end Sys2Proof
end

