-- ==== Sys2Proof/Laws/Algebra.lean ====
section
/-! SUPPORT. The model's field and curve operations against the integer congruences of the rules (41_modular.md R100, R101;
42_point.md R104–R108; 44_keys.md R123). -/

namespace Sys2Proof
namespace Machine

/-- An integer is 0 mod p exactly when it is 0 in the field. -/
theorem emod_p_iff (z : Int) : z % Config.p = 0 ↔ ((z : Int) : ZMod Config.p) = 0 := by
  rw [ZMod.intCast_zmod_eq_zero_iff_dvd]
  exact (Int.dvd_iff_emod_eq_zero).symm

theorem mod_p_eq_iff (a b : Nat) : a % Config.p = b % Config.p ↔ ((a : Nat) : ZMod Config.p) = b :=
  (ZMod.natCast_eq_natCast_iff' a b Config.p).symm

theorem mod_p_eq_zero_iff (a : Nat) : a % Config.p = 0 ↔ ((a : Nat) : ZMod Config.p) = 0 := by
  rw [ZMod.natCast_eq_zero_iff, Nat.dvd_iff_mod_eq_zero]

/-- R106's predicate is the curve equation over the integers mod p. -/
theorem onCurve_iff_curveEq (x y : Nat) : onCurve (.aff x y) = true ↔ CurveEq x y := by
  have := fact_prime_p
  rw [onCurve_iff, equation_iff_curve, CurveEq, emod_p_iff]
  push_cast
  constructor <;> intro h <;> linear_combination h

theorem keyValid_iff (t : Triple) : keyValid t = true ↔ GoodKey t := by
  simp only [keyValid, GoodKey, Bool.and_eq_true, beq_iff_eq, decide_eq_true_eq, onCurve_iff_curveEq, and_assoc]

theorem privValid_iff (d : Nat) : privValid d = true ↔ 1 ≤ d ∧ d ≤ Config.n - 2 := by simp [privValid]

/-! ### The affine meaning of a triple -/

theorem aff_inf_iff (t : Triple) : aff t = .inf ↔ t.z.toNat % Config.p = 0 := by
  unfold aff
  split <;> simp_all

/-- R104 for Z ≢ 0: coordinates below p with x·Z² ≡ X and y·Z³ ≡ Y. -/
theorem aff_spec (t : Triple) (hz : t.z.toNat % Config.p ≠ 0) :
    ∃ x y, aff t = .aff x y ∧ x < Config.p ∧ y < Config.p
      ∧ (x : ZMod Config.p) * (t.z.toNat : ZMod Config.p) ^ 2 = (t.x.toNat : ZMod Config.p)
      ∧ (y : ZMod Config.p) * (t.z.toNat : ZMod Config.p) ^ 3 = (t.y.toNat : ZMod Config.p) := by
  have := fact_prime_p
  have hz' : (t.z.toNat : ZMod Config.p) ≠ 0 := fun h => hz ((mod_p_eq_zero_iff _).2 h)
  refine ⟨_, _, by rw [aff, if_neg hz], Nat.mod_lt _ p_pos, Nat.mod_lt _ p_pos, ?_, ?_⟩ <;>
    · simp only [ZMod.natCast_mod, Nat.cast_mul, Nat.cast_pow, cast_inv_p]
      field_simp

/-- The coordinates a triple stands for are below p. -/
theorem aff_reduced (t : Triple) : (aff t).reduced := by
  by_cases hz : t.z.toNat % Config.p = 0
  · rw [(aff_inf_iff t).2 hz]
    trivial
  · obtain ⟨x, y, h, hx, hy, _⟩ := aff_spec t hz
    rw [h]
    exact ⟨hx, hy⟩

/-- A triple with Z = 1 and reduced coordinates stands for (X, Y). -/
theorem aff_one {t : Triple} (hz : t.z = 1) (hx : t.x.toNat < Config.p) (hy : t.y.toNat < Config.p) :
    aff t = .aff t.x.toNat t.y.toNat := by
  have := fact_prime_p
  have h1 : t.z.toNat = 1 := by rw [hz]; rfl
  obtain ⟨x, y, h, hx', hy', h2, h3⟩ := aff_spec t (by rw [h1]; decide)
  rw [h1] at h2 h3
  simp only [Nat.cast_one, one_pow, mul_one] at h2 h3
  rw [h, (cast_eq_cast_iff hx' hx).1 h2, (cast_eq_cast_iff hy' hy).1 h3]

/-- Norm(Q) stands for Q (R105). -/
theorem aff_norm {q : Point} (hq : q.reduced) : aff (norm q) = q := by
  cases q with
  | inf => rfl
  | aff x y =>
    have hp := p_lt
    have hx : (BitVec.ofNat 256 x).toNat = x := by rw [BitVec.toNat_ofNat, Nat.mod_eq_of_lt (hq.1.trans hp)]
    have hy : (BitVec.ofNat 256 y).toNat = y := by rw [BitVec.toNat_ofNat, Nat.mod_eq_of_lt (hq.2.trans hp)]
    have := aff_one (t := norm (.aff x y)) rfl (by rw [norm, hx]; exact hq.1) (by rw [norm, hy]; exact hq.2)
    rwa [norm, hx, hy] at this

/-- The register a finite reduced point leaves. -/
theorem norm_aff {x y : Nat} (hx : x < Config.p) (hy : y < Config.p) :
    (norm (.aff x y)).x.toNat = x ∧ (norm (.aff x y)).y.toNat = y ∧ (norm (.aff x y)).z = 1 := by
  have hp := p_lt
  refine ⟨?_, ?_, rfl⟩ <;> simp only [norm, BitVec.toNat_ofNat] <;> exact Nat.mod_eq_of_lt (by omega)

/-- Norm of a finite point of the curve is a valid key (R123). -/
theorem goodKey_norm {x y : Nat} (h : (Point.aff x y).Valid) : GoodKey (norm (.aff x y)) := by
  obtain ⟨h1, h2, h3⟩ := norm_aff h.1.1 h.1.2
  exact ⟨h3, by rw [h1]; exact h.1.1, by rw [h2]; exact h.1.2, by rw [h1, h2]; exact (onCurve_iff_curveEq x y).1 h.2⟩

/-- A valid key is a finite point of the curve. -/
theorem valid_of_goodKey {t : Triple} (h : GoodKey t) : (Point.aff t.x.toNat t.y.toNat).Valid :=
  ⟨⟨h.2.1, h.2.2.1⟩, (onCurve_iff_curveEq _ _).2 h.2.2.2⟩

/-! ### The group law's formulas -/

/-- The point of a chord or tangent, as R107 and R108 write it. -/
theorem onLine_chordPoint (l x1 y1 x2 : Nat) : OnLine l x1 y1 x2 (norm (chordPoint l x1 y1 x2)) := by
  obtain ⟨h1, h2, h3⟩ := norm_aff (subMod_lt Config.p (subMod Config.p (l * l) x1) x2 p_pos)
    (subMod_lt Config.p (l * subMod Config.p x1 (subMod Config.p (subMod Config.p (l * l) x1) x2)) y1 p_pos)
  have hx := subMod_lt Config.p (subMod Config.p (l * l) x1) x2 p_pos
  have hy := subMod_lt Config.p (l * subMod Config.p x1 (subMod Config.p (subMod Config.p (l * l) x1) x2)) y1 p_pos
  unfold chordPoint
  refine ⟨h3, by rw [h1]; exact hx, by rw [h2]; exact hy, ?_, ?_⟩
  · rw [h1, emod_p_iff]
    push_cast
    simp only [cast_subMod _ _ _ p_pos, Nat.cast_mul]
    ring
  · rw [h1, h2, emod_p_iff]
    push_cast
    simp only [cast_subMod _ _ _ p_pos, Nat.cast_mul]
    ring

theorem chordSlope_mulMod {x1 x2 : Nat} (y1 y2 : Nat) (hx1 : x1 < Config.p) (hx2 : x2 < Config.p) (h : x1 ≠ x2) :
    ChordSlope (mulMod Config.p (subMod Config.p y2 y1) (invMod Config.p (subMod Config.p x2 x1))) x1 y1 x2 y2 := by
  have := fact_prime_p
  have hne : (x2 : ZMod Config.p) - x1 ≠ 0 := fun h0 => h ((cast_eq_cast_iff hx1 hx2).1 (sub_eq_zero.1 h0).symm)
  rw [ChordSlope, emod_p_iff]
  push_cast
  rw [cast_mulMod, cast_inv_p, cast_subMod _ _ _ p_pos, cast_subMod _ _ _ p_pos]
  field_simp
  ring

theorem tangentSlope_mulMod (x : Nat) {y : Nat} (hy : y < Config.p) (h : y ≠ 0) :
    TangentSlope (mulMod Config.p (3 * x * x + Config.a) (invMod Config.p (2 * y))) x y := by
  have := fact_prime_p
  have hy0 : (y : ZMod Config.p) ≠ 0 := fun h0 => h ((cast_eq_zero_iff hy).1 h0)
  have h2 : (2 : ZMod Config.p) ≠ 0 := by
    have := cast_ne_zero_of_lt (x := 2) (by decide) two_lt_p
    simpa using this
  rw [TangentSlope, emod_p_iff]
  push_cast
  rw [cast_mulMod, cast_inv_p]
  push_cast
  field_simp
  ring

/-! ### Inverses and square roots -/

theorem mul_invMod_mod {m a : Nat} (hm : m.Prime) (h2 : 2 < m) (hl : m < 2 ^ 256) (h : a % m ≠ 0) :
    a * invMod m a % m = 1 := by
  have : Fact m.Prime := ⟨hm⟩
  have ha : (a : ZMod m) ≠ 0 := by
    rw [Ne, ZMod.natCast_eq_zero_iff, Nat.dvd_iff_mod_eq_zero]
    exact h
  have h1 : ((a * invMod m a : Nat) : ZMod m) = (1 : Nat) := by
    rw [Nat.cast_mul, cast_invMod m a h2 hl, mul_inv_cancel₀ ha, Nat.cast_one]
  rw [(ZMod.natCast_eq_natCast_iff' _ _ _).1 h1, Nat.mod_eq_of_lt (by omega)]

theorem sqrtModP_eq (v : Nat) : sqrtModP v = v ^ ((Config.p + 1) / 4) % Config.p :=
  powMod_eq _ _ _ (by decide)

theorem sqrtModP_lt (v : Nat) : sqrtModP v < Config.p := powMod_lt _ _ _ p_pos

theorem cast_sqrtModP (v : Nat) : ((sqrtModP v : Nat) : ZMod Config.p) = (v : ZMod Config.p) ^ ((Config.p + 1) / 4) :=
  cast_powMod _ _ _ (by decide)

/-- R101: the candidate root squares to v exactly when v has a root (p ≡ 3 mod 4 and Euler's criterion). -/
theorem sqrtModP_sq_iff {v : Nat} (hv : v < Config.p) :
    sqrtModP v * sqrtModP v % Config.p = v ↔ ∃ r, r * r % Config.p = v := by
  have := fact_prime_p
  refine ⟨fun h => ⟨_, h⟩, fun ⟨r, hr⟩ => ?_⟩
  have hc : ((sqrtModP v * sqrtModP v : Nat) : ZMod Config.p) = (v : Nat) := by
    have hv2 : (v : ZMod Config.p) = (r : ZMod Config.p) * r := by
      rw [← hr, ZMod.natCast_mod, Nat.cast_mul]
    rw [Nat.cast_mul, cast_sqrtModP, ← pow_add, hv2, ← sq, ← pow_mul]
    have he : 2 * ((Config.p + 1) / 4 + (Config.p + 1) / 4) = Config.p - 1 + 2 := by decide
    rw [he]
    by_cases h0 : (r : ZMod Config.p) = 0
    · rw [h0, zero_pow (by decide), zero_pow (by decide)]
    · rw [pow_add, ZMod.pow_card_sub_one_eq_one h0, one_mul]
  rw [(ZMod.natCast_eq_natCast_iff' _ _ _).1 hc, Nat.mod_eq_of_lt hv]

/-- R101: the root of a square is itself a square. -/
theorem sqrtModP_isSquare {v r : Nat} (h : r * r % Config.p = v) :
    ∃ z, z * z % Config.p = sqrtModP v := by
  have := fact_prime_p
  refine ⟨r ^ ((Config.p + 1) / 4), ?_⟩
  have hv2 : (v : ZMod Config.p) = (r : ZMod Config.p) * r := by rw [← h, ZMod.natCast_mod, Nat.cast_mul]
  have hc : ((r ^ ((Config.p + 1) / 4) * r ^ ((Config.p + 1) / 4) : Nat) : ZMod Config.p) = (sqrtModP v : Nat) := by
    rw [cast_sqrtModP, hv2, Nat.cast_mul, Nat.cast_pow, mul_pow]
  rw [(ZMod.natCast_eq_natCast_iff' _ _ _).1 hc, Nat.mod_eq_of_lt (sqrtModP_lt v)]

end Machine
end Sys2Proof
end

