-- ==== Sys2Proof/Laws/Bytes.lean ====
section
/-! SUPPORT. Byte strings: the big-endian conversions against the bits of the word (20_memory.md R60, R61), the digest and
the mask byte by byte (45_hash_kdf.md R128), and XOR. -/

namespace Sys2Proof
namespace Machine

@[simp] theorem length_i2os (v k : Nat) : (i2os v k).length = k := by
  induction k generalizing v with
  | zero => rfl
  | succ k ih => simp [i2os, ih]

/-- Byte j of I2OS(v, k) is the byte of v that has k − 1 − j bytes below it (R17). -/
theorem i2os_eq (v k : Nat) : i2os v k = (List.range k).map fun j => BitVec.ofNat 8 (v / 256 ^ (k - 1 - j)) := by
  induction k generalizing v with
  | zero => rfl
  | succ k ih =>
    rw [i2os, ih, List.range_succ, List.map_append, List.map_singleton]
    congr 1
    · refine List.map_congr_left fun j hj => ?_
      have hj := List.mem_range.1 hj
      rw [Nat.div_div_eq_div_mul, ← pow_succ', show k - 1 - j + 1 = k + 1 - 1 - j by omega]
    · simp

theorem extractLsb'_eq_ofNat {w : Nat} (v : BitVec w) (i : Nat) :
    v.extractLsb' (8 * i) 8 = BitVec.ofNat 8 (v.toNat / 256 ^ i) := by
  apply BitVec.eq_of_toNat_eq
  rw [BitVec.extractLsb'_toNat, BitVec.toNat_ofNat, Nat.shiftRight_eq_div_pow, pow_mul]
  norm_num

/-- I2OS(v, 32) is the 32 bytes of the word, most significant first. -/
theorem i2os_toNat (v : U256) : i2os v.toNat 32 = be256 v := by
  rw [i2os_eq, be256]
  refine List.map_congr_left fun j hj => ?_
  rw [extractLsb'_eq_ofNat]

theorem i2os_eq_be256 (v : Nat) (h : v < 2 ^ 256) : i2os v 32 = be256 (BitVec.ofNat 256 v) := by
  rw [← i2os_toNat, BitVec.toNat_ofNat, Nat.mod_eq_of_lt h]

/-- The KDF counter's 4 bytes. -/
theorem i2os_four (c : Nat) (h : c < 2 ^ 32) : i2os c 4 = be32 (BitVec.ofNat 32 c) := by
  rw [i2os_eq, be32]
  refine List.map_congr_left fun j hj => ?_
  rw [extractLsb'_eq_ofNat, BitVec.toNat_ofNat, Nat.mod_eq_of_lt h]

@[simp] theorem length_be256 (v : U256) : (be256 v).length = 32 := by simp [be256]

theorem os2i_append_singleton (s : List Byte) (b : Byte) : os2i (s ++ [b]) = os2i s * 256 + b.toNat := by
  simp [os2i]

/-- OS2I undoes I2OS (R17). -/
theorem os2i_i2os (k v : Nat) (h : v < 256 ^ k) : os2i (i2os v k) = v := by
  induction k generalizing v with
  | zero => simp_all [i2os, os2i]
  | succ k ih =>
    rw [i2os, os2i_append_singleton, ih _ (by rw [pow_succ] at h; omega), BitVec.toNat_ofNat]
    omega

@[simp] theorem os2i_be256 (v : U256) : os2i (be256 v) = v.toNat := by
  rw [← i2os_toNat, os2i_i2os _ _ (by have := v.isLt; norm_num at this ⊢; omega)]

/-- The 32-byte strings are exactly the `be256` of words. -/
theorem be256_inj {u v : U256} (h : be256 u = be256 v) : u = v :=
  BitVec.eq_of_toNat_eq (by rw [← os2i_be256, h, os2i_be256])

/-! ### The digest and the mask -/

theorem hash_eq_be256 (m : List Byte) : hash m = be256 (Config.hashWord m) := i2os_toNat _

theorem hash_eq (m : List Byte) : hash m = (List.range 32).map (digestByte m) := by
  rw [hash_eq_be256]
  rfl

@[simp] theorem length_hash (m : List Byte) : (hash m).length = 32 := by simp [hash_eq]

theorem os2i_hash (m : List Byte) : os2i (hash m) = (Config.hashWord m).toNat := by
  rw [hash_eq_be256, os2i_be256]

theorem length_kdfBlocks (z : List Byte) (k c : Nat) : (kdfBlocks z k c).length = 32 * k := by
  induction k generalizing c with
  | zero => rfl
  | succ k ih => rw [kdfBlocks, List.length_append, ih, length_hash]; omega

/-- Byte i of the digest blocks from counter c: byte i mod 32 of the digest of counter c + i div 32. -/
theorem kdfBlocks_getElem? (z : List Byte) (k c i : Nat) (h : i < 32 * k) (hc : c + k ≤ 2 ^ 32) :
    (kdfBlocks z k c)[i]? = some (digestByte (z ++ be32 (BitVec.ofNat 32 (i / 32 + c))) (i % 32)) := by
  induction k generalizing c i with
  | zero => omega
  | succ k ih =>
    rw [kdfBlocks]
    by_cases hi : i < 32
    · rw [List.getElem?_append_left (by simpa using hi), hash_eq, i2os_four _ (by omega)]
      have h0 : i / 32 = 0 := by omega
      have h1 : i % 32 = i := by omega
      simp [hi, h0, h1]
    · rw [List.getElem?_append_right (by simpa using hi), length_hash, ih _ _ (by omega) (by omega)]
      have h0 : (i - 32) / 32 + (c + 1) = i / 32 + c := by omega
      have h1 : (i - 32) % 32 = i % 32 := by omega
      rw [h0, h1]

/-- KDF(Z, L) for every L the engine passes: no error (R129), and byte i is `maskByte` (R128). -/
theorem kdf_eq (z : List Byte) (l : Nat) (h : l < 2 ^ 32) : kdf z l = .ok ((List.range l).map (maskByte z)) := by
  have hcount : kdfCount l * 32 < l + 32 ∧ l ≤ kdfCount l * 32 := by
    unfold kdfCount Config.hlen
    omega
  rw [kdf, if_neg (by omega)]
  congr 1
  refine List.ext_getElem? fun i => ?_
  by_cases hi : i < l
  · rw [List.getElem?_take_of_lt hi, kdfBlocks_getElem? _ _ _ _ (by omega) (by omega)]
    simp [hi, maskByte]
  · rw [List.getElem?_eq_none (by rw [List.length_take, length_kdfBlocks]; omega),
      List.getElem?_eq_none (by simpa using hi)]

/-! ### XOR -/

@[simp] theorem length_xorBytes (s t : List Byte) : (xorBytes s t).length = min s.length t.length := by
  simp [xorBytes]

/-- Masking twice gives the string back. -/
theorem xorBytes_cancel (s t : List Byte) (h : s.length = t.length) : xorBytes (xorBytes s t) t = s := by
  refine List.ext_getElem (by simp [h]) fun i h1 h2 => ?_
  simp [xorBytes]

theorem xorBytes_eq_map (m : List Byte) (f : Nat → Byte) :
    xorBytes m ((List.range m.length).map f) = (List.range m.length).map fun i => m.getD i 0 ^^^ f i := by
  refine List.ext_getElem (by simp) fun i h1 h2 => ?_
  have : i < m.length := by simpa using h2
  simp [xorBytes, this]

theorem map_eq_zeros_iff (l : Nat) (f : Nat → Byte) : (List.range l).map f = zeros l ↔ ∀ i < l, f i = 0 := by
  rw [zeros]
  constructor
  · intro h i hi
    have := congrArg (fun s => s[i]?) h
    simpa [hi] using this
  · intro h
    refine List.ext_getElem (by simp) fun i h1 h2 => ?_
    have : i < l := by simpa using h2
    simp [h i this]

end Machine
end Sys2Proof
end

