-- ==== Sys2Proof/Laws/State.lean ====
section
/-! SUPPORT. One lemma per field per update of State, true by rfl: no later proof unfolds a record update. -/

namespace Sys2Proof
namespace Machine

variable (s : State)

/-! ### setW -/

@[simp] theorem setW_w (i : WReg) (v : U256) : (s.setW i v).w = s.w.set i.val v := rfl
@[simp] theorem setW_p (i : WReg) (v : U256) : (s.setW i v).p = s.p := rfl
@[simp] theorem setW_irqen (i : WReg) (v : U256) : (s.setW i v).irqen = s.irqen := rfl
@[simp] theorem setW_cmd (i : WReg) (v : U256) : (s.setW i v).cmd = s.cmd := rfl
@[simp] theorem setW_engine (i : WReg) (v : U256) : (s.setW i v).engine = s.engine := rfl
@[simp] theorem setW_done (i : WReg) (v : U256) : (s.setW i v).done = s.done := rfl
@[simp] theorem setW_err (i : WReg) (v : U256) : (s.setW i v).err = s.err := rfl
@[simp] theorem setW_errcode (i : WReg) (v : U256) : (s.setW i v).errcode = s.errcode := rfl
@[simp] theorem setW_tabv (i : WReg) (v : U256) : (s.setW i v).tabv = s.tabv := rfl
@[simp] theorem setW_wign (i : WReg) (v : U256) : (s.setW i v).wign = s.wign := rfl
@[simp] theorem setW_res (i : WReg) (v : U256) : (s.setW i v).res = s.res := rfl
@[simp] theorem setW_src (i : WReg) (v : U256) : (s.setW i v).src = s.src := rfl
@[simp] theorem setW_slen (i : WReg) (v : U256) : (s.setW i v).slen = s.slen := rfl
@[simp] theorem setW_dst (i : WReg) (v : U256) : (s.setW i v).dst = s.dst := rfl
@[simp] theorem setW_dlen (i : WReg) (v : U256) : (s.setW i v).dlen = s.dlen := rfl
@[simp] theorem setW_idaddr (i : WReg) (v : U256) : (s.setW i v).idaddr = s.idaddr := rfl
@[simp] theorem setW_idlen (i : WReg) (v : U256) : (s.setW i v).idlen = s.idlen := rfl
@[simp] theorem setW_outlen (i : WReg) (v : U256) : (s.setW i v).outlen = s.outlen := rfl
@[simp] theorem setW_tabKey (i : WReg) (v : U256) : (s.setW i v).tabKey = s.tabKey := rfl
@[simp] theorem setW_draws (i : WReg) (v : U256) : (s.setW i v).draws = s.draws := rfl
@[simp] theorem setW_dmem (i : WReg) (v : U256) : (s.setW i v).dmem = s.dmem := rfl
@[simp] theorem setW_inputs (i : WReg) (v : U256) : (s.setW i v).inputs = s.inputs := rfl
@[simp] theorem setW_resp (i : WReg) (v : U256) : (s.setW i v).resp = s.resp := rfl
@[simp] theorem setW_rng (i : WReg) (v : U256) : (s.setW i v).rng = s.rng := rfl
@[simp] theorem setW_tick (i : WReg) (v : U256) : (s.setW i v).tick = s.tick := rfl

/-! ### putW -/

@[simp] theorem putW_w (i : WReg) (v : Nat) : (s.putW i v).w = s.w.set i.val (BitVec.ofNat 256 v) := rfl
@[simp] theorem putW_p (i : WReg) (v : Nat) : (s.putW i v).p = s.p := rfl
@[simp] theorem putW_irqen (i : WReg) (v : Nat) : (s.putW i v).irqen = s.irqen := rfl
@[simp] theorem putW_cmd (i : WReg) (v : Nat) : (s.putW i v).cmd = s.cmd := rfl
@[simp] theorem putW_engine (i : WReg) (v : Nat) : (s.putW i v).engine = s.engine := rfl
@[simp] theorem putW_done (i : WReg) (v : Nat) : (s.putW i v).done = s.done := rfl
@[simp] theorem putW_err (i : WReg) (v : Nat) : (s.putW i v).err = s.err := rfl
@[simp] theorem putW_errcode (i : WReg) (v : Nat) : (s.putW i v).errcode = s.errcode := rfl
@[simp] theorem putW_tabv (i : WReg) (v : Nat) : (s.putW i v).tabv = s.tabv := rfl
@[simp] theorem putW_wign (i : WReg) (v : Nat) : (s.putW i v).wign = s.wign := rfl
@[simp] theorem putW_res (i : WReg) (v : Nat) : (s.putW i v).res = s.res := rfl
@[simp] theorem putW_src (i : WReg) (v : Nat) : (s.putW i v).src = s.src := rfl
@[simp] theorem putW_slen (i : WReg) (v : Nat) : (s.putW i v).slen = s.slen := rfl
@[simp] theorem putW_dst (i : WReg) (v : Nat) : (s.putW i v).dst = s.dst := rfl
@[simp] theorem putW_dlen (i : WReg) (v : Nat) : (s.putW i v).dlen = s.dlen := rfl
@[simp] theorem putW_idaddr (i : WReg) (v : Nat) : (s.putW i v).idaddr = s.idaddr := rfl
@[simp] theorem putW_idlen (i : WReg) (v : Nat) : (s.putW i v).idlen = s.idlen := rfl
@[simp] theorem putW_outlen (i : WReg) (v : Nat) : (s.putW i v).outlen = s.outlen := rfl
@[simp] theorem putW_tabKey (i : WReg) (v : Nat) : (s.putW i v).tabKey = s.tabKey := rfl
@[simp] theorem putW_draws (i : WReg) (v : Nat) : (s.putW i v).draws = s.draws := rfl
@[simp] theorem putW_dmem (i : WReg) (v : Nat) : (s.putW i v).dmem = s.dmem := rfl
@[simp] theorem putW_inputs (i : WReg) (v : Nat) : (s.putW i v).inputs = s.inputs := rfl
@[simp] theorem putW_resp (i : WReg) (v : Nat) : (s.putW i v).resp = s.resp := rfl
@[simp] theorem putW_rng (i : WReg) (v : Nat) : (s.putW i v).rng = s.rng := rfl
@[simp] theorem putW_tick (i : WReg) (v : Nat) : (s.putW i v).tick = s.tick := rfl

/-! ### setP -/

@[simp] theorem setP_w (i : PReg) (v : Triple) : (s.setP i v).w = s.w := rfl
@[simp] theorem setP_p (i : PReg) (v : Triple) : (s.setP i v).p = s.p.set i.val v := rfl
@[simp] theorem setP_irqen (i : PReg) (v : Triple) : (s.setP i v).irqen = s.irqen := rfl
@[simp] theorem setP_cmd (i : PReg) (v : Triple) : (s.setP i v).cmd = s.cmd := rfl
@[simp] theorem setP_engine (i : PReg) (v : Triple) : (s.setP i v).engine = s.engine := rfl
@[simp] theorem setP_done (i : PReg) (v : Triple) : (s.setP i v).done = s.done := rfl
@[simp] theorem setP_err (i : PReg) (v : Triple) : (s.setP i v).err = s.err := rfl
@[simp] theorem setP_errcode (i : PReg) (v : Triple) : (s.setP i v).errcode = s.errcode := rfl
@[simp] theorem setP_tabv (i : PReg) (v : Triple) : (s.setP i v).tabv = s.tabv := rfl
@[simp] theorem setP_wign (i : PReg) (v : Triple) : (s.setP i v).wign = s.wign := rfl
@[simp] theorem setP_res (i : PReg) (v : Triple) : (s.setP i v).res = s.res := rfl
@[simp] theorem setP_src (i : PReg) (v : Triple) : (s.setP i v).src = s.src := rfl
@[simp] theorem setP_slen (i : PReg) (v : Triple) : (s.setP i v).slen = s.slen := rfl
@[simp] theorem setP_dst (i : PReg) (v : Triple) : (s.setP i v).dst = s.dst := rfl
@[simp] theorem setP_dlen (i : PReg) (v : Triple) : (s.setP i v).dlen = s.dlen := rfl
@[simp] theorem setP_idaddr (i : PReg) (v : Triple) : (s.setP i v).idaddr = s.idaddr := rfl
@[simp] theorem setP_idlen (i : PReg) (v : Triple) : (s.setP i v).idlen = s.idlen := rfl
@[simp] theorem setP_outlen (i : PReg) (v : Triple) : (s.setP i v).outlen = s.outlen := rfl
@[simp] theorem setP_tabKey (i : PReg) (v : Triple) : (s.setP i v).tabKey = s.tabKey := rfl
@[simp] theorem setP_draws (i : PReg) (v : Triple) : (s.setP i v).draws = s.draws := rfl
@[simp] theorem setP_dmem (i : PReg) (v : Triple) : (s.setP i v).dmem = s.dmem := rfl
@[simp] theorem setP_inputs (i : PReg) (v : Triple) : (s.setP i v).inputs = s.inputs := rfl
@[simp] theorem setP_resp (i : PReg) (v : Triple) : (s.setP i v).resp = s.resp := rfl
@[simp] theorem setP_rng (i : PReg) (v : Triple) : (s.setP i v).rng = s.rng := rfl
@[simp] theorem setP_tick (i : PReg) (v : Triple) : (s.setP i v).tick = s.tick := rfl

/-! ### putPoint -/

@[simp] theorem putPoint_w (i : PReg) (q : Point) : (s.putPoint i q).w = s.w := rfl
@[simp] theorem putPoint_p (i : PReg) (q : Point) : (s.putPoint i q).p = s.p.set i.val (norm q) := rfl
@[simp] theorem putPoint_irqen (i : PReg) (q : Point) : (s.putPoint i q).irqen = s.irqen := rfl
@[simp] theorem putPoint_cmd (i : PReg) (q : Point) : (s.putPoint i q).cmd = s.cmd := rfl
@[simp] theorem putPoint_engine (i : PReg) (q : Point) : (s.putPoint i q).engine = s.engine := rfl
@[simp] theorem putPoint_done (i : PReg) (q : Point) : (s.putPoint i q).done = s.done := rfl
@[simp] theorem putPoint_err (i : PReg) (q : Point) : (s.putPoint i q).err = s.err := rfl
@[simp] theorem putPoint_errcode (i : PReg) (q : Point) : (s.putPoint i q).errcode = s.errcode := rfl
@[simp] theorem putPoint_tabv (i : PReg) (q : Point) : (s.putPoint i q).tabv = s.tabv := rfl
@[simp] theorem putPoint_wign (i : PReg) (q : Point) : (s.putPoint i q).wign = s.wign := rfl
@[simp] theorem putPoint_res (i : PReg) (q : Point) : (s.putPoint i q).res = s.res := rfl
@[simp] theorem putPoint_src (i : PReg) (q : Point) : (s.putPoint i q).src = s.src := rfl
@[simp] theorem putPoint_slen (i : PReg) (q : Point) : (s.putPoint i q).slen = s.slen := rfl
@[simp] theorem putPoint_dst (i : PReg) (q : Point) : (s.putPoint i q).dst = s.dst := rfl
@[simp] theorem putPoint_dlen (i : PReg) (q : Point) : (s.putPoint i q).dlen = s.dlen := rfl
@[simp] theorem putPoint_idaddr (i : PReg) (q : Point) : (s.putPoint i q).idaddr = s.idaddr := rfl
@[simp] theorem putPoint_idlen (i : PReg) (q : Point) : (s.putPoint i q).idlen = s.idlen := rfl
@[simp] theorem putPoint_outlen (i : PReg) (q : Point) : (s.putPoint i q).outlen = s.outlen := rfl
@[simp] theorem putPoint_tabKey (i : PReg) (q : Point) : (s.putPoint i q).tabKey = s.tabKey := rfl
@[simp] theorem putPoint_draws (i : PReg) (q : Point) : (s.putPoint i q).draws = s.draws := rfl
@[simp] theorem putPoint_dmem (i : PReg) (q : Point) : (s.putPoint i q).dmem = s.dmem := rfl
@[simp] theorem putPoint_inputs (i : PReg) (q : Point) : (s.putPoint i q).inputs = s.inputs := rfl
@[simp] theorem putPoint_resp (i : PReg) (q : Point) : (s.putPoint i q).resp = s.resp := rfl
@[simp] theorem putPoint_rng (i : PReg) (q : Point) : (s.putPoint i q).rng = s.rng := rfl
@[simp] theorem putPoint_tick (i : PReg) (q : Point) : (s.putPoint i q).tick = s.tick := rfl

/-! ### setRes -/

@[simp] theorem setRes_w (v : Word32) : (s.setRes v).w = s.w := rfl
@[simp] theorem setRes_p (v : Word32) : (s.setRes v).p = s.p := rfl
@[simp] theorem setRes_irqen (v : Word32) : (s.setRes v).irqen = s.irqen := rfl
@[simp] theorem setRes_cmd (v : Word32) : (s.setRes v).cmd = s.cmd := rfl
@[simp] theorem setRes_engine (v : Word32) : (s.setRes v).engine = s.engine := rfl
@[simp] theorem setRes_done (v : Word32) : (s.setRes v).done = s.done := rfl
@[simp] theorem setRes_err (v : Word32) : (s.setRes v).err = s.err := rfl
@[simp] theorem setRes_errcode (v : Word32) : (s.setRes v).errcode = s.errcode := rfl
@[simp] theorem setRes_tabv (v : Word32) : (s.setRes v).tabv = s.tabv := rfl
@[simp] theorem setRes_wign (v : Word32) : (s.setRes v).wign = s.wign := rfl
@[simp] theorem setRes_res (v : Word32) : (s.setRes v).res = v := rfl
@[simp] theorem setRes_src (v : Word32) : (s.setRes v).src = s.src := rfl
@[simp] theorem setRes_slen (v : Word32) : (s.setRes v).slen = s.slen := rfl
@[simp] theorem setRes_dst (v : Word32) : (s.setRes v).dst = s.dst := rfl
@[simp] theorem setRes_dlen (v : Word32) : (s.setRes v).dlen = s.dlen := rfl
@[simp] theorem setRes_idaddr (v : Word32) : (s.setRes v).idaddr = s.idaddr := rfl
@[simp] theorem setRes_idlen (v : Word32) : (s.setRes v).idlen = s.idlen := rfl
@[simp] theorem setRes_outlen (v : Word32) : (s.setRes v).outlen = s.outlen := rfl
@[simp] theorem setRes_tabKey (v : Word32) : (s.setRes v).tabKey = s.tabKey := rfl
@[simp] theorem setRes_draws (v : Word32) : (s.setRes v).draws = s.draws := rfl
@[simp] theorem setRes_dmem (v : Word32) : (s.setRes v).dmem = s.dmem := rfl
@[simp] theorem setRes_inputs (v : Word32) : (s.setRes v).inputs = s.inputs := rfl
@[simp] theorem setRes_resp (v : Word32) : (s.setRes v).resp = s.resp := rfl
@[simp] theorem setRes_rng (v : Word32) : (s.setRes v).rng = s.rng := rfl
@[simp] theorem setRes_tick (v : Word32) : (s.setRes v).tick = s.tick := rfl

/-! ### setOutlen -/

@[simp] theorem setOutlen_w (k : Nat) : (s.setOutlen k).w = s.w := rfl
@[simp] theorem setOutlen_p (k : Nat) : (s.setOutlen k).p = s.p := rfl
@[simp] theorem setOutlen_irqen (k : Nat) : (s.setOutlen k).irqen = s.irqen := rfl
@[simp] theorem setOutlen_cmd (k : Nat) : (s.setOutlen k).cmd = s.cmd := rfl
@[simp] theorem setOutlen_engine (k : Nat) : (s.setOutlen k).engine = s.engine := rfl
@[simp] theorem setOutlen_done (k : Nat) : (s.setOutlen k).done = s.done := rfl
@[simp] theorem setOutlen_err (k : Nat) : (s.setOutlen k).err = s.err := rfl
@[simp] theorem setOutlen_errcode (k : Nat) : (s.setOutlen k).errcode = s.errcode := rfl
@[simp] theorem setOutlen_tabv (k : Nat) : (s.setOutlen k).tabv = s.tabv := rfl
@[simp] theorem setOutlen_wign (k : Nat) : (s.setOutlen k).wign = s.wign := rfl
@[simp] theorem setOutlen_res (k : Nat) : (s.setOutlen k).res = s.res := rfl
@[simp] theorem setOutlen_src (k : Nat) : (s.setOutlen k).src = s.src := rfl
@[simp] theorem setOutlen_slen (k : Nat) : (s.setOutlen k).slen = s.slen := rfl
@[simp] theorem setOutlen_dst (k : Nat) : (s.setOutlen k).dst = s.dst := rfl
@[simp] theorem setOutlen_dlen (k : Nat) : (s.setOutlen k).dlen = s.dlen := rfl
@[simp] theorem setOutlen_idaddr (k : Nat) : (s.setOutlen k).idaddr = s.idaddr := rfl
@[simp] theorem setOutlen_idlen (k : Nat) : (s.setOutlen k).idlen = s.idlen := rfl
@[simp] theorem setOutlen_outlen (k : Nat) : (s.setOutlen k).outlen = BitVec.ofNat 32 k := rfl
@[simp] theorem setOutlen_tabKey (k : Nat) : (s.setOutlen k).tabKey = s.tabKey := rfl
@[simp] theorem setOutlen_draws (k : Nat) : (s.setOutlen k).draws = s.draws := rfl
@[simp] theorem setOutlen_dmem (k : Nat) : (s.setOutlen k).dmem = s.dmem := rfl
@[simp] theorem setOutlen_inputs (k : Nat) : (s.setOutlen k).inputs = s.inputs := rfl
@[simp] theorem setOutlen_resp (k : Nat) : (s.setOutlen k).resp = s.resp := rfl
@[simp] theorem setOutlen_rng (k : Nat) : (s.setOutlen k).rng = s.rng := rfl
@[simp] theorem setOutlen_tick (k : Nat) : (s.setOutlen k).tick = s.tick := rfl

/-! ### setTab -/

@[simp] theorem setTab_w (x y : U256) : (s.setTab x y).w = s.w := rfl
@[simp] theorem setTab_p (x y : U256) : (s.setTab x y).p = s.p := rfl
@[simp] theorem setTab_irqen (x y : U256) : (s.setTab x y).irqen = s.irqen := rfl
@[simp] theorem setTab_cmd (x y : U256) : (s.setTab x y).cmd = s.cmd := rfl
@[simp] theorem setTab_engine (x y : U256) : (s.setTab x y).engine = s.engine := rfl
@[simp] theorem setTab_done (x y : U256) : (s.setTab x y).done = s.done := rfl
@[simp] theorem setTab_err (x y : U256) : (s.setTab x y).err = s.err := rfl
@[simp] theorem setTab_errcode (x y : U256) : (s.setTab x y).errcode = s.errcode := rfl
@[simp] theorem setTab_tabv (x y : U256) : (s.setTab x y).tabv = true := rfl
@[simp] theorem setTab_wign (x y : U256) : (s.setTab x y).wign = s.wign := rfl
@[simp] theorem setTab_res (x y : U256) : (s.setTab x y).res = s.res := rfl
@[simp] theorem setTab_src (x y : U256) : (s.setTab x y).src = s.src := rfl
@[simp] theorem setTab_slen (x y : U256) : (s.setTab x y).slen = s.slen := rfl
@[simp] theorem setTab_dst (x y : U256) : (s.setTab x y).dst = s.dst := rfl
@[simp] theorem setTab_dlen (x y : U256) : (s.setTab x y).dlen = s.dlen := rfl
@[simp] theorem setTab_idaddr (x y : U256) : (s.setTab x y).idaddr = s.idaddr := rfl
@[simp] theorem setTab_idlen (x y : U256) : (s.setTab x y).idlen = s.idlen := rfl
@[simp] theorem setTab_outlen (x y : U256) : (s.setTab x y).outlen = s.outlen := rfl
@[simp] theorem setTab_tabKey (x y : U256) : (s.setTab x y).tabKey = ⟨x, y⟩ := rfl
@[simp] theorem setTab_draws (x y : U256) : (s.setTab x y).draws = s.draws := rfl
@[simp] theorem setTab_dmem (x y : U256) : (s.setTab x y).dmem = s.dmem := rfl
@[simp] theorem setTab_inputs (x y : U256) : (s.setTab x y).inputs = s.inputs := rfl
@[simp] theorem setTab_resp (x y : U256) : (s.setTab x y).resp = s.resp := rfl
@[simp] theorem setTab_rng (x y : U256) : (s.setTab x y).rng = s.rng := rfl
@[simp] theorem setTab_tick (x y : U256) : (s.setTab x y).tick = s.tick := rfl

/-! ### memWrite -/

@[simp] theorem memWrite_w (a : Nat) (bs : List Byte) : (s.memWrite a bs).w = s.w := rfl
@[simp] theorem memWrite_p (a : Nat) (bs : List Byte) : (s.memWrite a bs).p = s.p := rfl
@[simp] theorem memWrite_irqen (a : Nat) (bs : List Byte) : (s.memWrite a bs).irqen = s.irqen := rfl
@[simp] theorem memWrite_cmd (a : Nat) (bs : List Byte) : (s.memWrite a bs).cmd = s.cmd := rfl
@[simp] theorem memWrite_engine (a : Nat) (bs : List Byte) : (s.memWrite a bs).engine = s.engine := rfl
@[simp] theorem memWrite_done (a : Nat) (bs : List Byte) : (s.memWrite a bs).done = s.done := rfl
@[simp] theorem memWrite_err (a : Nat) (bs : List Byte) : (s.memWrite a bs).err = s.err := rfl
@[simp] theorem memWrite_errcode (a : Nat) (bs : List Byte) : (s.memWrite a bs).errcode = s.errcode := rfl
@[simp] theorem memWrite_tabv (a : Nat) (bs : List Byte) : (s.memWrite a bs).tabv = s.tabv := rfl
@[simp] theorem memWrite_wign (a : Nat) (bs : List Byte) : (s.memWrite a bs).wign = s.wign := rfl
@[simp] theorem memWrite_res (a : Nat) (bs : List Byte) : (s.memWrite a bs).res = s.res := rfl
@[simp] theorem memWrite_src (a : Nat) (bs : List Byte) : (s.memWrite a bs).src = s.src := rfl
@[simp] theorem memWrite_slen (a : Nat) (bs : List Byte) : (s.memWrite a bs).slen = s.slen := rfl
@[simp] theorem memWrite_dst (a : Nat) (bs : List Byte) : (s.memWrite a bs).dst = s.dst := rfl
@[simp] theorem memWrite_dlen (a : Nat) (bs : List Byte) : (s.memWrite a bs).dlen = s.dlen := rfl
@[simp] theorem memWrite_idaddr (a : Nat) (bs : List Byte) : (s.memWrite a bs).idaddr = s.idaddr := rfl
@[simp] theorem memWrite_idlen (a : Nat) (bs : List Byte) : (s.memWrite a bs).idlen = s.idlen := rfl
@[simp] theorem memWrite_outlen (a : Nat) (bs : List Byte) : (s.memWrite a bs).outlen = s.outlen := rfl
@[simp] theorem memWrite_tabKey (a : Nat) (bs : List Byte) : (s.memWrite a bs).tabKey = s.tabKey := rfl
@[simp] theorem memWrite_draws (a : Nat) (bs : List Byte) : (s.memWrite a bs).draws = s.draws := rfl
@[simp] theorem memWrite_dmem (a : Nat) (bs : List Byte) : (s.memWrite a bs).dmem = s.dmem.storeAll a bs := rfl
@[simp] theorem memWrite_inputs (a : Nat) (bs : List Byte) : (s.memWrite a bs).inputs = s.inputs := rfl
@[simp] theorem memWrite_resp (a : Nat) (bs : List Byte) : (s.memWrite a bs).resp = s.resp := rfl
@[simp] theorem memWrite_rng (a : Nat) (bs : List Byte) : (s.memWrite a bs).rng = s.rng := rfl
@[simp] theorem memWrite_tick (a : Nat) (bs : List Byte) : (s.memWrite a bs).tick = s.tick := rfl

/-! ### consume -/

@[simp] theorem consume_w (k : Nat) : (s.consume k).w = s.w := rfl
@[simp] theorem consume_p (k : Nat) : (s.consume k).p = s.p := rfl
@[simp] theorem consume_irqen (k : Nat) : (s.consume k).irqen = s.irqen := rfl
@[simp] theorem consume_cmd (k : Nat) : (s.consume k).cmd = s.cmd := rfl
@[simp] theorem consume_engine (k : Nat) : (s.consume k).engine = s.engine := rfl
@[simp] theorem consume_done (k : Nat) : (s.consume k).done = s.done := rfl
@[simp] theorem consume_err (k : Nat) : (s.consume k).err = s.err := rfl
@[simp] theorem consume_errcode (k : Nat) : (s.consume k).errcode = s.errcode := rfl
@[simp] theorem consume_tabv (k : Nat) : (s.consume k).tabv = s.tabv := rfl
@[simp] theorem consume_wign (k : Nat) : (s.consume k).wign = s.wign := rfl
@[simp] theorem consume_res (k : Nat) : (s.consume k).res = s.res := rfl
@[simp] theorem consume_src (k : Nat) : (s.consume k).src = s.src := rfl
@[simp] theorem consume_slen (k : Nat) : (s.consume k).slen = s.slen := rfl
@[simp] theorem consume_dst (k : Nat) : (s.consume k).dst = s.dst := rfl
@[simp] theorem consume_dlen (k : Nat) : (s.consume k).dlen = s.dlen := rfl
@[simp] theorem consume_idaddr (k : Nat) : (s.consume k).idaddr = s.idaddr := rfl
@[simp] theorem consume_idlen (k : Nat) : (s.consume k).idlen = s.idlen := rfl
@[simp] theorem consume_outlen (k : Nat) : (s.consume k).outlen = s.outlen := rfl
@[simp] theorem consume_tabKey (k : Nat) : (s.consume k).tabKey = s.tabKey := rfl
@[simp] theorem consume_draws (k : Nat) : (s.consume k).draws = s.draws := rfl
@[simp] theorem consume_dmem (k : Nat) : (s.consume k).dmem = s.dmem := rfl
@[simp] theorem consume_inputs (k : Nat) : (s.consume k).inputs = s.inputs := rfl
@[simp] theorem consume_resp (k : Nat) : (s.consume k).resp = s.resp := rfl
@[simp] theorem consume_rng (k : Nat) : (s.consume k).rng = s.rng.drop k := rfl
@[simp] theorem consume_tick (k : Nat) : (s.consume k).tick = s.tick := rfl

/-! ### complete -/

@[simp] theorem complete_w : (complete s).w = s.w := rfl
@[simp] theorem complete_p : (complete s).p = s.p := rfl
@[simp] theorem complete_irqen : (complete s).irqen = s.irqen := rfl
@[simp] theorem complete_cmd : (complete s).cmd = s.cmd := rfl
@[simp] theorem complete_engine : (complete s).engine = .idle := rfl
@[simp] theorem complete_done : (complete s).done = true := rfl
@[simp] theorem complete_err : (complete s).err = s.err := rfl
@[simp] theorem complete_errcode : (complete s).errcode = s.errcode := rfl
@[simp] theorem complete_tabv : (complete s).tabv = s.tabv := rfl
@[simp] theorem complete_wign : (complete s).wign = s.wign := rfl
@[simp] theorem complete_res : (complete s).res = s.res := rfl
@[simp] theorem complete_src : (complete s).src = s.src := rfl
@[simp] theorem complete_slen : (complete s).slen = s.slen := rfl
@[simp] theorem complete_dst : (complete s).dst = s.dst := rfl
@[simp] theorem complete_dlen : (complete s).dlen = s.dlen := rfl
@[simp] theorem complete_idaddr : (complete s).idaddr = s.idaddr := rfl
@[simp] theorem complete_idlen : (complete s).idlen = s.idlen := rfl
@[simp] theorem complete_outlen : (complete s).outlen = s.outlen := rfl
@[simp] theorem complete_tabKey : (complete s).tabKey = s.tabKey := rfl
@[simp] theorem complete_draws : (complete s).draws = 0 := rfl
@[simp] theorem complete_dmem : (complete s).dmem = s.dmem := rfl
@[simp] theorem complete_inputs : (complete s).inputs = s.inputs := rfl
@[simp] theorem complete_resp : (complete s).resp = s.resp := rfl
@[simp] theorem complete_rng : (complete s).rng = s.rng := rfl
@[simp] theorem complete_tick : (complete s).tick = s.tick := rfl

/-! ### raiseError -/

@[simp] theorem raiseError_w (e : ErrCode) : (raiseError e s).w = s.w := rfl
@[simp] theorem raiseError_p (e : ErrCode) : (raiseError e s).p = s.p := rfl
@[simp] theorem raiseError_irqen (e : ErrCode) : (raiseError e s).irqen = s.irqen := rfl
@[simp] theorem raiseError_cmd (e : ErrCode) : (raiseError e s).cmd = s.cmd := rfl
@[simp] theorem raiseError_engine (e : ErrCode) : (raiseError e s).engine = .idle := rfl
@[simp] theorem raiseError_done (e : ErrCode) : (raiseError e s).done = true := rfl
@[simp] theorem raiseError_err (e : ErrCode) : (raiseError e s).err = true := rfl
@[simp] theorem raiseError_errcode (e : ErrCode) : (raiseError e s).errcode = e.code := rfl
@[simp] theorem raiseError_tabv (e : ErrCode) : (raiseError e s).tabv = s.tabv := rfl
@[simp] theorem raiseError_wign (e : ErrCode) : (raiseError e s).wign = s.wign := rfl
@[simp] theorem raiseError_res (e : ErrCode) : (raiseError e s).res = s.res := rfl
@[simp] theorem raiseError_src (e : ErrCode) : (raiseError e s).src = s.src := rfl
@[simp] theorem raiseError_slen (e : ErrCode) : (raiseError e s).slen = s.slen := rfl
@[simp] theorem raiseError_dst (e : ErrCode) : (raiseError e s).dst = s.dst := rfl
@[simp] theorem raiseError_dlen (e : ErrCode) : (raiseError e s).dlen = s.dlen := rfl
@[simp] theorem raiseError_idaddr (e : ErrCode) : (raiseError e s).idaddr = s.idaddr := rfl
@[simp] theorem raiseError_idlen (e : ErrCode) : (raiseError e s).idlen = s.idlen := rfl
@[simp] theorem raiseError_outlen (e : ErrCode) : (raiseError e s).outlen = s.outlen := rfl
@[simp] theorem raiseError_tabKey (e : ErrCode) : (raiseError e s).tabKey = s.tabKey := rfl
@[simp] theorem raiseError_draws (e : ErrCode) : (raiseError e s).draws = 0 := rfl
@[simp] theorem raiseError_dmem (e : ErrCode) : (raiseError e s).dmem = s.dmem := rfl
@[simp] theorem raiseError_inputs (e : ErrCode) : (raiseError e s).inputs = s.inputs := rfl
@[simp] theorem raiseError_resp (e : ErrCode) : (raiseError e s).resp = s.resp := rfl
@[simp] theorem raiseError_rng (e : ErrCode) : (raiseError e s).rng = s.rng := rfl
@[simp] theorem raiseError_tick (e : ErrCode) : (raiseError e s).tick = s.tick := rfl

/-! ### respond -/

@[simp] theorem respond_w (r : Resp) : (s.respond r).w = s.w := rfl
@[simp] theorem respond_p (r : Resp) : (s.respond r).p = s.p := rfl
@[simp] theorem respond_irqen (r : Resp) : (s.respond r).irqen = s.irqen := rfl
@[simp] theorem respond_cmd (r : Resp) : (s.respond r).cmd = s.cmd := rfl
@[simp] theorem respond_engine (r : Resp) : (s.respond r).engine = s.engine := rfl
@[simp] theorem respond_done (r : Resp) : (s.respond r).done = s.done := rfl
@[simp] theorem respond_err (r : Resp) : (s.respond r).err = s.err := rfl
@[simp] theorem respond_errcode (r : Resp) : (s.respond r).errcode = s.errcode := rfl
@[simp] theorem respond_tabv (r : Resp) : (s.respond r).tabv = s.tabv := rfl
@[simp] theorem respond_wign (r : Resp) : (s.respond r).wign = s.wign := rfl
@[simp] theorem respond_res (r : Resp) : (s.respond r).res = s.res := rfl
@[simp] theorem respond_src (r : Resp) : (s.respond r).src = s.src := rfl
@[simp] theorem respond_slen (r : Resp) : (s.respond r).slen = s.slen := rfl
@[simp] theorem respond_dst (r : Resp) : (s.respond r).dst = s.dst := rfl
@[simp] theorem respond_dlen (r : Resp) : (s.respond r).dlen = s.dlen := rfl
@[simp] theorem respond_idaddr (r : Resp) : (s.respond r).idaddr = s.idaddr := rfl
@[simp] theorem respond_idlen (r : Resp) : (s.respond r).idlen = s.idlen := rfl
@[simp] theorem respond_outlen (r : Resp) : (s.respond r).outlen = s.outlen := rfl
@[simp] theorem respond_tabKey (r : Resp) : (s.respond r).tabKey = s.tabKey := rfl
@[simp] theorem respond_draws (r : Resp) : (s.respond r).draws = s.draws := rfl
@[simp] theorem respond_dmem (r : Resp) : (s.respond r).dmem = s.dmem := rfl
@[simp] theorem respond_inputs (r : Resp) : (s.respond r).inputs = s.inputs := rfl
@[simp] theorem respond_resp (r : Resp) : (s.respond r).resp = some r := rfl
@[simp] theorem respond_rng (r : Resp) : (s.respond r).rng = s.rng := rfl
@[simp] theorem respond_tick (r : Resp) : (s.respond r).tick = s.tick := rfl

/-! ### acceptStart -/

@[simp] theorem acceptStart_w : (acceptStart s).w = s.w := rfl
@[simp] theorem acceptStart_p : (acceptStart s).p = s.p := rfl
@[simp] theorem acceptStart_irqen : (acceptStart s).irqen = s.irqen := rfl
@[simp] theorem acceptStart_cmd : (acceptStart s).cmd = s.cmd := rfl
@[simp] theorem acceptStart_engine : (acceptStart s).engine = .busy s.cmd := rfl
@[simp] theorem acceptStart_done : (acceptStart s).done = false := rfl
@[simp] theorem acceptStart_err : (acceptStart s).err = false := rfl
@[simp] theorem acceptStart_errcode : (acceptStart s).errcode = 0 := rfl
@[simp] theorem acceptStart_tabv : (acceptStart s).tabv = s.tabv := rfl
@[simp] theorem acceptStart_wign : (acceptStart s).wign = s.wign := rfl
@[simp] theorem acceptStart_res : (acceptStart s).res = s.res := rfl
@[simp] theorem acceptStart_src : (acceptStart s).src = s.src := rfl
@[simp] theorem acceptStart_slen : (acceptStart s).slen = s.slen := rfl
@[simp] theorem acceptStart_dst : (acceptStart s).dst = s.dst := rfl
@[simp] theorem acceptStart_dlen : (acceptStart s).dlen = s.dlen := rfl
@[simp] theorem acceptStart_idaddr : (acceptStart s).idaddr = s.idaddr := rfl
@[simp] theorem acceptStart_idlen : (acceptStart s).idlen = s.idlen := rfl
@[simp] theorem acceptStart_outlen : (acceptStart s).outlen = s.outlen := rfl
@[simp] theorem acceptStart_tabKey : (acceptStart s).tabKey = s.tabKey := rfl
@[simp] theorem acceptStart_draws : (acceptStart s).draws = 0 := rfl
@[simp] theorem acceptStart_dmem : (acceptStart s).dmem = s.dmem := rfl
@[simp] theorem acceptStart_inputs : (acceptStart s).inputs = s.inputs := rfl
@[simp] theorem acceptStart_resp : (acceptStart s).resp = s.resp := rfl
@[simp] theorem acceptStart_rng : (acceptStart s).rng = s.rng := rfl
@[simp] theorem acceptStart_tick : (acceptStart s).tick = s.tick := rfl

/-! ### ignoreWrite -/

@[simp] theorem ignoreWrite_w : (ignoreWrite s).w = s.w := rfl
@[simp] theorem ignoreWrite_p : (ignoreWrite s).p = s.p := rfl
@[simp] theorem ignoreWrite_irqen : (ignoreWrite s).irqen = s.irqen := rfl
@[simp] theorem ignoreWrite_cmd : (ignoreWrite s).cmd = s.cmd := rfl
@[simp] theorem ignoreWrite_engine : (ignoreWrite s).engine = s.engine := rfl
@[simp] theorem ignoreWrite_done : (ignoreWrite s).done = s.done := rfl
@[simp] theorem ignoreWrite_err : (ignoreWrite s).err = s.err := rfl
@[simp] theorem ignoreWrite_errcode : (ignoreWrite s).errcode = s.errcode := rfl
@[simp] theorem ignoreWrite_tabv : (ignoreWrite s).tabv = s.tabv := rfl
@[simp] theorem ignoreWrite_wign : (ignoreWrite s).wign = true := rfl
@[simp] theorem ignoreWrite_res : (ignoreWrite s).res = s.res := rfl
@[simp] theorem ignoreWrite_src : (ignoreWrite s).src = s.src := rfl
@[simp] theorem ignoreWrite_slen : (ignoreWrite s).slen = s.slen := rfl
@[simp] theorem ignoreWrite_dst : (ignoreWrite s).dst = s.dst := rfl
@[simp] theorem ignoreWrite_dlen : (ignoreWrite s).dlen = s.dlen := rfl
@[simp] theorem ignoreWrite_idaddr : (ignoreWrite s).idaddr = s.idaddr := rfl
@[simp] theorem ignoreWrite_idlen : (ignoreWrite s).idlen = s.idlen := rfl
@[simp] theorem ignoreWrite_outlen : (ignoreWrite s).outlen = s.outlen := rfl
@[simp] theorem ignoreWrite_tabKey : (ignoreWrite s).tabKey = s.tabKey := rfl
@[simp] theorem ignoreWrite_draws : (ignoreWrite s).draws = s.draws := rfl
@[simp] theorem ignoreWrite_dmem : (ignoreWrite s).dmem = s.dmem := rfl
@[simp] theorem ignoreWrite_inputs : (ignoreWrite s).inputs = s.inputs := rfl
@[simp] theorem ignoreWrite_resp : (ignoreWrite s).resp = s.resp := rfl
@[simp] theorem ignoreWrite_rng : (ignoreWrite s).rng = s.rng := rfl
@[simp] theorem ignoreWrite_tick : (ignoreWrite s).tick = s.tick := rfl

/-! ### clearError -/

@[simp] theorem clearError_w : (clearError s).w = s.w := rfl
@[simp] theorem clearError_p : (clearError s).p = s.p := rfl
@[simp] theorem clearError_irqen : (clearError s).irqen = s.irqen := rfl
@[simp] theorem clearError_cmd : (clearError s).cmd = s.cmd := rfl
@[simp] theorem clearError_engine : (clearError s).engine = s.engine := rfl
@[simp] theorem clearError_done : (clearError s).done = s.done := rfl
@[simp] theorem clearError_err : (clearError s).err = false := rfl
@[simp] theorem clearError_errcode : (clearError s).errcode = 0 := rfl
@[simp] theorem clearError_tabv : (clearError s).tabv = s.tabv := rfl
@[simp] theorem clearError_wign : (clearError s).wign = s.wign := rfl
@[simp] theorem clearError_res : (clearError s).res = s.res := rfl
@[simp] theorem clearError_src : (clearError s).src = s.src := rfl
@[simp] theorem clearError_slen : (clearError s).slen = s.slen := rfl
@[simp] theorem clearError_dst : (clearError s).dst = s.dst := rfl
@[simp] theorem clearError_dlen : (clearError s).dlen = s.dlen := rfl
@[simp] theorem clearError_idaddr : (clearError s).idaddr = s.idaddr := rfl
@[simp] theorem clearError_idlen : (clearError s).idlen = s.idlen := rfl
@[simp] theorem clearError_outlen : (clearError s).outlen = s.outlen := rfl
@[simp] theorem clearError_tabKey : (clearError s).tabKey = s.tabKey := rfl
@[simp] theorem clearError_draws : (clearError s).draws = s.draws := rfl
@[simp] theorem clearError_dmem : (clearError s).dmem = s.dmem := rfl
@[simp] theorem clearError_inputs : (clearError s).inputs = s.inputs := rfl
@[simp] theorem clearError_resp : (clearError s).resp = s.resp := rfl
@[simp] theorem clearError_rng : (clearError s).rng = s.rng := rfl
@[simp] theorem clearError_tick : (clearError s).tick = s.tick := rfl

/-! ### advance -/

@[simp] theorem advance_w : s.advance.w = s.w := rfl
@[simp] theorem advance_p : s.advance.p = s.p := rfl
@[simp] theorem advance_irqen : s.advance.irqen = s.irqen := rfl
@[simp] theorem advance_cmd : s.advance.cmd = s.cmd := rfl
@[simp] theorem advance_engine : s.advance.engine = s.engine := rfl
@[simp] theorem advance_done : s.advance.done = s.done := rfl
@[simp] theorem advance_err : s.advance.err = s.err := rfl
@[simp] theorem advance_errcode : s.advance.errcode = s.errcode := rfl
@[simp] theorem advance_tabv : s.advance.tabv = s.tabv := rfl
@[simp] theorem advance_wign : s.advance.wign = s.wign := rfl
@[simp] theorem advance_res : s.advance.res = s.res := rfl
@[simp] theorem advance_src : s.advance.src = s.src := rfl
@[simp] theorem advance_slen : s.advance.slen = s.slen := rfl
@[simp] theorem advance_dst : s.advance.dst = s.dst := rfl
@[simp] theorem advance_dlen : s.advance.dlen = s.dlen := rfl
@[simp] theorem advance_idaddr : s.advance.idaddr = s.idaddr := rfl
@[simp] theorem advance_idlen : s.advance.idlen = s.idlen := rfl
@[simp] theorem advance_outlen : s.advance.outlen = s.outlen := rfl
@[simp] theorem advance_tabKey : s.advance.tabKey = s.tabKey := rfl
@[simp] theorem advance_draws : s.advance.draws = s.draws := rfl
@[simp] theorem advance_dmem : s.advance.dmem = s.dmem := rfl
@[simp] theorem advance_inputs : s.advance.inputs = s.inputs.tail := rfl
@[simp] theorem advance_resp : s.advance.resp = s.resp := rfl
@[simp] theorem advance_rng : s.advance.rng = s.rng := rfl
@[simp] theorem advance_tick : s.advance.tick = s.tick + 1 := rfl

/-! ### clearRegisters -/

@[simp] theorem clearRegisters_w : (clearRegisters s).w = State.reset.w := rfl
@[simp] theorem clearRegisters_p : (clearRegisters s).p = State.reset.p := rfl
@[simp] theorem clearRegisters_irqen : (clearRegisters s).irqen = State.reset.irqen := rfl
@[simp] theorem clearRegisters_cmd : (clearRegisters s).cmd = State.reset.cmd := rfl
@[simp] theorem clearRegisters_engine : (clearRegisters s).engine = State.reset.engine := rfl
@[simp] theorem clearRegisters_done : (clearRegisters s).done = State.reset.done := rfl
@[simp] theorem clearRegisters_err : (clearRegisters s).err = State.reset.err := rfl
@[simp] theorem clearRegisters_errcode : (clearRegisters s).errcode = State.reset.errcode := rfl
@[simp] theorem clearRegisters_tabv : (clearRegisters s).tabv = State.reset.tabv := rfl
@[simp] theorem clearRegisters_wign : (clearRegisters s).wign = State.reset.wign := rfl
@[simp] theorem clearRegisters_res : (clearRegisters s).res = State.reset.res := rfl
@[simp] theorem clearRegisters_src : (clearRegisters s).src = State.reset.src := rfl
@[simp] theorem clearRegisters_slen : (clearRegisters s).slen = State.reset.slen := rfl
@[simp] theorem clearRegisters_dst : (clearRegisters s).dst = State.reset.dst := rfl
@[simp] theorem clearRegisters_dlen : (clearRegisters s).dlen = State.reset.dlen := rfl
@[simp] theorem clearRegisters_idaddr : (clearRegisters s).idaddr = State.reset.idaddr := rfl
@[simp] theorem clearRegisters_idlen : (clearRegisters s).idlen = State.reset.idlen := rfl
@[simp] theorem clearRegisters_outlen : (clearRegisters s).outlen = State.reset.outlen := rfl
@[simp] theorem clearRegisters_tabKey : (clearRegisters s).tabKey = State.reset.tabKey := rfl
@[simp] theorem clearRegisters_draws : (clearRegisters s).draws = State.reset.draws := rfl
@[simp] theorem clearRegisters_dmem : (clearRegisters s).dmem = s.dmem := rfl
@[simp] theorem clearRegisters_inputs : (clearRegisters s).inputs = s.inputs := rfl
@[simp] theorem clearRegisters_resp : (clearRegisters s).resp = s.resp := rfl
@[simp] theorem clearRegisters_rng : (clearRegisters s).rng = s.rng := rfl
@[simp] theorem clearRegisters_tick : (clearRegisters s).tick = s.tick := rfl

/-! ### The accessors through the updates -/

@[simp] theorem getW_setP (i : PReg) (v : Triple) (i' : WReg) : (s.setP i v).getW i' = s.getW i' := rfl
@[simp] theorem getW_putPoint (i : PReg) (q : Point) (i' : WReg) : (s.putPoint i q).getW i' = s.getW i' := rfl
@[simp] theorem getW_setRes (v : Word32) (i : WReg) : (s.setRes v).getW i = s.getW i := rfl
@[simp] theorem getW_setOutlen (k : Nat) (i : WReg) : (s.setOutlen k).getW i = s.getW i := rfl
@[simp] theorem getW_setTab (x y : U256) (i : WReg) : (s.setTab x y).getW i = s.getW i := rfl
@[simp] theorem getW_memWrite (a : Nat) (bs : List Byte) (i : WReg) : (s.memWrite a bs).getW i = s.getW i := rfl
@[simp] theorem getW_consume (k : Nat) (i : WReg) : (s.consume k).getW i = s.getW i := rfl
@[simp] theorem getW_complete (i : WReg) : (complete s).getW i = s.getW i := rfl
@[simp] theorem getW_raiseError (e : ErrCode) (i : WReg) : (raiseError e s).getW i = s.getW i := rfl
@[simp] theorem getW_respond (r : Resp) (i : WReg) : (s.respond r).getW i = s.getW i := rfl
@[simp] theorem getW_acceptStart (i : WReg) : (acceptStart s).getW i = s.getW i := rfl
@[simp] theorem getW_ignoreWrite (i : WReg) : (ignoreWrite s).getW i = s.getW i := rfl
@[simp] theorem getW_clearError (i : WReg) : (clearError s).getW i = s.getW i := rfl
@[simp] theorem getW_advance (i : WReg) : s.advance.getW i = s.getW i := rfl
@[simp] theorem natW_setP (i : PReg) (v : Triple) (i' : WReg) : (s.setP i v).natW i' = s.natW i' := rfl
@[simp] theorem natW_putPoint (i : PReg) (q : Point) (i' : WReg) : (s.putPoint i q).natW i' = s.natW i' := rfl
@[simp] theorem natW_setRes (v : Word32) (i : WReg) : (s.setRes v).natW i = s.natW i := rfl
@[simp] theorem natW_setOutlen (k : Nat) (i : WReg) : (s.setOutlen k).natW i = s.natW i := rfl
@[simp] theorem natW_setTab (x y : U256) (i : WReg) : (s.setTab x y).natW i = s.natW i := rfl
@[simp] theorem natW_memWrite (a : Nat) (bs : List Byte) (i : WReg) : (s.memWrite a bs).natW i = s.natW i := rfl
@[simp] theorem natW_consume (k : Nat) (i : WReg) : (s.consume k).natW i = s.natW i := rfl
@[simp] theorem natW_complete (i : WReg) : (complete s).natW i = s.natW i := rfl
@[simp] theorem natW_raiseError (e : ErrCode) (i : WReg) : (raiseError e s).natW i = s.natW i := rfl
@[simp] theorem natW_respond (r : Resp) (i : WReg) : (s.respond r).natW i = s.natW i := rfl
@[simp] theorem natW_acceptStart (i : WReg) : (acceptStart s).natW i = s.natW i := rfl
@[simp] theorem natW_ignoreWrite (i : WReg) : (ignoreWrite s).natW i = s.natW i := rfl
@[simp] theorem natW_clearError (i : WReg) : (clearError s).natW i = s.natW i := rfl
@[simp] theorem natW_advance (i : WReg) : s.advance.natW i = s.natW i := rfl
@[simp] theorem getP_setW (i : WReg) (v : U256) (i' : PReg) : (s.setW i v).getP i' = s.getP i' := rfl
@[simp] theorem getP_putW (i : WReg) (v : Nat) (i' : PReg) : (s.putW i v).getP i' = s.getP i' := rfl
@[simp] theorem getP_setRes (v : Word32) (i : PReg) : (s.setRes v).getP i = s.getP i := rfl
@[simp] theorem getP_setOutlen (k : Nat) (i : PReg) : (s.setOutlen k).getP i = s.getP i := rfl
@[simp] theorem getP_setTab (x y : U256) (i : PReg) : (s.setTab x y).getP i = s.getP i := rfl
@[simp] theorem getP_memWrite (a : Nat) (bs : List Byte) (i : PReg) : (s.memWrite a bs).getP i = s.getP i := rfl
@[simp] theorem getP_consume (k : Nat) (i : PReg) : (s.consume k).getP i = s.getP i := rfl
@[simp] theorem getP_complete (i : PReg) : (complete s).getP i = s.getP i := rfl
@[simp] theorem getP_raiseError (e : ErrCode) (i : PReg) : (raiseError e s).getP i = s.getP i := rfl
@[simp] theorem getP_respond (r : Resp) (i : PReg) : (s.respond r).getP i = s.getP i := rfl
@[simp] theorem getP_acceptStart (i : PReg) : (acceptStart s).getP i = s.getP i := rfl
@[simp] theorem getP_ignoreWrite (i : PReg) : (ignoreWrite s).getP i = s.getP i := rfl
@[simp] theorem getP_clearError (i : PReg) : (clearError s).getP i = s.getP i := rfl
@[simp] theorem getP_advance (i : PReg) : s.advance.getP i = s.getP i := rfl
@[simp] theorem point_setW (i : WReg) (v : U256) (i' : PReg) : (s.setW i v).point i' = s.point i' := rfl
@[simp] theorem point_putW (i : WReg) (v : Nat) (i' : PReg) : (s.putW i v).point i' = s.point i' := rfl
@[simp] theorem point_setRes (v : Word32) (i : PReg) : (s.setRes v).point i = s.point i := rfl
@[simp] theorem point_setOutlen (k : Nat) (i : PReg) : (s.setOutlen k).point i = s.point i := rfl
@[simp] theorem point_setTab (x y : U256) (i : PReg) : (s.setTab x y).point i = s.point i := rfl
@[simp] theorem point_memWrite (a : Nat) (bs : List Byte) (i : PReg) : (s.memWrite a bs).point i = s.point i := rfl
@[simp] theorem point_consume (k : Nat) (i : PReg) : (s.consume k).point i = s.point i := rfl
@[simp] theorem point_complete (i : PReg) : (complete s).point i = s.point i := rfl
@[simp] theorem point_raiseError (e : ErrCode) (i : PReg) : (raiseError e s).point i = s.point i := rfl
@[simp] theorem point_respond (r : Resp) (i : PReg) : (s.respond r).point i = s.point i := rfl
@[simp] theorem point_acceptStart (i : PReg) : (acceptStart s).point i = s.point i := rfl
@[simp] theorem point_ignoreWrite (i : PReg) : (ignoreWrite s).point i = s.point i := rfl
@[simp] theorem point_clearError (i : PReg) : (clearError s).point i = s.point i := rfl
@[simp] theorem point_advance (i : PReg) : s.advance.point i = s.point i := rfl
@[simp] theorem isBusy_setW (i : WReg) (v : U256) : (s.setW i v).isBusy = s.isBusy := rfl
@[simp] theorem isBusy_putW (i : WReg) (v : Nat) : (s.putW i v).isBusy = s.isBusy := rfl
@[simp] theorem isBusy_setP (i : PReg) (v : Triple) : (s.setP i v).isBusy = s.isBusy := rfl
@[simp] theorem isBusy_putPoint (i : PReg) (q : Point) : (s.putPoint i q).isBusy = s.isBusy := rfl
@[simp] theorem isBusy_setRes (v : Word32) : (s.setRes v).isBusy = s.isBusy := rfl
@[simp] theorem isBusy_setOutlen (k : Nat) : (s.setOutlen k).isBusy = s.isBusy := rfl
@[simp] theorem isBusy_setTab (x y : U256) : (s.setTab x y).isBusy = s.isBusy := rfl
@[simp] theorem isBusy_memWrite (a : Nat) (bs : List Byte) : (s.memWrite a bs).isBusy = s.isBusy := rfl
@[simp] theorem isBusy_consume (k : Nat) : (s.consume k).isBusy = s.isBusy := rfl
@[simp] theorem isBusy_respond (r : Resp) : (s.respond r).isBusy = s.isBusy := rfl
@[simp] theorem isBusy_ignoreWrite  : (ignoreWrite s).isBusy = s.isBusy := rfl
@[simp] theorem isBusy_clearError  : (clearError s).isBusy = s.isBusy := rfl
@[simp] theorem isBusy_advance  : s.advance.isBusy = s.isBusy := rfl
@[simp] theorem dmemByte_setW (i : WReg) (v : U256) (a : Nat) : (s.setW i v).dmemByte a = s.dmemByte a := rfl
@[simp] theorem dmemByte_putW (i : WReg) (v : Nat) (a : Nat) : (s.putW i v).dmemByte a = s.dmemByte a := rfl
@[simp] theorem dmemByte_setP (i : PReg) (v : Triple) (a : Nat) : (s.setP i v).dmemByte a = s.dmemByte a := rfl
@[simp] theorem dmemByte_putPoint (i : PReg) (q : Point) (a : Nat) : (s.putPoint i q).dmemByte a = s.dmemByte a := rfl
@[simp] theorem dmemByte_setRes (v : Word32) (a : Nat) : (s.setRes v).dmemByte a = s.dmemByte a := rfl
@[simp] theorem dmemByte_setOutlen (k : Nat) (a : Nat) : (s.setOutlen k).dmemByte a = s.dmemByte a := rfl
@[simp] theorem dmemByte_setTab (x y : U256) (a : Nat) : (s.setTab x y).dmemByte a = s.dmemByte a := rfl
@[simp] theorem dmemByte_consume (k : Nat) (a : Nat) : (s.consume k).dmemByte a = s.dmemByte a := rfl
@[simp] theorem dmemByte_complete (a : Nat) : (complete s).dmemByte a = s.dmemByte a := rfl
@[simp] theorem dmemByte_raiseError (e : ErrCode) (a : Nat) : (raiseError e s).dmemByte a = s.dmemByte a := rfl
@[simp] theorem dmemByte_respond (r : Resp) (a : Nat) : (s.respond r).dmemByte a = s.dmemByte a := rfl
@[simp] theorem dmemByte_acceptStart (a : Nat) : (acceptStart s).dmemByte a = s.dmemByte a := rfl
@[simp] theorem dmemByte_ignoreWrite (a : Nat) : (ignoreWrite s).dmemByte a = s.dmemByte a := rfl
@[simp] theorem dmemByte_clearError (a : Nat) : (clearError s).dmemByte a = s.dmemByte a := rfl
@[simp] theorem memRead_setW (i : WReg) (v : U256) (a k : Nat) : (s.setW i v).memRead a k = s.memRead a k := rfl
@[simp] theorem memRead_putW (i : WReg) (v : Nat) (a k : Nat) : (s.putW i v).memRead a k = s.memRead a k := rfl
@[simp] theorem memRead_setP (i : PReg) (v : Triple) (a k : Nat) : (s.setP i v).memRead a k = s.memRead a k := rfl
@[simp] theorem memRead_putPoint (i : PReg) (q : Point) (a k : Nat) : (s.putPoint i q).memRead a k = s.memRead a k := rfl
@[simp] theorem memRead_setRes (v : Word32) (a k : Nat) : (s.setRes v).memRead a k = s.memRead a k := rfl
@[simp] theorem memRead_setOutlen (k : Nat) (a k' : Nat) : (s.setOutlen k).memRead a k' = s.memRead a k' := rfl
@[simp] theorem memRead_setTab (x y : U256) (a k : Nat) : (s.setTab x y).memRead a k = s.memRead a k := rfl
@[simp] theorem memRead_consume (k : Nat) (a k' : Nat) : (s.consume k).memRead a k' = s.memRead a k' := rfl
@[simp] theorem memRead_complete (a k : Nat) : (complete s).memRead a k = s.memRead a k := rfl
@[simp] theorem memRead_raiseError (e : ErrCode) (a k : Nat) : (raiseError e s).memRead a k = s.memRead a k := rfl
@[simp] theorem memRead_respond (r : Resp) (a k : Nat) : (s.respond r).memRead a k = s.memRead a k := rfl
@[simp] theorem memRead_acceptStart (a k : Nat) : (acceptStart s).memRead a k = s.memRead a k := rfl
@[simp] theorem memRead_ignoreWrite (a k : Nat) : (ignoreWrite s).memRead a k = s.memRead a k := rfl
@[simp] theorem memRead_clearError (a k : Nat) : (clearError s).memRead a k = s.memRead a k := rfl
@[simp] theorem readable_setW (i : WReg) (v : U256) (a k : Nat) : (s.setW i v).readable a k = s.readable a k := rfl
@[simp] theorem readable_putW (i : WReg) (v : Nat) (a k : Nat) : (s.putW i v).readable a k = s.readable a k := rfl
@[simp] theorem readable_setP (i : PReg) (v : Triple) (a k : Nat) : (s.setP i v).readable a k = s.readable a k := rfl
@[simp] theorem readable_putPoint (i : PReg) (q : Point) (a k : Nat) : (s.putPoint i q).readable a k = s.readable a k := rfl
@[simp] theorem readable_setRes (v : Word32) (a k : Nat) : (s.setRes v).readable a k = s.readable a k := rfl
@[simp] theorem readable_setOutlen (k : Nat) (a k' : Nat) : (s.setOutlen k).readable a k' = s.readable a k' := rfl
@[simp] theorem readable_setTab (x y : U256) (a k : Nat) : (s.setTab x y).readable a k = s.readable a k := rfl
@[simp] theorem readable_consume (k : Nat) (a k' : Nat) : (s.consume k).readable a k' = s.readable a k' := rfl
@[simp] theorem readable_complete (a k : Nat) : (complete s).readable a k = s.readable a k := rfl
@[simp] theorem readable_raiseError (e : ErrCode) (a k : Nat) : (raiseError e s).readable a k = s.readable a k := rfl
@[simp] theorem readable_respond (r : Resp) (a k : Nat) : (s.respond r).readable a k = s.readable a k := rfl
@[simp] theorem readable_acceptStart (a k : Nat) : (acceptStart s).readable a k = s.readable a k := rfl
@[simp] theorem readable_ignoreWrite (a k : Nat) : (ignoreWrite s).readable a k = s.readable a k := rfl
@[simp] theorem readable_clearError (a k : Nat) : (clearError s).readable a k = s.readable a k := rfl
@[simp] theorem readable_advance (a k : Nat) : s.advance.readable a k = s.readable a k := rfl

@[simp] theorem isBusy_complete : (complete s).isBusy = false := rfl
@[simp] theorem isBusy_raiseError (e : ErrCode) : (raiseError e s).isBusy = false := rfl
@[simp] theorem isBusy_acceptStart : (acceptStart s).isBusy = true := rfl

/-- A W register after a write to one. -/
theorem getW_setW (i j : WReg) (v : U256) : (s.setW i v).getW j = if i = j then v else s.getW j := by
  simp [State.getW, Vector.getElem_set, Fin.ext_iff]

theorem getW_putW (i j : WReg) (v : Nat) :
    (s.putW i v).getW j = if i = j then BitVec.ofNat 256 v else s.getW j := getW_setW s i j _

@[simp] theorem getW_setW_self (i : WReg) (v : U256) : (s.setW i v).getW i = v := by simp [getW_setW]
@[simp] theorem getW_putW_self (i : WReg) (v : Nat) : (s.putW i v).getW i = BitVec.ofNat 256 v := by
  simp [getW_putW]

theorem natW_putW_self (i : WReg) (v : Nat) (h : v < 2 ^ 256) : (s.putW i v).natW i = v := by
  simpa [State.natW] using h

theorem natW_putW_ne (i j : WReg) (v : Nat) (h : i ≠ j) : (s.putW i v).natW j = s.natW j := by
  simp [State.natW, getW_putW, h]

/-- A P register after a write to one. -/
theorem getP_setP (i j : PReg) (t : Triple) : (s.setP i t).getP j = if i = j then t else s.getP j := by
  simp [State.getP, Vector.getElem_set, Fin.ext_iff]

theorem getP_putPoint (i j : PReg) (q : Point) :
    (s.putPoint i q).getP j = if i = j then norm q else s.getP j := getP_setP s i j _

@[simp] theorem getP_setP_self (i : PReg) (t : Triple) : (s.setP i t).getP i = t := by simp [getP_setP]
@[simp] theorem getP_putPoint_self (i : PReg) (q : Point) : (s.putPoint i q).getP i = norm q := by
  simp [getP_putPoint]

theorem natW_lt (i : WReg) : s.natW i < 2 ^ 256 := (s.getW i).isLt

end Machine
end Sys2Proof
end

