-- ==== Sys2Proof/Laws/Memory.lean ====
section
/-! SUPPORT. The laws of DMEM: read after write, what a write leaves alone, and the canonical form every
memory operation keeps. -/

namespace Sys2Proof
namespace Machine

@[simp] theorem Memory.read?_nil (a : Nat) : Memory.read? [] a = none := rfl

/-- The byte read after one write. -/
theorem Memory.read?_store (m : Memory) (a : Nat) (b : Byte) (x : Nat) :
    (m.store a b).read? x = if x = a then some b else m.read? x := by
  induction m with
  | nil => simp [Memory.store, Memory.read?, eq_comm]
  | cons c m ih =>
    unfold Memory.store
    split
    · simp [Memory.read?, eq_comm]
    · split
      · rename_i h
        subst h
        by_cases h' : x = c.1
        · simp [Memory.read?, h']
        · simp [Memory.read?, h', Ne.symm h']
      · rename_i h
        by_cases h' : c.1 = x
        · subst h'
          simp [Memory.read?, Ne.symm h]
        · simp [Memory.read?, h', ih]

/-- The byte read after a string is written from `a` up. -/
theorem Memory.read?_storeAll (bs : List Byte) (m : Memory) (a x : Nat) :
    (m.storeAll a bs).read? x = if a ≤ x ∧ x < a + bs.length then bs[x - a]? else m.read? x := by
  induction bs generalizing m a with
  | nil => simp only [Memory.storeAll, List.length_nil]; rw [if_neg (by omega)]
  | cons b bs ih =>
    rw [Memory.storeAll, ih, Memory.read?_store]
    rcases Nat.lt_trichotomy x a with h | h | h
    · rw [if_neg (by omega), if_neg (by omega), if_neg (by simp only [List.length_cons]; omega)]
    · subst h
      simp
    · obtain ⟨k, rfl⟩ : ∃ k, x = a + 1 + k := ⟨x - (a + 1), by omega⟩
      have h1 : a + 1 + k - (a + 1) = k := by omega
      have h2 : a + 1 + k - a = k + 1 := by omega
      rw [h1, h2, if_neg (show ¬(a + 1 + k = a) by omega)]
      by_cases hk : k < bs.length
      · rw [if_pos (by omega), if_pos (by simp only [List.length_cons]; omega)]; simp
      · rw [if_neg (by omega), if_neg (by simp only [List.length_cons]; omega)]

/-- A byte outside the written region reads as before. -/
theorem Memory.read?_storeAll_outside (m : Memory) (a : Nat) (bs : List Byte) (x : Nat)
    (h : x < a ∨ a + bs.length ≤ x) : (m.storeAll a bs).read? x = m.read? x := by
  rw [Memory.read?_storeAll, if_neg (by omega)]

/-- A byte inside the written region reads as written. -/
theorem Memory.read?_storeAll_inside (m : Memory) (a : Nat) (bs : List Byte) (i : Nat) (h : i < bs.length) :
    (m.storeAll a bs).read? (a + i) = some bs[i] := by
  rw [Memory.read?_storeAll, if_pos (by omega)]
  simp [h]

/-! ### The canonical form -/

theorem Memory.wf_cons (c : Host.Cell) (m : Memory) :
    Memory.wf (c :: m) = true ↔ (∀ d ∈ m, c.1 < d.1) ∧ m.wf = true := by
  simp [Memory.wf, List.all_eq_true]

theorem Memory.mem_store (m : Memory) (a : Nat) (b : Byte) (d : Host.Cell) :
    d ∈ m.store a b → d = (a, b) ∨ d ∈ m := by
  induction m with
  | nil => simp [Memory.store]
  | cons c m ih =>
    unfold Memory.store
    split
    · simp
    · split
      · intro h; rcases List.mem_cons.1 h with h | h
        · exact .inl h
        · exact .inr (List.mem_cons_of_mem _ h)
      · intro h
        rcases List.mem_cons.1 h with h | h
        · exact .inr (h ▸ List.mem_cons_self)
        · rcases ih h with h | h
          · exact .inl h
          · exact .inr (List.mem_cons_of_mem _ h)

/-- A write keeps the canonical form. -/
theorem Memory.wf_store (m : Memory) (a : Nat) (b : Byte) (h : m.wf = true) : (m.store a b).wf = true := by
  induction m with
  | nil => simp [Memory.store, Memory.wf]
  | cons c m ih =>
    obtain ⟨hc, hm⟩ := (Memory.wf_cons c m).1 h
    unfold Memory.store
    split
    · rename_i hlt
      refine (Memory.wf_cons _ _).2 ⟨fun d hd => ?_, h⟩
      rcases List.mem_cons.1 hd with rfl | hd
      · exact hlt
      · exact Nat.lt_trans hlt (hc d hd)
    · split
      · rename_i heq
        exact (Memory.wf_cons _ _).2 ⟨fun d hd => heq ▸ hc d hd, hm⟩
      · refine (Memory.wf_cons _ _).2 ⟨fun d hd => ?_, ih hm⟩
        rcases Memory.mem_store m a b d hd with rfl | hd
        · show c.1 < a
          omega
        · exact hc d hd

theorem Memory.wf_storeAll (bs : List Byte) (m : Memory) (a : Nat) (h : m.wf = true) :
    (m.storeAll a bs).wf = true := by
  induction bs generalizing m a with
  | nil => exact h
  | cons b bs ih => exact ih _ _ (Memory.wf_store m a b h)

/-- A write inside DMEM keeps every address a DMEM address. -/
theorem Memory.inDmem_store (m : Memory) (a : Nat) (b : Byte) (h : m.inDmem = true) (ha : a < Config.dmemSize) :
    (m.store a b).inDmem = true := by
  rw [Memory.inDmem, List.all_eq_true] at *
  intro d hd
  rcases Memory.mem_store m a b d hd with rfl | hd
  · simpa using ha
  · exact h d hd

theorem Memory.inDmem_storeAll (bs : List Byte) (m : Memory) (a : Nat) (h : m.inDmem = true)
    (ha : a + bs.length ≤ Config.dmemSize) : (m.storeAll a bs).inDmem = true := by
  induction bs generalizing m a with
  | nil => exact h
  | cons b bs ih =>
    rw [List.length_cons] at ha
    exact ih _ _ (Memory.inDmem_store m a b h (by omega)) (by omega)

/-! ### Reads of the state's DMEM -/

@[simp] theorem length_memRead (s : State) (a k : Nat) : (s.memRead a k).length = k := by simp [State.memRead]

/-- Reading a written region gives the bytes written. -/
theorem memRead_memWrite (s : State) (a : Nat) (bs : List Byte) :
    (s.memWrite a bs).memRead a bs.length = bs := by
  refine List.ext_getElem (by simp) fun i h1 h2 => ?_
  simp [State.memRead, State.dmemByte, Memory.read?_storeAll_inside _ _ _ _ h2]

/-- Reading a region that a write does not touch. -/
theorem memRead_memWrite_disjoint (s : State) (a k b : Nat) (bs : List Byte)
    (h : a + k ≤ b ∨ b + bs.length ≤ a) : (s.memWrite b bs).memRead a k = s.memRead a k := by
  refine List.map_congr_left fun i hi => ?_
  have := List.mem_range.1 hi
  simp [State.dmemByte, Memory.read?_storeAll_outside _ _ _ (a + i) (by omega : a + i < b ∨ b + bs.length ≤ a + i)]

/-- A written region is readable. -/
theorem readable_memWrite (s : State) (a : Nat) (bs : List Byte) :
    (s.memWrite a bs).readable a bs.length = true := by
  simp only [State.readable, Memory.written, memWrite_dmem, Bool.or_eq_true, List.all_eq_true, List.mem_range]
  exact .inl fun i hi => by simp [Memory.read?_storeAll_inside _ _ _ _ hi]

theorem withRead_eq (s : State) (a k : Nat) (go : List Byte → Host.Outcome State Fault Refusal)
    (h : s.readable a k = true) : withRead s a k go = go (s.memRead a k) := by simp [withRead, h]

/-- All that a read of DMEM can do. -/
theorem withRead_cases (s : State) (a k : Nat) (go : List Byte → Host.Outcome State Fault Refusal) :
    (s.readable a k = true ∧ withRead s a k go = go (s.memRead a k)) ∨
      (s.readable a k = false ∧ withRead s a k go = .fault .dmemUnwritten) := by
  cases h : s.readable a k <;> simp [withRead, h]

end Machine
end Sys2Proof
end

