-- ==== Sys2Proof/Laws/Ops.lean ====
section
/-! SUPPORT. What the shared operations can do, said once: the ends of a command (40_control.md R85, 60_exceptions.md R152) in
the terms of Safety.lean, and the random draw (R87). -/

namespace Sys2Proof
namespace Machine

/-! ### Registers after a write -/

@[simp] theorem getW_setW_same (s : State) (i : WReg) (v : U256) : (s.setW i v).getW i = v := by
  simp [State.getW]

theorem getW_setW_ne (s : State) {i j : WReg} (v : U256) (h : j ≠ i) : (s.setW i v).getW j = s.getW j := by
  have : i.val ≠ j.val := fun e => h (Fin.ext e.symm)
  simp [State.getW, Vector.getElem_set_ne _ _ this]

@[simp] theorem getW_putW_same (s : State) (i : WReg) (v : Nat) : (s.putW i v).getW i = BitVec.ofNat 256 v := by
  simp [State.putW]

theorem getW_putW_ne (s : State) {i j : WReg} (v : Nat) (h : j ≠ i) : (s.putW i v).getW j = s.getW j :=
  getW_setW_ne s _ h

@[simp] theorem getP_setP_same (s : State) (i : PReg) (t : Triple) : (s.setP i t).getP i = t := by
  simp [State.getP]

theorem getP_setP_ne (s : State) {i j : PReg} (t : Triple) (h : j ≠ i) : (s.setP i t).getP j = s.getP j := by
  have : i.val ≠ j.val := fun e => h (Fin.ext e.symm)
  simp [State.getP, Vector.getElem_set_ne _ _ this]

@[simp] theorem getP_putPoint_same (s : State) (i : PReg) (q : Point) : (s.putPoint i q).getP i = norm q := by
  simp [State.putPoint]

theorem getP_putPoint_ne (s : State) {i j : PReg} (q : Point) (h : j ≠ i) : (s.putPoint i q).getP j = s.getP j :=
  getP_setP_ne s _ h

theorem pairNext_ne (i : WReg) : pairNext i ≠ i := by revert i; decide

/-! ### Regions -/

theorem inBounds_iff (a l : Nat) : inBounds a l = true ↔ a + l ≤ Config.dmemSize := by simp [inBounds]

theorem overlap_iff (a1 l1 a2 l2 : Nat) : overlap a1 l1 a2 l2 = true ↔ Overlaps a1 l1 a2 l2 := by
  simp [overlap, Overlaps, and_assoc]

/-! ### The ends of a command -/

theorem endsWell_succeed {s t : State} {x : Writes} {Q : State → Prop} (he : t.err = s.err ∧ t.errcode = s.errcode)
    (hx : OnlyWrites x s (complete t)) (hq : Q (complete t)) : EndsWell (succeed t) s x Q :=
  ⟨_, rfl, ⟨rfl, rfl, rfl, he.1, he.2⟩, hx, hq⟩

theorem endsInError_fail {s t : State} {e : ErrCode} {x : Writes} {Q : State → Prop}
    (hx : OnlyWrites x s (raiseError e t)) (hq : Q (raiseError e t)) : EndsInError (fail e t) s e.code x Q :=
  ⟨_, rfl, ⟨rfl, rfl, rfl, rfl, rfl⟩, hx, hq⟩

/-- A command that fails before it writes anything has written nothing. -/
theorem endsInError_plain (s : State) (e : ErrCode) : EndsInError (fail e s) s e.code {} fun _ => True :=
  endsInError_fail (by simp [OnlyWrites, State.getW, State.getP]) trivial

/-! ### The random draw -/

/-- What one request of a draw with its retry conditions gives: `none` where the word or the attempt is rejected. -/
def drawStep {α : Type} (lo hi : Nat) (attempt : Nat → Except ErrCode (Option α)) (v : U256) :
    Except ErrCode (Option α) :=
  if lo ≤ v.toNat ∧ v.toNat ≤ hi then attempt v.toNat else .ok none

theorem drawLoop_succ {α : Type} (lo hi : Nat) (attempt : Nat → Except ErrCode (Option α)) (word : Nat → U256)
    (fuel i : Nat) :
    drawLoop lo hi attempt word (fuel + 1) i =
      match drawStep lo hi attempt (word i) with
      | .error e => ⟨i + 1, .error e⟩
      | .ok (some r) => ⟨i + 1, .ok r⟩
      | .ok none => drawLoop lo hi attempt word fuel (i + 1) := by
  unfold drawStep
  rw [drawLoop]
  split <;> rfl

/-- All that a draw can do: a result or an error at some request, all earlier ones rejected, or every request
rejected. -/
theorem drawLoop_cases {α : Type} (lo hi : Nat) (attempt : Nat → Except ErrCode (Option α)) (word : Nat → U256)
    (fuel i : Nat) :
    (∃ j r, j < fuel ∧ drawStep lo hi attempt (word (i + j)) = .ok (some r)
        ∧ (∀ k < j, drawStep lo hi attempt (word (i + k)) = .ok none)
        ∧ drawLoop lo hi attempt word fuel i = ⟨i + j + 1, .ok r⟩)
      ∨ (∃ j e, j < fuel ∧ drawStep lo hi attempt (word (i + j)) = .error e
        ∧ (∀ k < j, drawStep lo hi attempt (word (i + k)) = .ok none)
        ∧ drawLoop lo hi attempt word fuel i = ⟨i + j + 1, .error e⟩)
      ∨ ((∀ k < fuel, drawStep lo hi attempt (word (i + k)) = .ok none)
        ∧ drawLoop lo hi attempt word fuel i = ⟨i + fuel, .error .retry⟩) := by
  induction fuel generalizing i with
  | zero => exact .inr (.inr ⟨fun k hk => by omega, rfl⟩)
  | succ fuel ih =>
    rw [drawLoop_succ]
    rcases hs : drawStep lo hi attempt (word i) with e | (_ | r)
    · exact .inr (.inl ⟨0, e, by omega, by simpa using hs, fun k hk => by omega, rfl⟩)
    · have hshift : ∀ j, i + 1 + j = i + (j + 1) := fun j => by omega
      rcases ih (i + 1) with ⟨j, r, hj, h1, h2, h3⟩ | ⟨j, e, hj, h1, h2, h3⟩ | ⟨h2, h3⟩
      · refine .inl ⟨j + 1, r, by omega, by rw [← hshift]; exact h1, fun k hk => ?_, ?_⟩
        · cases k with
          | zero => simpa using hs
          | succ k => rw [← hshift]; exact h2 k (by omega)
        · simp only [h3]; congr 1; omega
      · refine .inr (.inl ⟨j + 1, e, by omega, by rw [← hshift]; exact h1, fun k hk => ?_, ?_⟩)
        · cases k with
          | zero => simpa using hs
          | succ k => rw [← hshift]; exact h2 k (by omega)
        · simp only [h3]; congr 1; omega
      · refine .inr (.inr ⟨fun k hk => ?_, ?_⟩)
        · cases k with
          | zero => simpa using hs
          | succ k => rw [← hshift]; exact h2 k (by omega)
        · simp only [h3]; congr 1; omega
    · exact .inl ⟨0, r, by omega, by simpa using hs, fun k hk => by omega, rfl⟩

/-- The first accepted request decides a draw. -/
theorem takeDraws_first {α : Type} {s : State} {lo hi : Nat} {attempt : Nat → Except ErrCode (Option α)}
    (h0 : s.draws = 0) {j : Nat} {r : α} (hj : j < 64) (hr : drawStep lo hi attempt (s.rngAt j) = .ok (some r))
    (hn : ∀ k < j, drawStep lo hi attempt (s.rngAt k) = .ok none) :
    s.takeDraws lo hi attempt = ⟨j + 1, .ok r⟩ := by
  rw [State.takeDraws, h0]
  have hne : ∀ k, k < j → ∀ o, drawStep lo hi attempt (s.rngAt k) = o → o = .ok none := fun k hk o ho => by
    rw [← ho, hn k hk]
  rcases drawLoop_cases lo hi attempt s.rngAt (Config.retryMax - 0) 0 with
    ⟨i, r', hi', h1, h2, h3⟩ | ⟨i, e, hi', h1, h2, h3⟩ | ⟨h2, h3⟩
  · rw [Nat.zero_add] at h1
    rcases Nat.lt_trichotomy i j with h | rfl | h
    · exact absurd (hne i h _ h1) (by simp)
    · rw [hr] at h1
      obtain rfl : r = r' := by simpa using h1
      simpa using h3
    · have := h2 j h
      rw [Nat.zero_add, hr] at this
      simp at this
  · rw [Nat.zero_add] at h1
    rcases Nat.lt_trichotomy i j with h | rfl | h
    · exact absurd (hne i h _ h1) (by simp)
    · rw [hr] at h1
      simp at h1
    · have := h2 j h
      rw [Nat.zero_add, hr] at this
      simp at this
  · have := h2 j hj
    rw [Nat.zero_add, hr] at this
    simp at this

/-- RETRY_MAX rejected requests end a draw in ERR_RETRY. -/
theorem takeDraws_none {α : Type} {s : State} {lo hi : Nat} {attempt : Nat → Except ErrCode (Option α)}
    (h0 : s.draws = 0) (hn : ∀ k < 64, drawStep lo hi attempt (s.rngAt k) = .ok none) :
    s.takeDraws lo hi attempt = ⟨64, .error .retry⟩ := by
  rw [State.takeDraws, h0]
  rcases drawLoop_cases lo hi attempt s.rngAt (Config.retryMax - 0) 0 with
    ⟨i, r', hi', h1, h2, h3⟩ | ⟨i, e, hi', h1, h2, h3⟩ | ⟨h2, h3⟩
  · rw [Nat.zero_add, hn i hi'] at h1
    simp at h1
  · rw [Nat.zero_add, hn i hi'] at h1
    simp at h1
  · exact h3

/-- All that the draws of one command can do, whatever the counter: at most RETRY_MAX requests, and the result of an
accepted word, the error of an attempt, or ERR_RETRY. -/
theorem takeDraws_cases {α : Type} (s : State) (lo hi : Nat) (attempt : Nat → Except ErrCode (Option α)) :
    (s.takeDraws lo hi attempt).used ≤ 64
      ∧ ((∃ j r, (s.takeDraws lo hi attempt).out = .ok r ∧ lo ≤ (s.rngAt j).toNat ∧ (s.rngAt j).toNat ≤ hi
            ∧ attempt (s.rngAt j).toNat = .ok (some r))
        ∨ (∃ j e, (s.takeDraws lo hi attempt).out = .error e ∧ lo ≤ (s.rngAt j).toNat ∧ (s.rngAt j).toNat ≤ hi
            ∧ attempt (s.rngAt j).toNat = .error e)
        ∨ (s.takeDraws lo hi attempt).out = .error .retry) := by
  have h64 : Config.retryMax - s.draws ≤ 64 := Nat.sub_le _ _
  have hstep : ∀ (v : U256) o, drawStep lo hi attempt v = o → o ≠ .ok none →
      lo ≤ v.toNat ∧ v.toNat ≤ hi ∧ attempt v.toNat = o := fun v o ho hne => by
    unfold drawStep at ho
    split at ho
    · rename_i h
      exact ⟨h.1, h.2, ho⟩
    · exact absurd ho.symm hne
  rw [State.takeDraws]
  rcases drawLoop_cases lo hi attempt s.rngAt (Config.retryMax - s.draws) 0 with
    ⟨i, r, hi', h1, h2, h3⟩ | ⟨i, e, hi', h1, h2, h3⟩ | ⟨h2, h3⟩
  · rw [h3]
    rw [Nat.zero_add] at h1
    exact ⟨by simp only; omega, .inl ⟨i, r, rfl, hstep _ _ h1 (by simp)⟩⟩
  · rw [h3]
    rw [Nat.zero_add] at h1
    exact ⟨by simp only; omega, .inr (.inl ⟨i, e, rfl, hstep _ _ h1 (by simp)⟩)⟩
  · rw [h3]
    exact ⟨by simp only; omega, .inr (.inr rfl)⟩

end Machine
end Sys2Proof
end

