-- ==== Sys2Proof/Laws/Commands.lean ====
section
/-! SUPPORT. Everything a command can do, said once per command and cited by every rule about all commands: it ends
well and wrote its destinations only, or it ends in one of its errors and wrote nothing (DEC's zeros apart), or it
reads an unwritten byte where 20_memory.md R56 has the model fault. -/

namespace Sys2Proof
namespace Machine

/-- The destinations of a command that ends without error, by its rule. -/
def writesOf (i : Instr) (s : State) : Writes :=
  match i with
  | .nop => {}
  | .madd d _ _ _ | .msub d _ _ _ | .mmul d _ _ _ | .minv d _ _ | .msqrt d _ | .mov d _ | .ldc d _ => { w := [d] }
  | .padd d _ _ | .pdbl d _ | .pmul d _ _ | .pnorm d _ | .pldg d | .pdcmp d _ _ => { p := [d] }
  | .pchk _ | .peq _ _ | .keychk _ | .verify .. => { res := true }
  | .pcomp d _ => { w := [d], res := true }
  | .keygen d q => { w := [d], p := [q], rng := true }
  | .hash => { outlen := true, mem := (s.dst.toNat, 32) }
  | .kdf => { outlen := true, mem := (s.dst.toNat, s.dlen.toNat) }
  | .enc .. => { outlen := true, mem := (s.dst.toNat, 97 + s.slen.toNat), rng := true }
  | .dec .. => { outlen := true, mem := (s.dst.toNat, s.slen.toNat - 97) }
  | .sign rs .. => { w := [rs, pairNext rs], rng := true }
  | .precomp _ => { tab := true }

/-- The errors of a command that leave everything but STATUS as it was (60_exceptions.md R148). -/
def errorsOf : Instr → List ErrCode
  | .minv .. => [.noInv]
  | .msqrt .. => [.noSqrt]
  | .pmul .. => [.point]
  | .pcomp .. => [.inf]
  | .pdcmp .. => [.decode]
  | .keygen .. => [.retry]
  | .hash | .kdf => [.bounds]
  | .enc .. | .sign .. => [.bounds, .key, .retry]
  | .dec .. => [.bounds, .decode, .key, .invCt]
  | .verify .. => [.noTab, .bounds, .key]
  | .precomp .. => [.key]
  | _ => []

/-- The command makes RNG requests (10_state.md R25). -/
def drawsRandom : Instr → Bool
  | .keygen .. | .enc .. | .sign .. => true
  | _ => false

/-- The values a command that ends well leaves in RES, OUTLEN and TAB_KEY. -/
def resultOf (i : Instr) (s t : State) : Prop :=
  match i with
  | .pchk .. | .peq .. | .keychk .. | .verify .. => t.res = 0 ∨ t.res = 1
  | .pcomp .. => t.res = 2 ∨ t.res = 3
  | .hash => t.outlen.toNat = 32
  | .kdf => t.outlen = s.dlen ∧ s.dlen.toNat ≤ Config.dmemSize
  | .enc .. => t.outlen.toNat = 97 + s.slen.toNat ∧ 97 + s.slen.toNat ≤ Config.dmemSize
  | .dec .. => t.outlen.toNat = s.slen.toNat - 97 ∧ s.slen.toNat ≤ Config.dmemSize
  | .precomp .. => t.tabv = true ∧ keyValid ⟨t.tabKey.x, t.tabKey.y, 1⟩ = true
  | _ => True

/-- DMEM keeps its canonical form and its addresses. -/
def KeepsMemory (s t : State) : Prop := s.memoryInv = true → t.memoryInv = true

/-- The command ends well. -/
def Well (i : Instr) (s t : State) : Prop :=
  Succeeded s t ∧ OnlyWrites (writesOf i s) s t ∧ resultOf i s t ∧ KeepsMemory s t
    ∧ ∃ k ≤ 64, t.rng = s.rng.drop k ∧ (drawsRandom i = false → k = 0)

/-- The command ends in an error that leaves everything but STATUS and the RNG port's words. -/
def Precise (i : Instr) (s t : State) : Prop :=
  (∃ e ∈ errorsOf i, Failed e.code t) ∧ OnlyWrites { rng := true } s t ∧ t.dmem = s.dmem
    ∧ ∃ k ≤ 64, t.rng = s.rng.drop k ∧ (drawsRandom i = false → k = 0)

/-- DEC's integrity failure. -/
def BadDigest (i : Instr) (s t : State) : Prop :=
  (∃ key tm, i = .dec key tm) ∧ Failed 8 t ∧ OnlyWrites { mem := (s.dst.toNat, s.slen.toNat - 97) } s t
    ∧ (∀ a, s.dst.toNat ≤ a → a < s.dst.toNat + (s.slen.toNat - 97) → t.dmem.read? a = some 0) ∧ KeepsMemory s t

/-- The command reads an unwritten byte of an input region and the model faults. -/
def Unwritten (s : State) : Prop :=
  Config.dmemUninit = .fault ∧ ∃ a, s.dmem.read? a = none
    ∧ (s.src.toNat ≤ a ∧ a < s.src.toNat + s.slen.toNat ∨ s.idaddr.toNat ≤ a ∧ a < s.idaddr.toNat + s.idlen.toNat)

/-- All that a command can do. -/
def Outcome (i : Instr) (s : State) : Prop :=
  (∃ t, exec i s = .next t ∧ (Well i s t ∨ Precise i s t ∨ BadDigest i s t))
    ∨ exec i s = .fault .dmemUnwritten ∧ Unwritten s

theorem keepsMemory_of_eq {s t : State} (h : t.dmem = s.dmem) : KeepsMemory s t := by
  unfold KeepsMemory State.memoryInv
  rw [h]
  exact id

/-- A string written in bounds keeps DMEM's form. -/
theorem keepsMemory_storeAll {s t : State} {a : Nat} {bs : List Byte} (h : t.dmem = s.dmem.storeAll a bs)
    (hb : a + bs.length ≤ Config.dmemSize) : KeepsMemory s t := by
  unfold KeepsMemory State.memoryInv
  rw [h]
  simp only [Bool.and_eq_true]
  exact fun ⟨h1, h2⟩ => ⟨Memory.wf_storeAll _ _ _ h1, Memory.inDmem_storeAll _ _ _ h2 hb⟩

/-- An error raised before anything is written. -/
theorem outcome_fail {i : Instr} {s : State} {e : ErrCode} (h : exec i s = fail e s) (he : e ∈ errorsOf i) :
    Outcome i s :=
  .inl ⟨_, h, .inr (.inl ⟨⟨e, he, rfl, rfl, rfl, rfl, rfl⟩, by simp [OnlyWrites, State.getW, State.getP], rfl,
    0, by omega, rfl, fun _ => rfl⟩)⟩

/-- A command that draws nothing and leaves DMEM ends well. -/
theorem outcome_succeed {i : Instr} {s t : State} (h : exec i s = succeed t) (he : t.err = s.err ∧ t.errcode = s.errcode)
    (hw : OnlyWrites (writesOf i s) s (complete t)) (hr : resultOf i s (complete t)) (hm : t.dmem = s.dmem)
    (hk : t.rng = s.rng) : Outcome i s :=
  .inl ⟨_, h, .inl ⟨⟨rfl, rfl, rfl, he.1, he.2⟩, hw, hr, keepsMemory_of_eq hm, 0, by omega, hk, fun _ => rfl⟩⟩

/-- A command that reads a region goes on with it, or the model faults. -/
theorem outcome_withRead {i : Instr} {s : State} {a l : Nat} {go : List Byte → Host.Outcome State Fault Refusal}
    (h : exec i s = withRead s a l go)
    (hin : a = s.src.toNat ∧ l = s.slen.toNat ∨ a = s.idaddr.toNat ∧ l = s.idlen.toNat)
    (hgo : exec i s = go (s.memRead a l) → Outcome i s) : Outcome i s := by
  rcases withRead_cases s a l go with ⟨_, h2⟩ | ⟨h1, h2⟩
  · exact hgo (h.trans h2)
  · refine .inr ⟨h.trans h2, ?_⟩
    simp only [State.readable, Bool.or_eq_false_iff, decide_eq_false_iff_not, Memory.written, List.all_eq_false,
      List.mem_range] at h1
    obtain ⟨⟨j, hj, hn⟩, hd⟩ := h1
    refine ⟨?_, a + j, by simpa using hn, by omega⟩
    cases hc : Config.dmemUninit
    · exact absurd hc hd
    · rfl

/-- A drawing command ends well or in ERR_RETRY, given what its accepted attempts write. -/
theorem outcome_draw {α : Type} {i : Instr} {s : State} {lo hi : Nat}
    {attempt : Nat → Except ErrCode (Option α)} {writes : α → State → State}
    (h : exec i s = .next (concludeDraw s (s.takeDraws lo hi attempt) writes)) (hd : drawsRandom i = true)
    (hr : .retry ∈ errorsOf i) (hne : ∀ v e, attempt v ≠ .error e)
    (hw : ∀ r v k, attempt v = .ok (some r) → k ≤ 64 →
      let t := complete (writes r (s.consume k))
      Succeeded s t ∧ OnlyWrites (writesOf i s) s t ∧ resultOf i s t ∧ KeepsMemory s t ∧ t.rng = s.rng.drop k) :
    Outcome i s := by
  have hu := (takeDraws_cases s lo hi attempt).1
  rcases (takeDraws_cases s lo hi attempt).2 with ⟨j, r, ho, _, _, ha⟩ | ⟨j, e, ho, _, _, ha⟩ | ho
  · rw [concludeDraw, ho] at h
    obtain ⟨h1, h2, h3, h4, h5⟩ := hw r _ _ ha hu
    exact .inl ⟨_, h, .inl ⟨h1, h2, h3, h4, _, hu, h5, fun hf => by rw [hd] at hf; cases hf⟩⟩
  · exact absurd ha (hne _ _)
  · rw [concludeDraw, ho] at h
    exact .inl ⟨_, h, .inr (.inl ⟨⟨.retry, hr, rfl, rfl, rfl, rfl, rfl⟩,
      by simp [OnlyWrites, State.getW, State.getP, State.consume], rfl, _, hu, rfl,
      fun hf => by rw [hd] at hf; cases hf⟩)⟩

/-! ### Register writes -/

theorem onlyWrites_putW (s : State) (d : WReg) (v : Nat) : OnlyWrites { w := [d] } s (complete (s.putW d v)) := by
  refine ⟨fun j hj => getW_putW_ne s v (by simpa using hj), ?_⟩
  simp [State.getP]

theorem onlyWrites_setW (s : State) (d : WReg) (v : U256) : OnlyWrites { w := [d] } s (complete (s.setW d v)) := by
  refine ⟨fun j hj => getW_setW_ne s v (by simpa using hj), ?_⟩
  simp [State.getP]

theorem onlyWrites_putPoint (s : State) (d : PReg) (q : Point) :
    OnlyWrites { p := [d] } s (complete (s.putPoint d q)) := by
  refine ⟨fun j _ => rfl, fun j hj => getP_putPoint_ne s q (by simpa using hj), ?_⟩
  simp

theorem onlyWrites_setRes (s : State) (v : Word32) : OnlyWrites { res := true } s (complete (s.setRes v)) := by
  simp [OnlyWrites, State.getW, State.getP]

theorem onlyWrites_memWrite (s : State) (a k : Nat) (bs : List Byte) (l : Nat) (hl : bs.length = l) :
    OnlyWrites { outlen := true, mem := (a, l) } s (complete ((s.memWrite a bs).setOutlen k)) := by
  subst hl
  refine ⟨fun j _ => rfl, fun j _ => rfl, fun _ => rfl, by simp, fun _ => ⟨rfl, rfl⟩, fun x hx => ?_, by simp⟩
  exact Memory.read?_storeAll_outside _ _ _ _ hx

/-- A command that writes one string in bounds and OUTLEN ends well. -/
theorem outcome_output {i : Instr} {s : State} {k : Nat} {bs : List Byte}
    (h : exec i s = succeed ((s.memWrite s.dst.toNat bs).setOutlen k))
    (hw : writesOf i s = { outlen := true, mem := (s.dst.toNat, bs.length) })
    (hb : s.dst.toNat + bs.length ≤ Config.dmemSize)
    (hr : ∀ t : State, t.outlen = BitVec.ofNat 32 k → resultOf i s t) : Outcome i s :=
  .inl ⟨_, h, .inl ⟨⟨rfl, rfl, rfl, rfl, rfl⟩, hw ▸ onlyWrites_memWrite s _ k bs _ rfl, hr _ rfl,
    keepsMemory_storeAll rfl hb, 0, by omega, rfl, fun _ => rfl⟩⟩

theorem boolWord_eq (b : Bool) : boolWord b = 0 ∨ boolWord b = 1 := by cases b <;> simp [boolWord]

/-! ### Each command -/

theorem outcome_modularBinary {i : Instr} {s : State} {f : Nat → Nat → Nat → Nat} {d a b : WReg} {m : Modulus}
    (h : exec i s = modularBinary f d a b m s) (hw : writesOf i s = { w := [d] }) (hr : ∀ t, resultOf i s t) :
    Outcome i s :=
  outcome_succeed h ⟨rfl, rfl⟩ (hw ▸ onlyWrites_putW s d _) (hr _) rfl rfl

theorem outcome_point {i : Instr} {s : State} {d : PReg} {q : Point} (h : exec i s = succeed (s.putPoint d q))
    (hw : writesOf i s = { p := [d] }) (hr : ∀ t, resultOf i s t) : Outcome i s :=
  outcome_succeed h ⟨rfl, rfl⟩ (hw ▸ onlyWrites_putPoint s d q) (hr _) rfl rfl

theorem outcome_query {i : Instr} {s : State} {b : Bool} (h : exec i s = succeed (s.setRes (boolWord b)))
    (hw : writesOf i s = { res := true }) (hr : ∀ t : State, t.res = 0 ∨ t.res = 1 → resultOf i s t) : Outcome i s :=
  outcome_succeed h ⟨rfl, rfl⟩ (hw ▸ onlyWrites_setRes s _) (hr _ (boolWord_eq b)) rfl rfl

theorem outcome_minv (d a : WReg) (m : Modulus) (s : State) : Outcome (.minv d a m) s := by
  by_cases h : s.natW a % modulus m = 0
  · exact outcome_fail (e := .noInv) (by simp [exec, execMinv, h]) (by simp [errorsOf])
  · exact outcome_succeed (t := s.putW d _) (by rw [exec, execMinv, if_neg h]) ⟨rfl, rfl⟩ (onlyWrites_putW s d _)
      trivial rfl rfl

theorem outcome_msqrt (d a : WReg) (s : State) : Outcome (.msqrt d a) s := by
  by_cases h : sqrtModP (s.natW a % Config.p) * sqrtModP (s.natW a % Config.p) % Config.p ≠ s.natW a % Config.p
  · exact outcome_fail (e := .noSqrt) (by simp only [exec, execMsqrt, if_pos h]) (by simp [errorsOf])
  · exact outcome_succeed (t := s.putW d (sqrtModP (s.natW a % Config.p)))
      (by simp only [exec, execMsqrt, if_neg h]) ⟨rfl, rfl⟩
      (onlyWrites_putW s d _) trivial rfl rfl

theorem outcome_pmul (d a : PReg) (k : WReg) (s : State) : Outcome (.pmul d a k) s := by
  by_cases h : onCurve (s.point a) = true
  · exact outcome_point (d := d) (by rw [exec, execPmul, if_pos h]) rfl fun _ => trivial
  · exact outcome_fail (e := .point) (by rw [exec, execPmul, if_neg h]) (by simp [errorsOf])

theorem outcome_pcomp (d : WReg) (a : PReg) (s : State) : Outcome (.pcomp d a) s := by
  rcases h : s.point a with _ | ⟨x, y⟩
  · exact outcome_fail (e := .inf) (by simp only [exec, execPcomp, h]) (by simp [errorsOf])
  · refine outcome_succeed (t := (s.putW d x).setRes (BitVec.ofNat 32 (compressPrefix y)))
      (by simp only [exec, execPcomp, h]) ⟨rfl, rfl⟩ ?_ ?_ rfl rfl
    · refine ⟨fun j hj => getW_putW_ne s x (by simpa [writesOf] using hj), ?_⟩
      simp [writesOf, State.getP]
    · show BitVec.ofNat 32 (compressPrefix y) = 2 ∨ BitVec.ofNat 32 (compressPrefix y) = 3
      rcases Nat.mod_two_eq_zero_or_one y with h | h <;> simp [compressPrefix, h]

theorem outcome_pdcmp (d : PReg) (x : WReg) (t : Bool) (s : State) : Outcome (.pdcmp d x t) s := by
  by_cases h : s.natW x ≥ Config.p
  · exact outcome_fail (e := .decode) (by rw [exec, execPdcmp, if_pos h]) (by simp [errorsOf])
  · rcases hy : decompressY (s.natW x) t with _ | y
    · exact outcome_fail (e := .decode) (by simp only [exec, execPdcmp, if_neg h, hy]) (by simp [errorsOf])
    · exact outcome_point (d := d) (q := .aff (s.natW x) y) (by simp only [exec, execPdcmp, if_neg h, hy]) rfl
        fun _ => trivial

theorem outcome_keygen (d : WReg) (q : PReg) (s : State) : Outcome (.keygen d q) s := by
  refine outcome_draw rfl rfl (by simp [errorsOf]) (by simp) fun r v k _ _ => ?_
  refine ⟨⟨rfl, rfl, rfl, rfl, rfl⟩, ⟨fun j hj => ?_, fun j hj => ?_, ?_⟩, trivial, keepsMemory_of_eq rfl, rfl⟩
  · exact getW_putW_ne (s.consume k) r (by simpa [writesOf] using hj)
  · exact getP_putPoint_ne ((s.consume k).putW d r) _ (by simpa [writesOf] using hj)
  · simp [writesOf, State.consume]

theorem outcome_hash (s : State) : Outcome .hash s := by
  by_cases h : hashRegionsOk s = true
  · refine outcome_withRead (by rw [exec, execHash, if_pos h]) (.inl ⟨rfl, rfl⟩) fun hx => ?_
    simp only [hashRegionsOk, Bool.and_eq_true, inBounds_iff] at h
    have hl := length_hash (s.memRead s.src.toNat s.slen.toNat)
    generalize hash (s.memRead s.src.toNat s.slen.toNat) = bs at hx hl
    exact outcome_output hx (by rw [hl]; rfl) (by rw [hl]; exact h.1.2) fun t ht => by
      show t.outlen.toNat = 32
      rw [ht]
      rfl
  · exact outcome_fail (e := .bounds) (by rw [exec, execHash, if_neg h]) (by simp [errorsOf])

theorem outcome_kdf (s : State) : Outcome .kdf s := by
  by_cases h : kdfRegionsOk s = true
  · refine outcome_withRead (by rw [exec, execKdf, if_pos h]) (.inl ⟨rfl, rfl⟩) fun hx => ?_
    simp only [kdfRegionsOk, Bool.and_eq_true, inBounds_iff] at h
    simp only [kdf_eq _ _ s.dlen.isLt] at hx
    have hl : ((List.range s.dlen.toNat).map (maskByte (s.memRead s.src.toNat s.slen.toNat))).length
        = s.dlen.toNat := by simp
    generalize (List.range s.dlen.toNat).map (maskByte (s.memRead s.src.toNat s.slen.toNat)) = bs at hx hl
    exact outcome_output hx (by rw [hl]; rfl) (by rw [hl]; exact h.1.2) fun t ht =>
      ⟨by rw [ht]; simp, by omega⟩
  · exact outcome_fail (e := .bounds) (by rw [exec, execKdf, if_neg h]) (by simp [errorsOf])

theorem outcome_precomp (a : PReg) (s : State) : Outcome (.precomp a) s := by
  by_cases h : keyValid (s.getP a) = true
  · refine outcome_succeed (t := s.setTab (s.getP a).x (s.getP a).y) (by rw [exec, execPrecomp, if_pos h]) ⟨rfl, rfl⟩
      ?_ ⟨rfl, ?_⟩ rfl rfl
    · simp [OnlyWrites, writesOf, State.getW, State.getP]
    · have hz : (s.getP a).z = 1 := by
        simp only [keyValid, Bool.and_eq_true, beq_iff_eq] at h
        exact h.1.1.1
      rw [← hz]
      exact h
  · exact outcome_fail (e := .key) (by rw [exec, execPrecomp, if_neg h]) (by simp [errorsOf])

/-- What ENC's checks leave. -/
theorem encCheck_none {key : PReg} {s : State} (h : encCheck key s = none) :
    s.src.toNat + s.slen.toNat ≤ Config.dmemSize ∧ 97 + s.slen.toNat ≤ s.dlen.toNat
      ∧ s.dst.toNat + (97 + s.slen.toNat) ≤ Config.dmemSize
      ∧ overlap s.src.toNat s.slen.toNat s.dst.toNat (97 + s.slen.toNat) = false
      ∧ keyValid (s.getP key) = true := by
  unfold encCheck at h
  split at h <;> try cases h
  split at h <;> try cases h
  split at h <;> try cases h
  split at h <;> try cases h
  simp_all [inBounds]

theorem encCheck_errors {key : PReg} {s : State} {e : ErrCode} (h : encCheck key s = some e) :
    e = .bounds ∨ e = .key := by
  unfold encCheck at h
  repeat' split at h
  all_goals simp_all

/-- The ciphertext of an accepted nonce has 97 bytes more than the message; no attempt ends in an error (R129). -/
theorem encAttempt_cases (q : Point) (t : CipherMode) (m : List Byte) (k : Nat) (hm : m.length < 2 ^ 32) :
    encAttempt q t m k = .ok none ∨ ∃ c, encAttempt q t m k = .ok (some c) ∧ c.length = 97 + m.length := by
  unfold encAttempt
  cases mul k q with
  | inf => exact .inl rfl
  | aff x2 y2 =>
    simp only [kdf_eq _ _ hm]
    split
    · exact .inl rfl
    · refine .inr ⟨_, rfl, ?_⟩
      cases t <;> simp [layout, uncompressedBytes, integrityDigest] <;> omega

theorem outcome_enc (key : PReg) (t : CipherMode) (s : State) : Outcome (.enc key t) s := by
  rcases hc : encCheck key s with _ | e
  · refine outcome_withRead (by simp only [exec, execEnc, hc]; rfl) (.inl ⟨rfl, rfl⟩) fun hx => ?_
    obtain ⟨h1, _, h3, _, _⟩ := encCheck_none hc
    have hm : (s.memRead s.src.toNat s.slen.toNat).length = s.slen.toNat := by simp
    generalize s.memRead s.src.toNat s.slen.toNat = m at hx hm
    have hcase := fun v => encAttempt_cases (s.rawKey key) t m v (by rw [hm]; exact s.slen.isLt)
    refine outcome_draw hx rfl (by simp [errorsOf]) (fun v e he => ?_) fun c v k ha _ => ?_
    · rcases hcase v with h | ⟨c, h, _⟩ <;> simp [h] at he
    · have hl : c.length = 97 + s.slen.toNat := by
        rcases hcase v with h | ⟨c', h, hl⟩
        · simp [h] at ha
        · rw [h] at ha
          cases ha
          omega
      refine ⟨⟨rfl, rfl, rfl, rfl, rfl⟩, ⟨fun j _ => rfl, fun j _ => rfl, fun _ => rfl, by simp [writesOf],
        fun _ => ⟨rfl, rfl⟩, fun x hx => ?_, by simp [writesOf, State.consume]⟩, ⟨?_, by omega⟩,
        keepsMemory_storeAll rfl (by omega), rfl⟩
      · exact Memory.read?_storeAll_outside _ _ _ _ (by rw [hl]; exact hx)
      · have hd : Config.dmemSize = 4096 := rfl
        show (BitVec.ofNat 32 (97 + s.slen.toNat)).toNat = _
        rw [BitVec.toNat_ofNat]
        omega
  · refine outcome_fail (e := e) (by simp only [exec, execEnc, hc]) ?_
    rcases encCheck_errors hc with rfl | rfl <;> simp [errorsOf]

/-- What DEC's checks leave. -/
theorem decCheck_none {key : WReg} {s : State} (h : decCheck key s = none) :
    s.src.toNat + s.slen.toNat ≤ Config.dmemSize ∧ 97 ≤ s.slen.toNat ∧ s.slen.toNat - 97 ≤ s.dlen.toNat
      ∧ s.dst.toNat + (s.slen.toNat - 97) ≤ Config.dmemSize
      ∧ overlap s.src.toNat s.slen.toNat s.dst.toNat (s.slen.toNat - 97) = false
      ∧ privValid (s.natW key) = true := by
  unfold decCheck at h
  split at h <;> try cases h
  split at h <;> try cases h
  split at h <;> try cases h
  split at h <;> try cases h
  split at h <;> try cases h
  simp_all [inBounds]

theorem decCheck_errors {key : WReg} {s : State} {e : ErrCode} (h : decCheck key s = some e) :
    e = .bounds ∨ e = .decode ∨ e = .key := by
  unfold decCheck at h
  repeat' split at h
  all_goals simp_all

/-- Both layouts hold C2 in the bytes that the header and C3 leave. -/
theorem length_cipherC2 (t : CipherMode) (ct : List Byte) (h : 97 ≤ ct.length) :
    (cipherC2 t ct).length = ct.length - 97 := by
  cases t with
  | c1c3c2 => simp [cipherC2, slice]
  | c1c2c3 => simp [cipherC2, slice]; omega

/-- What DEC makes of a ciphertext: a message 97 bytes shorter, an integrity failure, ERR_DECODE or ERR_INVCT. -/
theorem decrypt_cases (d : Nat) (t : CipherMode) (ct : List Byte) (h : 97 ≤ ct.length) (hl : ct.length < 2 ^ 32) :
    decrypt d t ct = .error .decode ∨ decrypt d t ct = .error .invCt ∨ decrypt d t ct = .ok none
      ∨ ∃ m, decrypt d t ct = .ok (some m) ∧ m.length = ct.length - 97 := by
  simp only [decrypt, kdf_eq _ (ct.length - 97) (by omega)]
  split
  · exact .inl rfl
  split
  · exact .inl rfl
  split
  · exact .inr (.inl rfl)
  split
  · exact .inr (.inl rfl)
  split
  · exact .inr (.inr (.inr ⟨_, rfl, by simp [length_cipherC2 t ct h]⟩))
  · exact .inr (.inr (.inl rfl))

theorem outcome_dec (key : WReg) (t : CipherMode) (s : State) : Outcome (.dec key t) s := by
  rcases hc : decCheck key s with _ | e
  · refine outcome_withRead (by simp only [exec, execDec, hc]; rfl) (.inl ⟨rfl, rfl⟩) fun hx => ?_
    obtain ⟨h1, h2, _, h4, _, _⟩ := decCheck_none hc
    have hm : (s.memRead s.src.toNat s.slen.toNat).length = s.slen.toNat := by simp
    generalize s.memRead s.src.toNat s.slen.toNat = ct at hx hm
    rcases decrypt_cases (s.natW key) t ct (by omega) (by rw [hm]; exact s.slen.isLt) with h | h | h | ⟨m, h, hl⟩
    · exact outcome_fail (e := .decode) (by simpa only [h] using hx) (by simp [errorsOf])
    · exact outcome_fail (e := .invCt) (by simpa only [h] using hx) (by simp [errorsOf])
    · simp only [h] at hx
      have hz : (zeros (s.slen.toNat - 97)).length = s.slen.toNat - 97 := by simp [zeros]
      refine .inl ⟨_, hx, .inr (.inr ⟨⟨key, t, rfl⟩, ⟨rfl, rfl, rfl, rfl, rfl⟩, ⟨fun j _ => rfl, fun j _ => rfl,
        fun _ => rfl, fun _ => rfl, fun _ => ⟨rfl, rfl⟩, fun a ha => ?_, by simp⟩, fun a ha hb => ?_,
        keepsMemory_storeAll rfl (by omega)⟩)⟩
      · exact Memory.read?_storeAll_outside _ _ _ _ (by rw [hz]; exact ha)
      · show (s.dmem.storeAll s.dst.toNat (zeros (s.slen.toNat - 97))).read? a = some 0
        rw [Memory.read?_storeAll, if_pos (by omega)]
        simp [zeros, List.getElem?_replicate]
        omega
    · simp only [h] at hx
      have hd : Config.dmemSize = 4096 := rfl
      exact outcome_output hx (by rw [hl, hm]; rfl) (by omega) fun u hu =>
        ⟨by rw [hu, BitVec.toNat_ofNat]; omega, by omega⟩
  · refine outcome_fail (e := e) (by simp only [exec, execDec, hc]) ?_
    rcases decCheck_errors hc with rfl | rfl | rfl <;> simp [errorsOf]

/-- A command that needs the digest goes on with it, or the model faults. -/
theorem outcome_withDigest {j : Instr} {s : State} {e : WReg} {h i : Bool} {q : Point}
    {go : Nat → Host.Outcome State Fault Refusal} (hj : exec j s = withDigest e h i q s go)
    (hgo : ∀ ev, exec j s = go ev → Outcome j s) : Outcome j s := by
  unfold withDigest at hj
  split at hj
  · exact hgo _ hj
  · unfold withIdentity at hj
    split at hj
    · exact outcome_withRead hj (.inl ⟨rfl, rfl⟩) fun hx => hgo _ hx
    · exact outcome_withRead hj (.inr ⟨rfl, rfl⟩) fun hx => outcome_withRead hx (.inl ⟨rfl, rfl⟩) fun hy => hgo _ hy

theorem signAttempt_ne_error (d e k : Nat) (c : ErrCode) : signAttempt d e k ≠ .error c := by
  unfold signAttempt
  simp only
  split
  · simp
  · split <;> simp

theorem outcome_sign (rs key e : WReg) (h i : Bool) (s : State) : Outcome (.sign rs key e h i) s := by
  by_cases h1 : (!h && !digestRegionsOk i s) = true
  · exact outcome_fail (e := .bounds) (by rw [exec, execSign, if_pos h1]) (by simp [errorsOf])
  by_cases h2 : (!privValid (s.natW key)) = true
  · exact outcome_fail (e := .key) (by rw [exec, execSign, if_neg h1, if_pos h2]) (by simp [errorsOf])
  refine outcome_withDigest (by rw [exec, execSign, if_neg h1, if_neg h2]) fun ev hx => ?_
  refine outcome_draw hx rfl (by simp [errorsOf]) (fun v c => signAttempt_ne_error _ _ _ _) fun sig v k _ _ => ?_
  refine ⟨⟨rfl, rfl, rfl, rfl, rfl⟩, ⟨fun j hj => ?_, fun j _ => rfl, by simp [writesOf, State.consume]⟩, trivial,
    keepsMemory_of_eq rfl, rfl⟩
  simp only [writesOf, List.mem_cons, List.not_mem_nil, or_false, not_or] at hj
  exact (getW_putW_ne ((s.consume k).putW rs sig.1) _ hj.2).trans (getW_putW_ne (s.consume k) _ hj.1)

theorem verifyCheck_errors {key : PReg} {h i u : Bool} {s : State} {e : ErrCode}
    (hc : verifyCheck key h i u s = some e) : e = .noTab ∨ e = .bounds ∨ e = .key := by
  unfold verifyCheck at hc
  repeat' split at hc
  all_goals simp_all

theorem outcome_verify (rs e : WReg) (key : PReg) (h i u : Bool) (s : State) :
    Outcome (.verify rs e key h i u) s := by
  rcases hc : verifyCheck key h i u s with _ | c
  · by_cases hr : sigInRange (s.natW rs) (s.natW (pairNext rs)) = true
    · refine outcome_withDigest (by simp only [exec, execVerify, hc, if_pos hr]; rfl) fun ev hx => ?_
      exact outcome_query hx rfl fun _ ht => ht
    · exact outcome_query (b := false) (by simp only [exec, execVerify, hc, if_neg hr]; rfl) rfl fun _ ht => ht
  · refine outcome_fail (e := c) (by simp only [exec, execVerify, hc]) ?_
    rcases verifyCheck_errors hc with rfl | rfl | rfl <;> simp [errorsOf]

/-- Every command in every state does one of the things `Outcome` lists. -/
theorem exec_outcome (i : Instr) (s : State) : Outcome i s := by
  cases i with
  | nop =>
    exact outcome_succeed (t := s) rfl ⟨rfl, rfl⟩ (by simp [OnlyWrites, writesOf, State.getW, State.getP]) trivial
      rfl rfl
  | madd d a b m => exact outcome_modularBinary rfl rfl fun _ => trivial
  | msub d a b m => exact outcome_modularBinary rfl rfl fun _ => trivial
  | mmul d a b m => exact outcome_modularBinary rfl rfl fun _ => trivial
  | minv d a m => exact outcome_minv d a m s
  | msqrt d a => exact outcome_msqrt d a s
  | mov d a => exact outcome_succeed rfl ⟨rfl, rfl⟩ (onlyWrites_setW s d _) trivial rfl rfl
  | ldc d c => exact outcome_succeed rfl ⟨rfl, rfl⟩ (onlyWrites_putW s d _) trivial rfl rfl
  | padd d a b => exact outcome_point rfl rfl fun _ => trivial
  | pdbl d a => exact outcome_point rfl rfl fun _ => trivial
  | pmul d a k => exact outcome_pmul d a k s
  | pnorm d a => exact outcome_point rfl rfl fun _ => trivial
  | pldg d => exact outcome_point rfl rfl fun _ => trivial
  | pchk a => exact outcome_query rfl rfl fun _ ht => ht
  | peq a b => exact outcome_query rfl rfl fun _ ht => ht
  | pcomp d a => exact outcome_pcomp d a s
  | pdcmp d x t => exact outcome_pdcmp d x t s
  | keygen d q => exact outcome_keygen d q s
  | keychk a => exact outcome_query rfl rfl fun _ ht => ht
  | hash => exact outcome_hash s
  | kdf => exact outcome_kdf s
  | enc key t => exact outcome_enc key t s
  | dec key t => exact outcome_dec key t s
  | sign rs key e h i => exact outcome_sign rs key e h i s
  | verify rs e key h i u => exact outcome_verify rs e key h i u s
  | precomp a => exact outcome_precomp a s

end Machine
end Sys2Proof
end

