-- ==== Sys2Proof/Laws/Crypto.lean ====
section
/-! SUPPORT. The attempts of ENC and SIGN, the parts of DEC and the test of VERIFY in the rules' own terms
(46_ecies.md, 47_sm2sig.md), each said once. -/

namespace Sys2Proof
namespace Machine

/-- A finite point of the curve has coordinates that are 256-bit words. -/
theorem exists_words {q : Point} (hv : q.Valid) (hf : q ≠ .inf) :
    ∃ x y : U256, q = .aff x.toNat y.toNat ∧ x.toNat < Config.p ∧ y.toNat < Config.p := by
  cases q with
  | inf => exact absurd rfl hf
  | aff x y =>
    have hx := hv.1.1
    have hy := hv.1.2
    have hp := p_lt
    refine ⟨BitVec.ofNat 256 x, BitVec.ofNat 256 y, ?_⟩
    rw [BitVec.toNat_ofNat, BitVec.toNat_ofNat, Nat.mod_eq_of_lt (hx.trans hp), Nat.mod_eq_of_lt (hy.trans hp)]
    exact ⟨rfl, hx, hy⟩

/-- A private key's or nonce's multiple of G is finite. -/
theorem mul_basePoint_words (k : Nat) (h1 : 1 ≤ k) (h2 : k < Config.n) :
    ∃ x y : U256, mul k basePoint = .aff x.toNat y.toNat ∧ x.toNat < Config.p ∧ y.toNat < Config.p :=
  exists_words (valid_mul valid_basePoint k) (mul_basePoint_ne_inf k h1 h2)

/-- So is its multiple of a valid key. -/
theorem mul_key_words {t : Triple} (hk : GoodKey t) (k : Nat) (h1 : 1 ≤ k) (h2 : k < Config.n) :
    ∃ x y : U256, mul k (.aff t.x.toNat t.y.toNat) = .aff x.toNat y.toNat ∧ x.toNat < Config.p ∧ y.toNat < Config.p :=
  exists_words (valid_mul (valid_of_goodKey hk) k) (mul_ne_inf (valid_of_goodKey hk) (by simp) k h1 h2)

theorem sharedBytes_eq (x y : U256) : sharedBytes (.aff x.toNat y.toNat) = be256 x ++ be256 y := by
  simp [sharedBytes, Point.xCoord, Point.yCoord, i2os_toNat]

theorem integrityDigest_eq (x y : U256) (m : List Byte) :
    integrityDigest (.aff x.toNat y.toNat) m = (List.range 32).map (digestByte (be256 x ++ m ++ be256 y)) := by
  simp [integrityDigest, Point.xCoord, Point.yCoord, i2os_toNat, hash_eq]

/-- ENC's ciphertext is the one of R132. -/
theorem layout_eq_cipherText (t : CipherMode) (x1 y1 x2 y2 : U256) (m : List Byte) :
    layout t (uncompressedBytes x1.toNat y1.toNat)
        (xorBytes m ((List.range m.length).map (maskByte (be256 x2 ++ be256 y2))))
        (integrityDigest (.aff x2.toNat y2.toNat) m)
      = cipherText t x1 y1 x2 y2 m := by
  cases t <;> simp only [layout, cipherText, uncompressedBytes, i2os_toNat, xorBytes_eq_map, integrityDigest_eq]

/-! ### ENC's nonce -/

theorem aff_words_inj {x1 y1 x2 y2 : U256} (h : Point.aff x1.toNat y1.toNat = .aff x2.toNat y2.toNat) :
    x1 = x2 ∧ y1 = y2 := by
  simp only [Point.aff.injEq] at h
  exact ⟨BitVec.eq_of_toNat_eq h.1, BitVec.eq_of_toNat_eq h.2⟩

/-- A good nonce gives the ciphertext of R132. -/
theorem drawStep_enc_good {key : Triple} (t : CipherMode) {m : List Byte} (hm : m.length < 2 ^ 32)
    {v : U256} (hv : encNonce key m.length v) :
    ∃ x1 y1 x2 y2 : U256, mul v.toNat basePoint = .aff x1.toNat y1.toNat
      ∧ mul v.toNat (.aff key.x.toNat key.y.toNat) = .aff x2.toNat y2.toNat
      ∧ drawStep 1 (Config.n - 1) (encAttempt (.aff key.x.toNat key.y.toNat) t m) v
          = .ok (some (cipherText t x1 y1 x2 y2 m)) := by
  obtain ⟨h1, h2, x2, y2, hs, hmask⟩ := hv
  have hn : Config.n - 1 < Config.n := by decide
  obtain ⟨x1, y1, hg, _⟩ := mul_basePoint_words v.toNat h1 (by omega)
  refine ⟨x1, y1, x2, y2, hg, hs, ?_⟩
  rw [drawStep, if_pos ⟨h1, h2⟩]
  simp only [encAttempt, hs, hg, sharedBytes_eq, kdf_eq _ _ hm, map_eq_zeros_iff]
  rw [if_neg]
  · simp only [Point.xCoord, Point.yCoord, layout_eq_cipherText]
  · rintro ⟨h0, hz⟩
    rcases hmask with h | ⟨i, hi, hne⟩
    · omega
    · exact hne (hz i hi)

/-- Any other word is rejected. -/
theorem drawStep_enc_bad {key : Triple} (hk : GoodKey key) (t : CipherMode) {m : List Byte} (hm : m.length < 2 ^ 32)
    {v : U256} (hv : ¬ encNonce key m.length v) :
    drawStep 1 (Config.n - 1) (encAttempt (.aff key.x.toNat key.y.toNat) t m) v = .ok none := by
  unfold drawStep
  split
  · rename_i hr
    have hn : Config.n - 1 < Config.n := by decide
    obtain ⟨x2, y2, hs, _⟩ := mul_key_words hk v.toNat hr.1 (by omega)
    simp only [encAttempt, hs, sharedBytes_eq, kdf_eq _ _ hm, map_eq_zeros_iff]
    rw [if_pos]
    by_contra hc
    refine hv ⟨hr.1, hr.2, x2, y2, hs, ?_⟩
    by_cases h0 : m.length = 0
    · exact .inl h0
    · refine .inr ?_
      by_contra hall
      push Not at hall
      exact hc ⟨by omega, hall⟩
  · rfl

/-! ### SIGN's nonce -/

/-- In the ring mod n, `1 + d` has an inverse for a private key d (47_sm2sig.md R142). -/
theorem one_add_key_ne_zero {d : Nat} (h1 : 1 ≤ d) (h2 : d ≤ Config.n - 2) : ((1 + d : Nat) : ZMod Config.n) ≠ 0 := by
  have hn : 2 < Config.n := by decide
  rw [Ne, ZMod.natCast_eq_zero_iff]
  intro h
  have := Nat.le_of_dvd (by omega) h
  omega

theorem emod_n_iff (z : Int) : z % Config.n = 0 ↔ ((z : Int) : ZMod Config.n) = 0 := by
  rw [ZMod.intCast_zmod_eq_zero_iff_dvd]
  exact (Int.dvd_iff_emod_eq_zero).symm

theorem n_pos : 0 < Config.n := by decide

/-- The s of R142 in the ring mod n. -/
theorem cast_sign_s (d r k : Nat) :
    ((invMod Config.n (1 + d) * subMod Config.n k (r * d) % Config.n : Nat) : ZMod Config.n)
      = ((1 + d : Nat) : ZMod Config.n)⁻¹ * (k - r * d) := by
  have := fact_prime_n
  rw [ZMod.natCast_mod, Nat.cast_mul, cast_invMod _ _ (by decide) n_lt, cast_subMod _ _ _ n_pos, Nat.cast_mul]

/-- The s of R142 is 0 exactly when k − r·d is. -/
theorem sign_s_eq_zero_iff {d : Nat} (h1 : 1 ≤ d) (h2 : d ≤ Config.n - 2) (r k : Nat) :
    invMod Config.n (1 + d) * subMod Config.n k (r * d) % Config.n = 0 ↔ ((k : Int) - (r : Nat) * d) % Config.n = 0 := by
  have := fact_prime_n
  have hc := cast_sign_s d r k
  have hd := one_add_key_ne_zero h1 h2
  rw [emod_n_iff]
  push_cast
  constructor
  · intro h
    rw [h, Nat.cast_zero] at hc
    rcases mul_eq_zero.1 hc.symm with h | h
    · exact absurd h (inv_ne_zero hd)
    · exact h
  · intro h
    rw [h, mul_zero, ZMod.natCast_eq_zero_iff, Nat.dvd_iff_mod_eq_zero, Nat.mod_mod] at hc
    exact hc

/-- A good nonce gives the r and s of R142. -/
theorem drawStep_sign_good {d e : Nat} (h1 : 1 ≤ d) (h2 : d ≤ Config.n - 2) {v : U256} (hv : signNonce d e v) :
    ∃ x1 y1 sg, mul v.toNat basePoint = .aff x1 y1
      ∧ drawStep 1 (Config.n - 1) (signAttempt d e) v = .ok (some ((e + x1) % Config.n, sg))
      ∧ sg = invMod Config.n (1 + d) * subMod Config.n v.toNat ((e + x1) % Config.n * d) % Config.n
      ∧ 1 ≤ (e + x1) % Config.n ∧ 1 ≤ sg ∧ sg < Config.n := by
  obtain ⟨ha, hb, x1, y1, hm, hr, hrk, hs⟩ := hv
  have hs' := mt (sign_s_eq_zero_iff h1 h2 ((e + x1) % Config.n) v.toNat).1 hs
  refine ⟨x1, y1, _, hm, ?_, rfl, by omega, by omega, Nat.mod_lt _ n_pos⟩
  rw [drawStep, if_pos ⟨ha, hb⟩]
  simp only [signAttempt, hm, Point.xCoord]
  rw [if_neg (by rintro (h | h); exacts [hr h, hrk h]), if_neg hs']

/-- Any other word is rejected. -/
theorem drawStep_sign_bad {d e : Nat} (h1 : 1 ≤ d) (h2 : d ≤ Config.n - 2) {v : U256} (hv : ¬ signNonce d e v) :
    drawStep 1 (Config.n - 1) (signAttempt d e) v = .ok none := by
  unfold drawStep
  split
  · rename_i hr
    have hn : Config.n - 1 < Config.n := by decide
    obtain ⟨x1, y1, hg, _⟩ := mul_basePoint_words v.toNat hr.1 (by omega)
    simp only [signAttempt, hg, Point.xCoord]
    split
    · rfl
    · rename_i hor
      push Not at hor
      rw [if_pos]
      by_contra hs
      exact hv ⟨hr.1, hr.2, x1.toNat, y1.toNat, hg, hor.1, hor.2, mt (sign_s_eq_zero_iff h1 h2 _ _).2 hs⟩
  · rfl

/-- What SIGN writes satisfies s·(1 + d) ≡ k − r·d (R142). -/
theorem sign_s_spec {d : Nat} (h1 : 1 ≤ d) (h2 : d ≤ Config.n - 2) (r k : Nat) :
    (((invMod Config.n (1 + d) * subMod Config.n k (r * d) % Config.n : Nat) : Int) * (1 + d) - (k - r * d)) % Config.n
      = 0 := by
  have := fact_prime_n
  have hd := one_add_key_ne_zero h1 h2
  rw [emod_n_iff, Int.cast_sub, Int.cast_mul, Int.cast_natCast, cast_sign_s]
  push_cast at hd ⊢
  field_simp
  ring

/-- The digest in the terms of R139 and R140. -/
theorem za_eq (ident : List Byte) (x y : U256) :
    za ident x.toNat y.toNat = be256 (Config.hashWord (zaInput ident x y)) := by
  have h : ∀ v, v = Config.a ∨ v = Config.b ∨ v = Config.gx ∨ v = Config.gy → v < 2 ^ 256 := by
    rintro v (rfl | rfl | rfl | rfl) <;> decide
  rw [za, hash_eq_be256, zaInput, i2os_toNat, i2os_toNat, i2os_eq_be256 _ (h _ (.inl rfl)),
    i2os_eq_be256 _ (h _ (.inr (.inl rfl))), i2os_eq_be256 _ (h _ (.inr (.inr (.inl rfl)))),
    i2os_eq_be256 _ (h _ (.inr (.inr (.inr rfl))))]
  rfl

theorem digest_eq (ident : List Byte) (x y : U256) (m : List Byte) :
    digest ident x.toNat y.toNat m
      = (Config.hashWord (be256 (Config.hashWord (zaInput ident x y)) ++ m)).toNat := by
  rw [digest, za_eq, os2i_hash]

/-- SIGN and VERIFY go on with the digest of R140, or the model faults. -/
theorem withDigest_cases (e : WReg) (h i : Bool) (x y : U256) (s : State)
    (go : Nat → Host.Outcome State Fault Refusal) :
    (SigReadable h i s ∧ withDigest e h i (.aff x.toNat y.toNat) s go = go (digestOf e h i x y s))
      ∨ (¬ SigReadable h i s ∧ withDigest e h i (.aff x.toNat y.toNat) s go = .fault .dmemUnwritten) := by
  unfold withDigest withIdentity digestOf identityOf SigReadable
  cases h
  · cases i
    · rcases withRead_cases s s.idaddr.toNat s.idlen.toNat
        (fun ident => withRead s s.src.toNat s.slen.toNat fun m => go (digest ident x.toNat y.toNat m)) with
        ⟨h1, h2⟩ | ⟨h1, h2⟩
      · rcases withRead_cases s s.src.toNat s.slen.toNat
          (fun m => go (digest (s.memRead s.idaddr.toNat s.idlen.toNat) x.toNat y.toNat m)) with ⟨h3, h4⟩ | ⟨h3, h4⟩
        · refine .inl ⟨.inr ⟨h3, .inr h1⟩, ?_⟩
          rw [digest_eq] at h4
          exact h2.trans h4
        · exact .inr ⟨by simp [h3], h2.trans h4⟩
      · exact .inr ⟨by simp [h1], h2⟩
    · rcases withRead_cases s s.src.toNat s.slen.toNat (fun m => go (digest Config.defId x.toNat y.toNat m)) with
        ⟨h1, h2⟩ | ⟨h1, h2⟩
      · rw [digest_eq] at h2
        exact .inl ⟨.inr ⟨h1, .inl rfl⟩, h2⟩
      · exact .inr ⟨by simp [h1], h2⟩
  · exact .inl ⟨.inl rfl, rfl⟩

theorem digestRegionsOk_iff (h i : Bool) (s : State) : (!h && !digestRegionsOk i s) = false ↔ SigRegions h i s := by
  cases h <;> cases i <;> simp [digestRegionsOk, SigRegions, inBounds_iff, InDmem, Config.dmemSize]

/-- The test of VERIFY in the terms of R143. -/
theorem sigMatches_iff (k : Point) (e r sg : Nat) :
    sigMatches k e r sg = true ↔ (r + sg) % Config.n ≠ 0
      ∧ ∃ x y, add (mul sg basePoint) (mul ((r + sg) % Config.n) k) = .aff x y ∧ (e + x) % Config.n = r := by
  unfold sigMatches
  simp only
  split
  · simp_all
  · rename_i hne
    cases add (mul sg basePoint) (mul ((r + sg) % Config.n) k) <;> simp_all

/-! ### DEC -/

theorem cipherC2_eq (t : CipherMode) (ct : List Byte) :
    cipherC2 t ct = match t with
      | .c1c3c2 => ct.drop 97
      | .c1c2c3 => (ct.drop 65).take (ct.length - 97) := by
  cases t
  · simp [cipherC2, slice, List.take_of_length_le]
  · simp [cipherC2, slice]

theorem cipherC3_eq (t : CipherMode) (ct : List Byte) :
    cipherC3 t ct = match t with
      | .c1c3c2 => (ct.drop 65).take 32
      | .c1c2c3 => ct.drop (65 + (ct.length - 97)) := by
  cases t
  · simp [cipherC3, slice]
  · simp [cipherC3, slice, List.take_of_length_le]

/-- The coordinates a ciphertext holds. -/
theorem cipher_coords {ct : List Byte} {x y : U256} (h : (ct.drop 1).take 64 = be256 x ++ be256 y) :
    os2i (slice ct 1 33) = x.toNat ∧ os2i (slice ct 33 65) = y.toNat := by
  have h1 : slice ct 1 33 = be256 x := by
    have := congrArg (List.take 32) h
    rw [List.take_take, List.take_append_of_le_length (by simp),
      List.take_of_length_le (l := be256 x) (by simp)] at this
    exact this
  have h2 : slice ct 33 65 = be256 y := by
    have := congrArg (List.drop 32) h
    rw [List.drop_take, List.drop_drop, List.drop_append_of_le_length (by simp),
      List.drop_of_length_le (l := be256 x) (by simp), List.nil_append] at this
    exact this
  rw [h1, h2, os2i_be256, os2i_be256]
  exact ⟨rfl, rfl⟩

end Machine
end Sys2Proof
end

