-- ==== Sys2Proof/Laws/Host.lean ====
section
/-! SUPPORT. The host's side said once: which step a queued access takes, where each offset of the window leads
(10_state.md R31), and what the words of wide values are (R28). -/

namespace Sys2Proof
namespace Machine

/-! ### The step of the queued event -/

theorem step_of_head {s : State} {e : Event} (h : s.inputs.head? = some e) : step s = takeEvent e s.advance := by
  simp [step, nextEvent, List.headD_eq_head?_getD, h]

theorem step_of_engineNext {s : State} (h : s.engineNext) : step s = engineTurn s.advance := by
  rcases h with h | h
  · simp [step, nextEvent, h, takeEvent]
  · rw [step_of_head h]
    rfl

theorem engineNext_iff (s : State) : s.engineNext ↔ nextEvent s = .engine := by
  unfold State.engineNext nextEvent
  cases s.inputs <;> simp

/-- The offset is aligned and in the window. -/
theorem accessOk_ofNat {off : Nat} (h4 : off % 4 = 0) : accessOk (BitVec.ofNat 16 off) 4 = true := by
  simp [accessOk, BitVec.toNat_ofNat, h4]

/-- An aligned write: ignored with WIGN where the busy engine gates it, else the location's write. -/
theorem step_write {s : State} {off : Nat} {v : Word32} (h : s.writeNext off v) (h4 : off % 4 = 0) :
    step s =
      .next
        ((if s.isBusy && (locate (BitVec.ofNat 16 off)).gated then ignoreWrite s.advance
            else writeLoc (locate (BitVec.ofNat 16 off)) v s.advance).respond (.okay none)) := by
  rw [step_of_head h]
  show Host.Outcome.next (hostWrite _ _ _ _) = _
  rw [hostWrite, if_pos (accessOk_ofNat h4)]
  rfl

/-- An aligned read. -/
theorem step_read {s : State} {off : Nat} (h : s.readNext off) (h4 : off % 4 = 0) :
    step s =
      if s.isBusy && (locate (BitVec.ofNat 16 off)).hidden then .next (s.answered (.okay (some 0)))
      else
        match locate (BitVec.ofNat 16 off) with
        | .dmem a => withRead s.advance a 4 fun _ => .next (s.answered (.okay (some (locWord (.dmem a) s.advance))))
        | l => .next (s.answered (.okay (some (locWord l s.advance)))) := by
  rw [step_of_head h]
  show hostRead _ _ _ = _
  rw [hostRead, if_pos (accessOk_ofNat h4)]
  rfl

/-- A read of a host register that is not hidden: its value. -/
theorem step_read_reg {s : State} {off : Nat} {r : HostReg} (h : s.readNext off) (h4 : off % 4 = 0)
    (hl : locate (BitVec.ofNat 16 off) = .reg r) (hh : (s.isBusy && (Loc.reg r).hidden) = false) :
    step s = .next (s.answered (.okay (some (hostRegWord r s)))) := by
  rw [step_read h h4, hl, if_neg (by simp [hh])]
  rfl

/-! ### Runs of several steps -/

theorem steps_next {s t : State} (k : Nat) (h : step s = .next t) : steps (k + 1) s = steps k t := by
  rw [steps, h]

theorem steps_one (s : State) : steps 1 s = step s := by
  rw [steps]
  cases step s <;> rfl

/-- A run of j + k steps is a run of k after a run of j. -/
theorem steps_add {s t : State} (j k : Nat) (h : steps j s = .next t) : steps (j + k) s = steps k t := by
  induction j generalizing s with
  | zero =>
    cases h
    rw [Nat.zero_add]
  | succ j ih =>
    rw [steps] at h
    rw [Nat.add_right_comm, steps]
    cases hs : step s with
    | next u =>
      rw [hs] at h
      exact ih h
    | fault | refused =>
      rw [hs] at h
      cases h

/-- Polls of STATUS (30_encoding.md R79, `RUN`) read the same word and change nothing. -/
theorem steps_polls (k : Nat) {s : State} {rest : List Event} (h : s.inputs = List.replicate k (rd 0x00C) ++ rest) :
    steps k s
      = .next { s with resp := if k = 0 then s.resp else some (.okay (some (statusWord s)))
                       tick := s.tick + k, inputs := rest } := by
  induction k generalizing s with
  | zero =>
    rw [steps]
    congr 1
    cases s
    simp_all
  | succ k ih =>
    have hr : s.readNext 0x00C := by rw [State.readNext, h]; rfl
    have hh : (s.isBusy && (Loc.reg HostReg.status).hidden) = false := by cases s.isBusy <;> rfl
    rw [steps_next k (step_read_reg hr (by decide) (by rfl) hh), ih (by rw [State.answered, h]; rfl)]
    congr 1
    simp only [State.answered, if_neg (Nat.succ_ne_zero k), Nat.add_assoc, Nat.add_comm 1 k]
    split <;> rfl

/-! ### The map of the window -/

theorem locate_wWord (i : WReg) (j : Fin 8) :
    locate (BitVec.ofNat 16 (0x100 + 32 * i.val + 4 * j.val)) = .wWord i j := by
  have hi := i.isLt
  have hj := j.isLt
  have ht : (BitVec.ofNat 16 (0x100 + 32 * i.val + 4 * j.val)).toNat = 0x100 + 32 * i.val + 4 * j.val := by
    rw [BitVec.toNat_ofNat, Nat.mod_eq_of_lt (by omega)]
  unfold locate
  rw [ht]
  simp only
  rw [if_neg (by omega), if_neg (by omega), if_pos (by omega)]
  congr 1 <;> apply Fin.ext <;> simp only [Fin.val_ofNat] <;> omega

theorem coordAt_eq (c : Coord) (k j : Nat) (h : (c, k) ∈ [(Coord.x, 0), (Coord.y, 32), (Coord.z, 64)]) (hj : j < 32) :
    coordAt (k + j) = c := by
  simp only [List.mem_cons, Prod.mk.injEq, List.not_mem_nil, or_false] at h
  unfold coordAt
  rcases h with ⟨rfl, rfl⟩ | ⟨rfl, rfl⟩ | ⟨rfl, rfl⟩
  · rw [show (0 + j) / 32 = 0 by omega]; rfl
  · rw [show (32 + j) / 32 = 1 by omega]; rfl
  · rw [show (64 + j) / 32 = 2 by omega]; rfl

theorem locate_pWord (i : PReg) (c : Coord) (k : Nat) (j : Fin 8)
    (h : (c, k) ∈ [(Coord.x, 0), (Coord.y, 32), (Coord.z, 64)]) :
    locate (BitVec.ofNat 16 (0x300 + 96 * i.val + k + 4 * j.val)) = .pWord i c j := by
  have hi := i.isLt
  have hj := j.isLt
  have hk : k ≤ 64 ∧ k % 32 = 0 := by
    simp only [List.mem_cons, Prod.mk.injEq, List.not_mem_nil, or_false] at h
    omega
  have ht : (BitVec.ofNat 16 (0x300 + 96 * i.val + k + 4 * j.val)).toNat = 0x300 + 96 * i.val + k + 4 * j.val := by
    rw [BitVec.toNat_ofNat, Nat.mod_eq_of_lt (by omega)]
  unfold locate
  rw [ht]
  simp only
  rw [if_neg (by omega), if_neg (by omega), if_neg (by omega), if_pos (by omega)]
  have hc : (0x300 + 96 * i.val + k + 4 * j.val - 0x300) % 96 = k + 4 * j.val := by omega
  have he : Fin.ofNat 8 ((0x300 + 96 * i.val + k + 4 * j.val - 0x300) / 96) = i :=
    Fin.ext (by simp only [Fin.val_ofNat]; omega)
  have hw : Fin.ofNat 8 ((0x300 + 96 * i.val + k + 4 * j.val - 0x300) % 32 / 4) = j :=
    Fin.ext (by simp only [Fin.val_ofNat]; omega)
  rw [he, hw, hc, coordAt_eq c k _ h (by omega)]

theorem locate_dmem {off : Nat} (h1 : 0x1000 ≤ off) (h2 : off < 0x2000) :
    locate (BitVec.ofNat 16 off) = .dmem (off - 0x1000) := by
  have ht : (BitVec.ofNat 16 off).toNat = off := by rw [BitVec.toNat_ofNat, Nat.mod_eq_of_lt (by omega)]
  unfold locate
  rw [ht]
  have hd : Config.dmemSize = 4096 := rfl
  simp only
  rw [if_neg (by omega), if_neg (by omega), if_neg (by omega), if_neg (by omega), if_neg (by omega), if_pos (by omega)]

theorem locate_dmemWord {q : Nat} (h : q < 1024) : locate (BitVec.ofNat 16 (0x1000 + 4 * q)) = .dmem (4 * q) := by
  rw [locate_dmem (by omega) (by omega), Nat.add_sub_cancel_left]

theorem locate_reserved {off : Nat}
    (h : 0x030 ≤ off ∧ off < 0x100 ∨ 0x600 ≤ off ∧ off < 0x1000 ∨ 0x2000 ≤ off ∧ off < 0x10000) :
    locate (BitVec.ofNat 16 off) = .reserved := by
  have ht : (BitVec.ofNat 16 off).toNat = off := by rw [BitVec.toNat_ofNat, Nat.mod_eq_of_lt (by omega)]
  unfold locate
  rw [ht]
  have hd : Config.dmemSize = 4096 := rfl
  simp only
  rcases h with h | h | h
  · rw [if_neg (by omega), if_pos (by omega)]
  · rw [if_neg (by omega), if_neg (by omega), if_neg (by omega), if_neg (by omega), if_pos (by omega)]
  · rw [if_neg (by omega), if_neg (by omega), if_neg (by omega), if_neg (by omega), if_neg (by omega), if_neg (by omega)]

/-- Every location is hidden or gated as its kind is (R40): the W and P windows and DMEM are both. -/
theorem locate_window {off : Nat} (h : 0x100 ≤ off ∧ off < 0x600 ∨ 0x1000 ≤ off ∧ off < 0x2000) :
    (locate (BitVec.ofNat 16 off)).gated = true ∧ (locate (BitVec.ofNat 16 off)).hidden = true := by
  rcases h with h | h
  · have ht : (BitVec.ofNat 16 off).toNat = off := by rw [BitVec.toNat_ofNat, Nat.mod_eq_of_lt (by omega)]
    unfold locate
    rw [ht]
    simp only
    rw [if_neg (by omega), if_neg (by omega)]
    split
    · exact ⟨rfl, rfl⟩
    · rw [if_pos (by omega)]
      exact ⟨rfl, rfl⟩
  · rw [locate_dmem h.1 h.2]
    exact ⟨rfl, rfl⟩

/-- An idle read of a DMEM word. -/
theorem step_read_dmem {s : State} {q : Nat} (h : s.readNext (0x1000 + 4 * q)) (hq : q < 1024)
    (hi : s.engine = .idle) :
    step s = withRead s.advance (4 * q) 4 fun _ => .next (s.answered (.okay (some (locWord (.dmem (4 * q)) s.advance)))) := by
  have hb : s.isBusy = false := by simp [State.isBusy, hi]
  rw [step_read h (by omega), locate_dmemWord hq, if_neg (by simp [hb])]

/-! ### Words of wide values -/

/-- The value with word j replaced, word by word (R28). -/
theorem wordOf_setWordOf (v : U256) (j k : Fin 8) (x : Word32) :
    wordOf (setWordOf v j x) k = if k = j then x else wordOf v k := by
  have hk := k.isLt
  have hj := j.isLt
  apply BitVec.eq_of_getLsbD_eq
  intro b hb
  have hone : (0xFFFFFFFF : U256) = BitVec.setWidth 256 (BitVec.allOnes 32) := by decide
  simp only [wordOf, setWordOf, hone, BitVec.getLsbD_extractLsb', BitVec.getLsbD_or, BitVec.getLsbD_and,
    BitVec.getLsbD_not, BitVec.getLsbD_shiftLeft, BitVec.getLsbD_setWidth, BitVec.getLsbD_allOnes, hb, decide_true,
    Bool.true_and]
  by_cases h : k = j
  · subst h
    have h1 : 32 * k.val + b < 256 := by omega
    have h2 : ¬ (32 * k.val + b < 32 * k.val) := by omega
    have h3 : 32 * k.val + b - 32 * k.val = b := by omega
    have h4 : b < 256 := by omega
    simp [h1, h3, h4, hb]
  · have hne : k.val ≠ j.val := fun e => h (Fin.ext e)
    rw [if_neg h]
    simp only [BitVec.getLsbD_extractLsb', hb, decide_true, Bool.true_and]
    rcases Nat.lt_or_gt_of_ne hne with hlt | hgt
    · have h2 : 32 * k.val + b < 32 * j.val := by omega
      have h1 : 32 * k.val + b < 256 := by omega
      simp [h1, h2]
    · have h2 : ¬ (32 * k.val + b < 32 * j.val) := by omega
      have h3 : ¬ (32 * k.val + b - 32 * j.val < 32) := by omega
      have h1 : 32 * k.val + b < 256 := by omega
      have h5 : x.getLsbD (32 * k.val + b - 32 * j.val) = false := BitVec.getLsbD_of_ge _ _ (by omega)
      simp [h1, h2, h3, h5]

/-- A 256-bit value is its eight words. -/
theorem eq_of_wordOf {u v : U256} (h : ∀ j, wordOf u j = wordOf v j) : u = v := by
  apply BitVec.eq_of_getLsbD_eq
  intro b hb
  have hb8 : b / 32 < 8 := by omega
  have := congrArg (fun x => x.getLsbD (b % 32)) (h ⟨b / 32, hb8⟩)
  simp only [wordOf, BitVec.getLsbD_extractLsb'] at this
  have h1 : b % 32 < 32 := by omega
  have h2 : 32 * (b / 32) + b % 32 = b := by omega
  simpa [h1, h2] using this

/-! ### DMEM words -/

theorem laneBytes_getElem? (v : Word32) {i : Nat} (h : i < 4) : (laneBytes v)[i]? = some (v.extractLsb' (8 * i) 8) := by
  match i, h with
  | 0, _ => rfl
  | 1, _ => rfl
  | 2, _ => rfl
  | 3, _ => rfl

theorem extractLsb'_laneWord (b0 b1 b2 b3 : Byte) :
    (laneWord b0 b1 b2 b3).extractLsb' 0 8 = b0 ∧ (laneWord b0 b1 b2 b3).extractLsb' 8 8 = b1
      ∧ (laneWord b0 b1 b2 b3).extractLsb' 16 8 = b2 ∧ (laneWord b0 b1 b2 b3).extractLsb' 24 8 = b3 := by
  unfold laneWord
  refine ⟨?_, ?_, ?_, ?_⟩ <;>
    · apply BitVec.eq_of_getLsbD_eq
      intro i hi
      simp only [BitVec.getLsbD_extractLsb', BitVec.getLsbD_append, hi, decide_true, Bool.true_and]
      repeat' split
      all_goals first | omega | (congr 1; omega)

/-! ### STATUS -/

theorem getLsbD_flagAt (b : Bool) (place i : Nat) (h : place < 32) :
    (flagAt b place).getLsbD i = (b && decide (i = place)) := by
  cases b
  · simp [flagAt]
  · have : (BitVec.ofNat 32 (2 ^ place)).getLsbD i = decide (i = place) := by
      rw [BitVec.getLsbD_ofNat, Nat.testBit_two_pow]
      by_cases hi : i = place
      · simp [hi, h]
      · simp [hi, Ne.symm hi]
    simpa [flagAt] using this

/-- STATUS bit by bit (R35). -/
theorem getLsbD_statusWord (s : State) (i : Nat) (h : i < 32) :
    (statusWord s).getLsbD i =
      (s.isBusy && decide (i = 0) || s.done && decide (i = 1) || s.err && decide (i = 2) || s.tabv && decide (i = 3)
        || s.wign && decide (i = 4) || decide (8 ≤ i) && s.errcode.getLsbD (i - 8)) := by
  unfold statusWord
  simp only [BitVec.getLsbD_or, getLsbD_flagAt _ _ _ (show 0 < 32 by decide),
    getLsbD_flagAt _ _ _ (show 1 < 32 by decide), getLsbD_flagAt _ _ _ (show 2 < 32 by decide),
    getLsbD_flagAt _ _ _ (show 3 < 32 by decide), getLsbD_flagAt _ _ _ (show 4 < 32 by decide),
    BitVec.getLsbD_shiftLeft, BitVec.getLsbD_setWidth, h, decide_true, Bool.true_and]
  have h2 : i - 8 < 32 := by omega
  have h3 : ∀ h8 : 8 ≤ i, ¬ i < 8 := fun h8 => by omega
  by_cases h8 : 8 ≤ i
  · simp [h8, h2, h3 h8]
  · simp [h8, show i < 8 by omega]

/-! ### Resets -/

theorem atReset_clearRegisters (s : State) : AtReset (clearRegisters s) := by
  simp [AtReset, clearRegisters, State.reset, State.getW, State.getP]

theorem atReset_softReset (s : State) : AtReset (softReset s) := by
  unfold softReset
  split <;> exact atReset_clearRegisters _

end Machine
end Sys2Proof
end

