-- ==== Sys2Proof/Laws/PerInstr.lean ====
section
/-! SUPPORT. Statements about every instruction as syntax, one lemma per constructor: its fields fit their
widths, and they decode to it. -/

namespace Sys2Proof
namespace Laws

theorem Modulus.flag_lt (m : Modulus) : m.flag < 2 := by cases m <;> decide
theorem CipherMode.flag_lt (t : CipherMode) : t.flag < 2 := by cases t <;> decide
theorem CurveConst.index_lt (c : CurveConst) : c.index < 8 := by cases c <;> decide
theorem bool_toNat_lt (b : Bool) : b.toNat < 2 := by cases b <;> decide

@[simp] theorem Modulus.ofFlag_flag (m : Modulus) : Modulus.ofFlag m.flag = m := by cases m <;> rfl
@[simp] theorem CipherMode.ofFlag_flag (t : CipherMode) : CipherMode.ofFlag t.flag = t := by cases t <;> rfl
@[simp] theorem CurveConst.ofIndex_index (c : CurveConst) : CurveConst.ofIndex c.index = c := by cases c <;> rfl
@[simp] theorem flagBit_toNat (b : Bool) : flagBit b.toNat = b := by cases b <;> rfl
@[simp] theorem wReg_val (r : WReg) : wReg r.val = r := by simp [wReg]
@[simp] theorem pReg_val (r : PReg) : pReg r.val = r := by simp [pReg]

theorem wReg_zero (r : WReg) (h : r.val = 0) : wReg 0 = r := by simp [wReg, Fin.ext_iff, h]
theorem pReg_zero (r : PReg) (h : r.val = 0) : pReg 0 = r := by simp [pReg, Fin.ext_iff, h]

/-- Each field fits the width R70 gives it. -/
def FieldsBounded (f : Fields) : Prop :=
  f.opc < 256 ∧ f.fa < 16 ∧ f.fb < 16 ∧ f.fc < 16 ∧ f.fd < 16 ∧ f.m < 2 ∧ f.t < 2 ∧ f.h < 2 ∧ f.i < 2 ∧ f.u < 2
    ∧ f.rsv < 8

/-- The fields of a packed word are the fields packed (30_encoding.md R70). -/
theorem unpack_pack (f : Fields) (h : FieldsBounded f) : unpack (pack f) = f := by
  obtain ⟨ho, ha, hb, hc, hd, hm, ht, hh, hi, hu, hr⟩ := h
  have hlt : f.opc + f.fa * 2 ^ 8 + f.fb * 2 ^ 12 + f.fc * 2 ^ 16 + f.fd * 2 ^ 20 + f.m * 2 ^ 24 + f.t * 2 ^ 25
      + f.h * 2 ^ 26 + f.i * 2 ^ 27 + f.u * 2 ^ 28 + f.rsv * 2 ^ 29 < 2 ^ 32 := by omega
  cases f
  simp only [unpack, pack, bitsAt, BitVec.toNat_ofNat, Nat.mod_eq_of_lt hlt] at *
  congr <;> omega

/-- The fields of a word fit their widths. -/
theorem unpack_bounded (w : Word32) : FieldsBounded (unpack w) := by
  unfold FieldsBounded unpack bitsAt
  refine ⟨?_, ?_, ?_, ?_, ?_, ?_, ?_, ?_, ?_, ?_, ?_⟩ <;> exact Nat.mod_lt _ (by decide)

/-- Packing the fields of a word gives the word: no bit is outside the fields of R70. -/
theorem pack_unpack (w : Word32) : pack (unpack w) = w := by
  apply BitVec.eq_of_toNat_eq
  have := w.isLt
  simp only [unpack, pack, bitsAt, BitVec.toNat_ofNat]
  omega

/-! ### The family FieldsFit -/

/-- The instruction's fields fit the widths of R70. -/
def FieldsFit.Statement (i : Instr) : Prop := FieldsBounded i.fields

theorem FieldsFit.nop : FieldsFit.Statement (.nop) := by
  simp only [FieldsFit.Statement, FieldsBounded, Instr.fields, Op.code]; omega
theorem FieldsFit.madd (d a b : WReg) (m : Modulus) : FieldsFit.Statement (.madd d a b m) := by
  have := Modulus.flag_lt m
  simp only [FieldsFit.Statement, FieldsBounded, Instr.fields, Op.code]; omega
theorem FieldsFit.msub (d a b : WReg) (m : Modulus) : FieldsFit.Statement (.msub d a b m) := by
  have := Modulus.flag_lt m
  simp only [FieldsFit.Statement, FieldsBounded, Instr.fields, Op.code]; omega
theorem FieldsFit.mmul (d a b : WReg) (m : Modulus) : FieldsFit.Statement (.mmul d a b m) := by
  have := Modulus.flag_lt m
  simp only [FieldsFit.Statement, FieldsBounded, Instr.fields, Op.code]; omega
theorem FieldsFit.minv (d a : WReg) (m : Modulus) : FieldsFit.Statement (.minv d a m) := by
  have := Modulus.flag_lt m
  simp only [FieldsFit.Statement, FieldsBounded, Instr.fields, Op.code]; omega
theorem FieldsFit.msqrt (d a : WReg) : FieldsFit.Statement (.msqrt d a) := by
  simp only [FieldsFit.Statement, FieldsBounded, Instr.fields, Op.code]; omega
theorem FieldsFit.mov (d a : WReg) : FieldsFit.Statement (.mov d a) := by
  simp only [FieldsFit.Statement, FieldsBounded, Instr.fields, Op.code]; omega
theorem FieldsFit.ldc (d : WReg) (c : CurveConst) : FieldsFit.Statement (.ldc d c) := by
  have := CurveConst.index_lt c
  simp only [FieldsFit.Statement, FieldsBounded, Instr.fields, Op.code]; omega
theorem FieldsFit.padd (d a b : PReg) : FieldsFit.Statement (.padd d a b) := by
  simp only [FieldsFit.Statement, FieldsBounded, Instr.fields, Op.code]; omega
theorem FieldsFit.pdbl (d a : PReg) : FieldsFit.Statement (.pdbl d a) := by
  simp only [FieldsFit.Statement, FieldsBounded, Instr.fields, Op.code]; omega
theorem FieldsFit.pmul (d a : PReg) (k : WReg) : FieldsFit.Statement (.pmul d a k) := by
  simp only [FieldsFit.Statement, FieldsBounded, Instr.fields, Op.code]; omega
theorem FieldsFit.pnorm (d a : PReg) : FieldsFit.Statement (.pnorm d a) := by
  simp only [FieldsFit.Statement, FieldsBounded, Instr.fields, Op.code]; omega
theorem FieldsFit.pldg (d : PReg) : FieldsFit.Statement (.pldg d) := by
  simp only [FieldsFit.Statement, FieldsBounded, Instr.fields, Op.code]; omega
theorem FieldsFit.pchk (a : PReg) : FieldsFit.Statement (.pchk a) := by
  simp only [FieldsFit.Statement, FieldsBounded, Instr.fields, Op.code]; omega
theorem FieldsFit.peq (a b : PReg) : FieldsFit.Statement (.peq a b) := by
  simp only [FieldsFit.Statement, FieldsBounded, Instr.fields, Op.code]; omega
theorem FieldsFit.pcomp (d : WReg) (a : PReg) : FieldsFit.Statement (.pcomp d a) := by
  simp only [FieldsFit.Statement, FieldsBounded, Instr.fields, Op.code]; omega
theorem FieldsFit.pdcmp (d : PReg) (x : WReg) (t : Bool) : FieldsFit.Statement (.pdcmp d x t) := by
  have := bool_toNat_lt t
  simp only [FieldsFit.Statement, FieldsBounded, Instr.fields, Op.code]; omega
theorem FieldsFit.keygen (d : WReg) (q : PReg) : FieldsFit.Statement (.keygen d q) := by
  simp only [FieldsFit.Statement, FieldsBounded, Instr.fields, Op.code]; omega
theorem FieldsFit.keychk (a : PReg) : FieldsFit.Statement (.keychk a) := by
  simp only [FieldsFit.Statement, FieldsBounded, Instr.fields, Op.code]; omega
theorem FieldsFit.hash : FieldsFit.Statement (.hash) := by
  simp only [FieldsFit.Statement, FieldsBounded, Instr.fields, Op.code]; omega
theorem FieldsFit.kdf : FieldsFit.Statement (.kdf) := by
  simp only [FieldsFit.Statement, FieldsBounded, Instr.fields, Op.code]; omega
theorem FieldsFit.enc (key : PReg) (t : CipherMode) : FieldsFit.Statement (.enc key t) := by
  have := CipherMode.flag_lt t
  simp only [FieldsFit.Statement, FieldsBounded, Instr.fields, Op.code]; omega
theorem FieldsFit.dec (key : WReg) (t : CipherMode) : FieldsFit.Statement (.dec key t) := by
  have := CipherMode.flag_lt t
  simp only [FieldsFit.Statement, FieldsBounded, Instr.fields, Op.code]; omega
theorem FieldsFit.sign (rs key e : WReg) (h i : Bool) : FieldsFit.Statement (.sign rs key e h i) := by
  have := bool_toNat_lt h
  have := bool_toNat_lt i
  simp only [FieldsFit.Statement, FieldsBounded, Instr.fields, Op.code]; omega
theorem FieldsFit.verify (rs e : WReg) (key : PReg) (h i u : Bool) : FieldsFit.Statement (.verify rs e key h i u) := by
  have := bool_toNat_lt h
  have := bool_toNat_lt i
  have := bool_toNat_lt u
  simp only [FieldsFit.Statement, FieldsBounded, Instr.fields, Op.code]; omega
theorem FieldsFit.precomp (key : PReg) : FieldsFit.Statement (.precomp key) := by
  simp only [FieldsFit.Statement, FieldsBounded, Instr.fields, Op.code]; omega

/-! ### The family FieldsDecode -/

/-- The fields of a well-formed instruction pass the checks of R75 and build the instruction. -/
def FieldsDecode.Statement (i : Instr) : Prop := WellFormed i → decodeFields i.fields = .ok i

theorem pReg_bit3 (r : PReg) : (r.val / 8 % 2 == 0) = true := by
  have := r.isLt
  simp; omega

theorem constIndex_bit3 (c : CurveConst) : (c.index / 8 % 2 == 0) = true := by cases c <;> rfl

theorem FieldsDecode.nop : FieldsDecode.Statement (.nop) := by
  intro wf
  have hop : Op.ofCode Op.nop.code = some Op.nop := by decide
  simp [decodeFields, Instr.fields, hop, Op.row, Row.rolesOk, Row.flagsOk, Role.fits, Op.constraint, Op.build]
theorem FieldsDecode.madd (d a b : WReg) (m : Modulus) : FieldsDecode.Statement (.madd d a b m) := by
  intro wf
  have hop : Op.ofCode Op.madd.code = some Op.madd := by decide
  simp [decodeFields, Instr.fields, hop, Op.row, Row.rolesOk, Row.flagsOk, Role.fits, Op.constraint, Op.build]
theorem FieldsDecode.msub (d a b : WReg) (m : Modulus) : FieldsDecode.Statement (.msub d a b m) := by
  intro wf
  have hop : Op.ofCode Op.msub.code = some Op.msub := by decide
  simp [decodeFields, Instr.fields, hop, Op.row, Row.rolesOk, Row.flagsOk, Role.fits, Op.constraint, Op.build]
theorem FieldsDecode.mmul (d a b : WReg) (m : Modulus) : FieldsDecode.Statement (.mmul d a b m) := by
  intro wf
  have hop : Op.ofCode Op.mmul.code = some Op.mmul := by decide
  simp [decodeFields, Instr.fields, hop, Op.row, Row.rolesOk, Row.flagsOk, Role.fits, Op.constraint, Op.build]
theorem FieldsDecode.minv (d a : WReg) (m : Modulus) : FieldsDecode.Statement (.minv d a m) := by
  intro wf
  have hop : Op.ofCode Op.minv.code = some Op.minv := by decide
  simp [decodeFields, Instr.fields, hop, Op.row, Row.rolesOk, Row.flagsOk, Role.fits, Op.constraint, Op.build]
theorem FieldsDecode.msqrt (d a : WReg) : FieldsDecode.Statement (.msqrt d a) := by
  intro wf
  have hop : Op.ofCode Op.msqrt.code = some Op.msqrt := by decide
  simp [decodeFields, Instr.fields, hop, Op.row, Row.rolesOk, Row.flagsOk, Role.fits, Op.constraint, Op.build]
theorem FieldsDecode.mov (d a : WReg) : FieldsDecode.Statement (.mov d a) := by
  intro wf
  have hop : Op.ofCode Op.mov.code = some Op.mov := by decide
  simp [decodeFields, Instr.fields, hop, Op.row, Row.rolesOk, Row.flagsOk, Role.fits, Op.constraint, Op.build]
theorem FieldsDecode.ldc (d : WReg) (c : CurveConst) : FieldsDecode.Statement (.ldc d c) := by
  intro wf
  have hop : Op.ofCode Op.ldc.code = some Op.ldc := by decide
  simp [decodeFields, Instr.fields, hop, Op.row, Row.rolesOk, Row.flagsOk, Role.fits, Op.constraint, Op.build, constIndex_bit3]
theorem FieldsDecode.padd (d a b : PReg) : FieldsDecode.Statement (.padd d a b) := by
  intro wf
  have hop : Op.ofCode Op.padd.code = some Op.padd := by decide
  simp [decodeFields, Instr.fields, hop, Op.row, Row.rolesOk, Row.flagsOk, Role.fits, Op.constraint, Op.build, pReg_bit3]
theorem FieldsDecode.pdbl (d a : PReg) : FieldsDecode.Statement (.pdbl d a) := by
  intro wf
  have hop : Op.ofCode Op.pdbl.code = some Op.pdbl := by decide
  simp [decodeFields, Instr.fields, hop, Op.row, Row.rolesOk, Row.flagsOk, Role.fits, Op.constraint, Op.build, pReg_bit3]
theorem FieldsDecode.pmul (d a : PReg) (k : WReg) : FieldsDecode.Statement (.pmul d a k) := by
  intro wf
  have hop : Op.ofCode Op.pmul.code = some Op.pmul := by decide
  simp [decodeFields, Instr.fields, hop, Op.row, Row.rolesOk, Row.flagsOk, Role.fits, Op.constraint, Op.build, pReg_bit3]
theorem FieldsDecode.pnorm (d a : PReg) : FieldsDecode.Statement (.pnorm d a) := by
  intro wf
  have hop : Op.ofCode Op.pnorm.code = some Op.pnorm := by decide
  simp [decodeFields, Instr.fields, hop, Op.row, Row.rolesOk, Row.flagsOk, Role.fits, Op.constraint, Op.build, pReg_bit3]
theorem FieldsDecode.pldg (d : PReg) : FieldsDecode.Statement (.pldg d) := by
  intro wf
  have hop : Op.ofCode Op.pldg.code = some Op.pldg := by decide
  simp [decodeFields, Instr.fields, hop, Op.row, Row.rolesOk, Row.flagsOk, Role.fits, Op.constraint, Op.build, pReg_bit3]
theorem FieldsDecode.pchk (a : PReg) : FieldsDecode.Statement (.pchk a) := by
  intro wf
  have hop : Op.ofCode Op.pchk.code = some Op.pchk := by decide
  simp [decodeFields, Instr.fields, hop, Op.row, Row.rolesOk, Row.flagsOk, Role.fits, Op.constraint, Op.build, pReg_bit3]
theorem FieldsDecode.peq (a b : PReg) : FieldsDecode.Statement (.peq a b) := by
  intro wf
  have hop : Op.ofCode Op.peq.code = some Op.peq := by decide
  simp [decodeFields, Instr.fields, hop, Op.row, Row.rolesOk, Row.flagsOk, Role.fits, Op.constraint, Op.build, pReg_bit3]
theorem FieldsDecode.pcomp (d : WReg) (a : PReg) : FieldsDecode.Statement (.pcomp d a) := by
  intro wf
  have hop : Op.ofCode Op.pcomp.code = some Op.pcomp := by decide
  simp [decodeFields, Instr.fields, hop, Op.row, Row.rolesOk, Row.flagsOk, Role.fits, Op.constraint, Op.build, pReg_bit3]
theorem FieldsDecode.pdcmp (d : PReg) (x : WReg) (t : Bool) : FieldsDecode.Statement (.pdcmp d x t) := by
  intro wf
  have hop : Op.ofCode Op.pdcmp.code = some Op.pdcmp := by decide
  simp [decodeFields, Instr.fields, hop, Op.row, Row.rolesOk, Row.flagsOk, Role.fits, Op.constraint, Op.build, pReg_bit3]
theorem FieldsDecode.keygen (d : WReg) (q : PReg) : FieldsDecode.Statement (.keygen d q) := by
  intro wf
  have hop : Op.ofCode Op.keygen.code = some Op.keygen := by decide
  simp [decodeFields, Instr.fields, hop, Op.row, Row.rolesOk, Row.flagsOk, Role.fits, Op.constraint, Op.build, pReg_bit3]
theorem FieldsDecode.keychk (a : PReg) : FieldsDecode.Statement (.keychk a) := by
  intro wf
  have hop : Op.ofCode Op.keychk.code = some Op.keychk := by decide
  simp [decodeFields, Instr.fields, hop, Op.row, Row.rolesOk, Row.flagsOk, Role.fits, Op.constraint, Op.build, pReg_bit3]
theorem FieldsDecode.hash : FieldsDecode.Statement (.hash) := by
  intro wf
  have hop : Op.ofCode Op.hash.code = some Op.hash := by decide
  simp [decodeFields, Instr.fields, hop, Op.row, Row.rolesOk, Row.flagsOk, Role.fits, Op.constraint, Op.build]
theorem FieldsDecode.kdf : FieldsDecode.Statement (.kdf) := by
  intro wf
  have hop : Op.ofCode Op.kdf.code = some Op.kdf := by decide
  simp [decodeFields, Instr.fields, hop, Op.row, Row.rolesOk, Row.flagsOk, Role.fits, Op.constraint, Op.build]
theorem FieldsDecode.enc (key : PReg) (t : CipherMode) : FieldsDecode.Statement (.enc key t) := by
  intro wf
  have hop : Op.ofCode Op.enc.code = some Op.enc := by decide
  simp [decodeFields, Instr.fields, hop, Op.row, Row.rolesOk, Row.flagsOk, Role.fits, Op.constraint, Op.build, pReg_bit3]
theorem FieldsDecode.dec (key : WReg) (t : CipherMode) : FieldsDecode.Statement (.dec key t) := by
  intro wf
  have hop : Op.ofCode Op.dec.code = some Op.dec := by decide
  simp [decodeFields, Instr.fields, hop, Op.row, Row.rolesOk, Row.flagsOk, Role.fits, Op.constraint, Op.build]
theorem FieldsDecode.sign (rs key e : WReg) (h i : Bool) : FieldsDecode.Statement (.sign rs key e h i) := by
  intro wf
  have hop : Op.ofCode Op.sign.code = some Op.sign := by decide
  simp only [WellFormed, Instr.wellFormed, evenReg, digestFieldsOk, Bool.and_eq_true, Bool.or_eq_true, beq_iff_eq, Bool.not_eq_true'] at wf
  obtain ⟨hr, he, hi⟩ := wf
  replace he : h = true ∨ e = 0 := he.imp_right fun x => Fin.ext x
  rcases he with rfl | rfl <;> rcases hi with hi | rfl <;>
    simp_all [decodeFields, Instr.fields, Op.row, Row.rolesOk, Row.flagsOk, Role.fits, Op.constraint, Op.build]
  all_goals repeat (first | rfl | constructor)
theorem FieldsDecode.verify (rs e : WReg) (key : PReg) (h i u : Bool) : FieldsDecode.Statement (.verify rs e key h i u) := by
  intro wf
  have hop : Op.ofCode Op.verify.code = some Op.verify := by decide
  simp only [WellFormed, Instr.wellFormed, evenReg, digestFieldsOk, keyFieldOk, Bool.and_eq_true, Bool.or_eq_true, beq_iff_eq, Bool.not_eq_true'] at wf
  obtain ⟨⟨hr, he, hi⟩, hk⟩ := wf
  replace he : h = true ∨ e = 0 := he.imp_right fun x => Fin.ext x
  replace hk : u = false ∨ key = 0 := hk.imp_right fun x => Fin.ext x
  rcases he with rfl | rfl <;> rcases hi with hi | rfl <;> rcases hk with rfl | rfl <;>
    simp_all [decodeFields, Instr.fields, Op.row, Row.rolesOk, Row.flagsOk, Role.fits, Op.constraint, Op.build, pReg_bit3]
  all_goals repeat (first | rfl | constructor)
theorem FieldsDecode.precomp (key : PReg) : FieldsDecode.Statement (.precomp key) := by
  intro wf
  have hop : Op.ofCode Op.precomp.code = some Op.precomp := by decide
  simp [decodeFields, Instr.fields, hop, Op.row, Row.rolesOk, Row.flagsOk, Role.fits, Op.constraint, Op.build, pReg_bit3]

/-! ### The words of an instruction (R74) -/

theorem getLsbD_iff_bitsAt (w : Word32) (k : Nat) (b : Bool) : w.getLsbD k = b ↔ bitsAt w.toNat k 1 = b.toNat := by
  have h : bitsAt w.toNat k 1 = (w.getLsbD k).toNat := by
    simp only [bitsAt, BitVec.getLsbD, Nat.testBit, Nat.shiftRight_eq_div_pow, Nat.and_comm 1, Nat.and_one_is_mod]
    rcases Nat.mod_two_eq_zero_or_one (w.toNat / 2 ^ k) with h | h <;> simp [h]
  rw [h]
  cases w.getLsbD k <;> cases b <;> simp

theorem extractLsb'_iff_bitsAt (w : Word32) (k l : Nat) (v : BitVec l) :
    w.extractLsb' k l = v ↔ bitsAt w.toNat k l = v.toNat := by
  rw [← BitVec.toNat_inj]
  simp [bitsAt, BitVec.extractLsb'_toNat, Nat.shiftRight_eq_div_pow]

/-- The fields said bit by bit are the fields the decoder unpacks. -/
theorem hasFields_iff (w : Word32) (o : Byte) (fa fb fc fd : Nat) (m t h i u : Bool) :
    Machine.HasFields w o fa fb fc fd m t h i u
      ↔ unpack w = ⟨o.toNat, fa, fb, fc, fd, m.toNat, t.toNat, h.toNat, i.toNat, u.toNat, 0⟩ := by
  simp only [Machine.HasFields, unpack, Fields.mk.injEq, getLsbD_iff_bitsAt, extractLsb'_iff_bitsAt,
    BitVec.extractLsb'_toNat, Nat.shiftRight_eq_div_pow]
  simp [bitsAt]

/-- The rows of R74 said bit by bit are the encoder's fields. -/
theorem spells_iff (w : Word32) (i : Instr) : Machine.Spells w i ↔ unpack w = i.fields := by
  cases i with
  | ldc d c => cases c <;> simp [Machine.Spells, hasFields_iff, Instr.fields, Op.code, CurveConst.index]
  | madd d a b m | msub d a b m | mmul d a b m | minv d a m => cases m <;> exact hasFields_iff ..
  | enc k t | dec k t => cases t <;> exact hasFields_iff ..
  | _ => exact hasFields_iff ..

end Laws
end Sys2Proof
end

