-- ==== Sys2Proof/Laws/Step.lean ====
section
/-! SUPPORT. Everything a step can do, said once, and what the host's writes and the resets leave. -/

namespace Sys2Proof
namespace Machine

/-- All that an aligned write can do that is not ignored without effect. -/
def WriteCase (off : Nat) (v : Word32) (s t : State) : Prop :=
  ((∃ c, s.engine = .busy c) ∧ (locate (BitVec.ofNat 16 off)).gated = true
      ∧ t = (ignoreWrite s.advance).respond (.okay none))
    ∨ (off = 0x004 ∧ t = (writeCtrl v s.advance).respond (.okay none))
    ∨ (off = 0x00C ∧ t = (writeStatus v s.advance).respond (.okay none))
    ∨ (s.engine = .idle ∧ (locate (BitVec.ofNat 16 off)).gated = true
        ∧ t = (writeLoc (locate (BitVec.ofNat 16 off)) v s.advance).respond (.okay none))

/-- All that a step can do when it answers a next state. -/
def StepCase (s t : State) : Prop :=
  (s.engineNext
      ∧ (s.engine = .idle ∧ t = s.advance
        ∨ ∃ c, s.engine = .busy c
            ∧ ((∃ e, decode c = .error e) ∧ t = raiseError .illegal s.advance
              ∨ ∃ i, decode c = .ok i ∧ exec i s.advance = .next t)))
    ∨ (s.inputs.head? = some .powerOn ∧ t = powerOnReset s.advance)
    ∨ (∃ r, t = s.answered r)
    ∨ ∃ off v, s.writeNext off v ∧ off % 4 = 0 ∧ WriteCase off v s t

/-- The only offset that names CTRL is 0x004 and the only one that names STATUS is 0x00C (R31). -/
theorem locate_ctrl_status {off : BitVec 16} (h4 : off.toNat % 4 = 0) :
    (locate off = .reg .ctrl → off.toNat = 0x004) ∧ (locate off = .reg .status → off.toNat = 0x00C) := by
  unfold locate
  simp only
  by_cases h : off.toNat < 0x030
  · rw [if_pos h]
    generalize hq : off.toNat / 4 = q
    have hlt : q < 12 := by omega
    unfold hostRegAt
    rw [hq]
    interval_cases q <;> simp <;> omega
  · rw [if_neg h]
    constructor <;> intro hl <;> exfalso <;> revert hl
    all_goals repeat' split
    all_goals simp

theorem step_cases {s t : State} (h : step s = .next t) : StepCase s t := by
  rcases hh : nextEvent s with a | _ | _
  · have hd : s.inputs.head? = some (.access a) := by
      unfold nextEvent at hh
      cases hi : s.inputs <;> simp_all
    rw [step_of_head hd] at h
    cases a with
    | read off size =>
      refine .inr (.inr (.inl ?_))
      have hr : hostRead off size s.advance = .next t := h
      unfold hostRead at hr
      split at hr
      · split at hr
        · exact ⟨_, (Host.Outcome.next.inj hr).symm⟩
        · split at hr
          · rcases withRead_cases s.advance _ 4 _ with ⟨_, h2⟩ | ⟨_, h2⟩
            · rw [h2] at hr
              exact ⟨_, (Host.Outcome.next.inj hr).symm⟩
            · rw [h2] at hr
              cases hr
          · exact ⟨_, (Host.Outcome.next.inj hr).symm⟩
      · exact ⟨_, (Host.Outcome.next.inj hr).symm⟩
    | write off size v =>
      have hw : Host.Outcome.next (hostWrite off size v s.advance) = .next t := h
      have ht := (Host.Outcome.next.inj hw).symm
      unfold hostWrite at ht
      split at ht
      · rename_i hok
        simp only [accessOk, Bool.and_eq_true, beq_iff_eq] at hok
        obtain ⟨h4, rfl⟩ := hok
        have hof : BitVec.ofNat 16 off.toNat = off := by simp
        have hwn : s.writeNext off.toNat v := by rw [State.writeNext, wr, hof]; exact hd
        by_cases hg : (locate off).gated = true
        · refine .inr (.inr (.inr ⟨off.toNat, v, hwn, h4, ?_⟩))
          unfold WriteCase
          rw [hof]
          rcases he : s.engine with _ | c
          · rw [if_neg (by simp [State.isBusy, State.advance, he])] at ht
            exact .inr (.inr (.inr ⟨rfl, hg, ht⟩))
          · rw [if_pos (by simp [State.isBusy, State.advance, he, hg])] at ht
            exact .inl ⟨⟨c, rfl⟩, hg, ht⟩
        · rw [if_neg (by simp [hg])] at ht
          rcases hl : locate off with r | ⟨i, j⟩ | ⟨i, c, j⟩ | a | _
          · cases r
            case ctrl =>
              refine .inr (.inr (.inr ⟨off.toNat, v, hwn, h4, .inr (.inl ⟨(locate_ctrl_status h4).1 hl, ?_⟩)⟩))
              rw [ht, hl]
              rfl
            case status =>
              refine .inr (.inr (.inr ⟨off.toNat, v, hwn, h4, .inr (.inr (.inl ⟨(locate_ctrl_status h4).2 hl, ?_⟩))⟩))
              rw [ht, hl]
              rfl
            all_goals first
              | (rw [hl] at hg; exact absurd rfl hg)
              | (rw [hl] at ht; exact .inr (.inr (.inl ⟨_, ht⟩)))
          all_goals first
            | (rw [hl] at hg; exact absurd rfl hg)
            | (rw [hl] at ht; exact .inr (.inr (.inl ⟨_, ht⟩)))
      · exact .inr (.inr (.inl ⟨_, ht⟩))
  · have he := (engineNext_iff s).2 hh
    rw [step_of_engineNext he] at h
    refine .inl ⟨he, ?_⟩
    have hen : s.advance.engine = s.engine := rfl
    unfold engineTurn at h
    rw [hen] at h
    rcases hc : s.engine with _ | c
    · rw [hc] at h
      exact .inl ⟨rfl, (Host.Outcome.next.inj h).symm⟩
    · rw [hc] at h
      simp only at h
      rcases hd : decode c with e | i
      · rw [hd] at h
        exact .inr ⟨c, rfl, .inl ⟨⟨e, hd⟩, (Host.Outcome.next.inj h).symm⟩⟩
      · rw [hd] at h
        exact .inr ⟨c, rfl, .inr ⟨i, hd, h⟩⟩
  · have hd : s.inputs.head? = some .powerOn := by
      unfold nextEvent at hh
      cases hi : s.inputs <;> simp_all
    rw [step_of_head hd] at h
    exact .inr (.inl ⟨hd, (Host.Outcome.next.inj h).symm⟩)

end Machine
end Sys2Proof
end

