-- ==== Sys2Proof/Tests/Slice0.lean ====
section
/-! SUPPORT. Tests of one step or one command each, with words and values from 30_encoding.md R74, R80 and
95_test_vectors.md, and the witnesses: for every obligation with hypotheses, concrete values that meet them. -/

namespace Sys2Proof
namespace Tests
open Sys2Proof.Machine

set_option Elab.async false

/-! ### Helpers -/

/-- The reset state with these W registers. -/
def withW (l : List (WReg × U256)) (s : State := State.reset) : State := l.foldl (fun u e => u.setW e.1 e.2) s

/-- The state with these P registers. -/
def withP (l : List (PReg × Triple)) (s : State := State.reset) : State := l.foldl (fun u e => u.setP e.1 e.2) s

/-- What a field holds in the next state. -/
def after {α : Type} (o : Host.Outcome State Fault Refusal) (f : State → α) : Option α :=
  match o with
  | .next t => some (f t)
  | .fault _ => none
  | .refused _ => none

/-- A next state with what `after` shows. -/
theorem exists_next {α : Type} {o : Host.Outcome State Fault Refusal} {f : State → α} {v : α}
    (h : after o f = some v) : ∃ t, o = .next t ∧ f t = v := by
  cases o with
  | next t => exact ⟨t, rfl, by simpa [after] using h⟩
  | fault => simp [after] at h
  | refused => simp [after] at h

/-- The state whose next event is the engine's turn, busy with the word. -/
def busyWith (c : Word32) (s : State := State.reset) : State := { s with engine := .busy c, cmd := c }

/-- The state with one queued event. -/
def queued (e : Event) (s : State := State.reset) : State := { s with inputs := [e] }

/-- The curve point G as P registers hold it (95_test_vectors.md Q1). -/
def gTriple : Triple :=
  ⟨0x32C4AE2C1F1981195F9904466A39C9948FE30BBFF2660BE1715A4589334C74C7,
    0xBC3736A2F4F6779C59BDCEE36B692153D0A9877CC62A474002DF32E52139F0A0, 1⟩

/-- 2G (Q2). -/
def g2Triple : Triple :=
  ⟨0x56CEFD60D7C87C000D58EF57FA73BA4D9C0DFA08C08A7331495C2E1DA3F2BD52,
    0x31B7E7E6CC8189F668535CE0F8EAF1BD6DE84C182F6C8E716F780D3A970A23C3, 1⟩

/-- 3G (Q4). -/
def g3Triple : Triple :=
  ⟨0xA97F7CD4B3C993B4BE2DAA8CDB41E24CA13F6BD945302244E26918F1D0509EBF,
    0x530B5DD88C688EF5CCC5CEC08A72150F7C400EE5CD045292AAACDD037458F6E6, 1⟩

/-- −G (Q10). -/
def negGTriple : Triple :=
  ⟨0x32C4AE2C1F1981195F9904466A39C9948FE30BBFF2660BE1715A4589334C74C7,
    0x43C8C95C0B098863A642311C9496DEAC2F56788239D5B8C0FD20CD1ADEC60F5F, 1⟩

/-- G with Z = 2 (Q17). -/
def g17Triple : Triple :=
  ⟨0xCB12B8B07C6604657E641119A8E726523F8C2EFFC9982F85C5691624CD31D31C,
    0xE1B9B51CA7B3BCE2CDEE771B5B490A9E854C3BEB315239FB16F9972909CF8505, 2⟩

/-- The public key of 95_test_vectors.md 2.1. -/
def pTriple : Triple :=
  ⟨0x09F9DF311E5421A150DD7D161E4BC5C672179FAD1833FC076BB08FF356F35020,
    0xCCEA490CE26775A52DC6EA718CC1AA600AED05FBF35E084A6632F6072DA9AD13, 1⟩

/-! ### WellFormed refuses each ill-formed term (30_encoding.md R71, R74, R75) -/

theorem test_wf_sign_odd : ¬ WellFormed (.sign 1 0 0 true false) := by decide
theorem test_wf_sign_unused_digest : ¬ WellFormed (.sign 0 0 1 false false) := by decide
theorem test_wf_sign_h_and_i : ¬ WellFormed (.sign 0 0 1 true true) := by decide
theorem test_wf_verify_odd : ¬ WellFormed (.verify 15 0 0 false false false) := by decide
theorem test_wf_verify_unused_digest : ¬ WellFormed (.verify 0 15 0 false false false) := by decide
theorem test_wf_verify_h_and_i : ¬ WellFormed (.verify 0 1 0 true true false) := by decide
theorem test_wf_verify_tab_key : ¬ WellFormed (.verify 0 0 1 false false true) := by decide
theorem test_assemble_refuses : assemble (.sign 1 0 0 true false) = none ∧ assemble .nop = some 0 := by decide

/-! ### Decoding, the words written from R70 and R74 -/

theorem test_decode_nop : decode 0x00000000 = .ok .nop := by decide
theorem test_decode_madd : decode 0x00021310 = .ok (.madd 3 1 2 .p) := by decide
theorem test_decode_msub : decode 0x010FEF11 = .ok (.msub 15 14 15 .n) := by decide
theorem test_decode_mmul : decode 0x01054012 = .ok (.mmul 0 4 5 .n) := by decide
theorem test_decode_minv : decode 0x00001213 = .ok (.minv 2 1 .p) := by decide
theorem test_decode_msqrt : decode 0x0000A914 = .ok (.msqrt 9 10) := by decide
theorem test_decode_mov : decode 0x00001018 = .ok (.mov 0 1) := by decide
theorem test_decode_ldc : decode 0x00005719 = .ok (.ldc 7 .gy) := by decide
theorem test_decode_padd : decode 0x00010220 = .ok (.padd 2 0 1) := by decide
theorem test_decode_pdbl : decode 0x00007621 = .ok (.pdbl 6 7) := by decide
theorem test_decode_pmul : decode 0x00090122 = .ok (.pmul 1 0 9) := by decide
theorem test_decode_pnorm : decode 0x00004523 = .ok (.pnorm 5 4) := by decide
theorem test_decode_pldg : decode 0x00000324 = .ok (.pldg 3) := by decide
theorem test_decode_pchk : decode 0x00007025 = .ok (.pchk 7) := by decide
theorem test_decode_peq : decode 0x00010026 = .ok (.peq 0 1) := by decide
theorem test_decode_pcomp : decode 0x00000130 = .ok (.pcomp 1 0) := by decide
theorem test_decode_pdcmp : decode 0x02004331 = .ok (.pdcmp 3 4 true) := by decide
theorem test_decode_keygen : decode 0x00001F40 = .ok (.keygen 15 1) := by decide
theorem test_decode_keychk : decode 0x00001041 = .ok (.keychk 1) := by decide
theorem test_decode_hash : decode 0x00000050 = .ok .hash := by decide
theorem test_decode_kdf : decode 0x00000051 = .ok .kdf := by decide
theorem test_decode_enc : decode 0x02001060 = .ok (.enc 1 .c1c2c3) := by decide
theorem test_decode_dec : decode 0x0000F061 = .ok (.dec 15 .c1c3c2) := by decide
theorem test_decode_sign : decode 0x04010270 = .ok (.sign 2 0 1 true false) := by decide
theorem test_decode_verify : decode 0x18004071 = .ok (.verify 4 0 0 false true true) := by decide
theorem test_decode_precomp : decode 0x00001072 = .ok (.precomp 1) := by decide

/-- The illegal words of 95_test_vectors.md 2.2, each by its reason. -/
theorem test_decode_illegal :
    decode 0x00000001 = .error .opcode ∧ decode 0x000000FF = .error .opcode ∧ decode 0x20000000 = .error .reserved
      ∧ decode 0x00000100 = .error .fieldRole ∧ decode 0x00100010 = .error .fieldRole
      ∧ decode 0x01000014 = .error .flag ∧ decode 0x00008019 = .error .fieldRole
      ∧ decode 0x00000820 = .error .fieldRole ∧ decode 0x00000170 = .error .fieldRole
      ∧ decode 0x00010070 = .error .constraint ∧ decode 0x0C000070 = .error .constraint
      ∧ decode 0x10100071 = .error .constraint ∧ decode 0x00800071 = .error .fieldRole
      ∧ decode 0x01000060 = .error .flag := by decide

theorem test_encode : encode (.verify 2 1 1 true false false) = 0x04112071 ∧ encode (.enc 1 .c1c2c3) = 0x02001060 := by
  decide

/-- R77 and R78 on their own examples. -/
theorem test_assembly :
    assembly (.madd 3 1 2 .p) = "MADD w3, w1, w2" ∧ assembly (.mmul 0 4 5 .n) = "MMUL.N w0, w4, w5"
      ∧ assembly (.verify 4 0 0 false true true) = "VERIFY.ID.TAB w4"
      ∧ assembly (.sign 2 0 1 true false) = "SIGN.H w2, w0, w1" ∧ Instr.mclr 3 = .ldc 3 .zero := by decide

/-! ### The host's side (95_test_vectors.md 2.3, 2.11) -/

/-- C1: START of NOP from reset. -/
theorem test_nop : after (steps 3 { State.reset with inputs := [wr 0x004 1, .engine, rd 0x00C] }) (·.resp)
    = some (some (.okay (some 0x00000002))) := by decide +kernel
/-- An illegal word: STATUS = 0x00000106; C6: the clear of ERR leaves DONE. -/
theorem test_illegal : after (step (State.reset.withFetchWord 32 0x20000000)) statusWord = some 0x00000106
    ∧ after (step (queued (wr 0x00C 4) { State.reset with done := true, err := true, errcode := 1 })) statusWord
      = some 0x00000002 := by decide +kernel
/-- C3, C4, C5: the busy gate. -/
theorem test_busy : after (step (queued (wr 0x008 0x12345678) (busyWith 0))) (fun t => (t.cmd, t.wign)) = some (0, true)
    ∧ after (step (queued (wr 0x004 1) (busyWith 0))) (·.wign) = some true
    ∧ after (step (queued (rd 0x100) (busyWith 0 (withW [(0, 7)])))) (·.resp) = some (some (.okay (some 0))) := by
  decide
/-- C10, C11, C12. -/
theorem test_reads : after (step (queued (rd 0x000))) (·.resp) = some (some (.okay (some 0x534D3201)))
    ∧ after (step (queued (rd 0x030))) (·.resp) = some (some (.okay (some 0)))
    ∧ after (step (queued (rd 0x002))) (·.resp) = some (some (.error (some 0))) := by decide +kernel
/-- B1: the words of Gx. -/
theorem test_wrw : wrw 0 gTriple.x = [wr 0x100 0x334C74C7, wr 0x104 0x715A4589, wr 0x108 0xF2660BE1,
    wr 0x10C 0x8FE30BBF, wr 0x110 0x6A39C994, wr 0x114 0x5F990446, wr 0x118 0x1F198119, wr 0x11C 0x32C4AE2C] := by
  decide
/-- B4: "Hello, SM2!" with byte 11 read back as 0xAA. -/
theorem test_wrm : wrm (fun _ => 0xAA) 0 [0x48, 0x65, 0x6C, 0x6C, 0x6F, 0x2C, 0x20, 0x53, 0x4D, 0x32, 0x21]
    = [wr 0x1000 0x6C6C6548, wr 0x1004 0x53202C6F, wr 0x1008 0xAA21324D] := by decide +kernel
/-- B5: the byte lanes. -/
theorem test_lanes : after (step (queued (wr 0x1000 0x04030201))) (·.dmem) = some [(0, 1), (1, 2), (2, 3), (3, 4)] := by
  decide
/-- X2: the soft reset of an idle block. -/
theorem test_soft_reset :
    after (step (queued (wr 0x004 2) { withW [(3, 5)] with tabv := true, dmem := [(9, 1)] }))
      (fun t => (t.tabv, t.getW 3, statusWord t, t.dmem)) = some (false, 0, 0, [(9, 1)]) := by decide +kernel

/-! ### Modular commands (2.4) -/

theorem test_madd_reduces : after (exec (.madd 2 0 1 .p) (withW [(0, BitVec.ofNat 256 (2 ^ 256 - 1))])) (·.getW 2)
    = some 0x0000000100000000000000000000000000000000FFFFFFFF0000000000000000 := by decide +kernel
theorem test_madd_n : after (exec (.madd 0 0 1 .n) (withW [(0, BitVec.ofNat 256 Config.p)])) (·.getW 0)
    = some 0x000000000000000000000000000000008DFC2093DE39FAD5AC440BF6C62ABEDC := by decide +kernel
theorem test_msub_wraps : after (exec (.msub 2 0 1 .p) (withW [(1, 1)])) (·.getW 2)
    = some 0xFFFFFFFEFFFFFFFFFFFFFFFFFFFFFFFFFFFFFFFF00000000FFFFFFFFFFFFFFFE := by decide +kernel
theorem test_msub_order : after (exec (.msub 2 0 1 .p) (withW [(0, gTriple.x), (1, gTriple.y)])) (·.getW 2)
    = some 0x768D77882A23097D05DB3562FED0A840BF3984422C3BC4A26E7B12A412128426 := by decide +kernel
theorem test_mmul : after (exec (.mmul 2 0 1 .p) (withW [(0, gTriple.x), (1, gTriple.y)])) (·.getW 2)
    = some 0xEDD7E745BDC4630CCFA1DA1057033A525346DBF202F082F3C431349991ACE76A := by decide +kernel
theorem test_mmul_n : after (exec (.mmul 2 0 1 .n) (withW [(0, gTriple.x), (1, gTriple.y)])) (·.getW 2)
    = some 0xCF7296D5CBF0B64BB5E9A11B294962E9C779B41C038E9C8D815234A0DF9D6623 := by decide +kernel
theorem test_minv_n : after (exec (.minv 1 0 .n) (withW [(0, gTriple.x)])) (·.getW 1)
    = some 0x96340EC8B80F44E9B345A706BDB5C9E3AB8A6474A5CB4E0D4645DBAECF1CF03D := by decide +kernel
theorem test_minv_none : after (exec (.minv 1 0 .p) (withW [(0, BitVec.ofNat 256 Config.p), (1, 9)]))
    (fun t => (statusWord t, t.getW 1)) = some (0x00000306, 9) := by decide +kernel
theorem test_msqrt : after (exec (.msqrt 1 0) (withW [(0, gTriple.x)])) (·.getW 1)
    = some 0x9DD2BD9B745253011F494E9E1C584B850E91334330587B1CB02871BB4C8132C5 := by decide +kernel
theorem test_msqrt_none : after (exec (.msqrt 1 0) (withW [(0, 13)])) (fun t => (statusWord t, t.getW 1))
    = some (0x00000406, 0) := by decide +kernel
theorem test_mov : after (exec (.mov 1 0) (withW [(0, BitVec.ofNat 256 (2 ^ 256 - 1))])) (·.getW 1)
    = some (BitVec.ofNat 256 (2 ^ 256 - 1)) := by decide +kernel
theorem test_ldc : after (exec (.ldc 0 .n) State.reset) (·.getW 0)
    = some 0xFFFFFFFEFFFFFFFFFFFFFFFFFFFFFFFF7203DF6B21C6052B53BBF40939D54123 := by decide +kernel

/-! ### Point commands (2.5) -/

theorem test_padd : after (exec (.padd 2 0 1) (withP [(0, g2Triple), (1, gTriple)])) (·.getP 2) = some g3Triple := by
  decide +kernel
theorem test_padd_negative : after (exec (.padd 2 0 1) (withP [(0, gTriple), (1, negGTriple)])) (·.getP 2)
    = some ⟨0, 0, 0⟩ := by decide +kernel
theorem test_pdbl : after (exec (.pdbl 0 0) (withP [(0, gTriple)])) (·.getP 0) = some g2Triple := by decide +kernel
theorem test_pmul : after (exec (.pmul 1 0 9) (withW [(9, 3)] (withP [(0, gTriple)]))) (·.getP 1)
    = some g3Triple := by decide +kernel
theorem test_pmul_off_curve : after (exec (.pmul 1 0 9) (withW [(9, 2)] (withP [(0, ⟨1, 1, 1⟩)]))) statusWord
    = some 0x00000A06 := by decide +kernel
theorem test_pnorm : after (exec (.pnorm 1 0) (withP [(0, g17Triple)])) (·.getP 1) = some gTriple := by decide +kernel
theorem test_pnorm_inf : after (exec (.pnorm 1 0) (withP [(0, ⟨5, 7, 0⟩), (1, gTriple)])) (·.getP 1)
    = some ⟨0, 0, 0⟩ := by decide +kernel
theorem test_pldg : after (exec (.pldg 7) State.reset) (·.getP 7) = some gTriple := by decide +kernel
theorem test_pchk : after (exec (.pchk 0) (withP [(0, g17Triple)])) (·.res) = some 1 := by decide +kernel
theorem test_pchk_off : after (exec (.pchk 0) (withP [(0, ⟨1, 1, 1⟩)])) (fun t => (t.res, statusWord t))
    = some (0, 2) := by decide +kernel
theorem test_peq : after (exec (.peq 0 1) (withP [(0, gTriple), (1, g17Triple)])) (·.res) = some 1 := by decide +kernel
theorem test_peq_inf : after (exec (.peq 0 1) (withP [(1, ⟨5, 7, 0⟩)])) (·.res) = some 1 := by decide +kernel

/-! ### Compression and keys (2.6, 2.7, 2.3) -/

theorem test_pcomp : after (exec (.pcomp 1 0) (withP [(0, g2Triple)])) (fun t => (t.getW 1, t.res))
    = some (g2Triple.x, 3) := by decide +kernel
theorem test_pcomp_inf : after (exec (.pcomp 1 0) State.reset) statusWord = some 0x00000B06 := by decide +kernel
theorem test_pdcmp_odd : after (exec (.pdcmp 1 4 true) (withW [(4, gTriple.x)])) (·.getP 1) = some negGTriple := by
  decide +kernel
theorem test_pdcmp_none : after (exec (.pdcmp 1 4 false) (withW [(4, 2)])) statusWord = some 0x00000506 := by
  decide +kernel
/-- R4 with fewer zero words: a rejected word is skipped. -/
theorem test_keygen : after (exec (.keygen 0 0) { State.reset with rng := [0, 1, 9] })
    (fun t => (t.getW 0, t.getP 0, t.rng)) = some (1, gTriple, [9]) := by decide +kernel
/-- R3. -/
theorem test_keygen_retry : after (exec (.keygen 0 0) { State.reset with rng := List.replicate 65 0 })
    (fun t => (statusWord t, t.rng)) = some (0x00000C06, [0]) := by decide +kernel
theorem test_keychk : after (exec (.keychk 0) (withP [(0, pTriple)])) (·.res) = some 1 := by decide +kernel
/-- K5: X ≥ p, though PCHK accepts the triple. -/
theorem test_keychk_raw : after (exec (.keychk 0) (withP [(0, ⟨BitVec.ofNat 256 Config.p,
    0xFD4511E81736A60F07E88A83D6CF5A167FAE6D1A9C9330E76E232E00F5CDC154, 1⟩)])) (·.res) = some 0 := by decide +kernel

/-! ### Hash, ECIES (2.8, 2.9) -/

/-- H6: SLEN = 0 with SRC = DMEM_SIZE is legal. -/
theorem test_hash_empty : after (exec .hash { State.reset with src := 4096, dlen := 32 })
    (fun t => (t.outlen, statusWord t, t.dmem.written 0 32, t.dmem.read? 32)) = some (32, 2, true, none) := by
  decide +kernel
/-- H4: overlap. -/
theorem test_hash_overlap : after (exec .hash { State.reset with slen := 40, dst := 32, dlen := 32 }) statusWord
    = some 0x00000206 := by decide +kernel
/-- H8. -/
theorem test_kdf_empty : after (exec .kdf State.reset) (fun t => (t.outlen, statusWord t, t.dmem)) = some (0, 2, []) := by
  decide +kernel
/-- H9: no wrap-around. -/
theorem test_kdf_bounds : after (exec .kdf { State.reset with src := 0xFFFFFFFF, slen := 2 }) statusWord
    = some 0x00000206 := by decide +kernel
/-- K11: an invalid key makes no RNG request. -/
theorem test_enc_key : after (exec (.enc 0 .c1c3c2) { withP [(0, { gTriple with z := 2 })] with dlen := 97, rng := [1] })
    (fun t => (statusWord t, t.rng)) = some (0x00000606, [1]) := by decide +kernel
/-- E6 and E11. -/
theorem test_dec_length : after (exec (.dec 0 .c1c3c2) { State.reset with slen := 96 }) statusWord = some 0x00000506
    ∧ after (exec (.dec 0 .c1c3c2) { State.reset with slen := 108, dst := 0x200, dlen := 10 }) statusWord
      = some 0x00000206 := by decide +kernel

/-! ### Signatures (2.10) -/

/-- Σ5: d = 1, e = 0, k = 1. -/
theorem test_sign : after (exec (.sign 2 0 1 true false) { withW [(0, 1)] with rng := [1] })
    (fun t => (t.getW 2, t.getW 3)) = some (gTriple.x,
      0xE69DA8E8F0733F7350337DDCCAE31B352A12598B2892FF3A9B0ED144A02F06C0) := by decide +kernel
/-- K9. -/
theorem test_sign_key : after (exec (.sign 2 0 1 true false) (withW [(0, BitVec.ofNat 256 (Config.n - 1))])) statusWord
    = some 0x00000606 := by decide +kernel
/-- V3: t = 0. -/
theorem test_verify_t : after (exec (.verify 2 1 0 true false false)
    (withW [(2, 1), (3, BitVec.ofNat 256 (Config.n - 1))] (withP [(0, gTriple)]))) (fun t => (t.res, statusWord t))
    = some (0, 2) := by decide +kernel
/-- V6. -/
theorem test_verify_tab : after (exec (.verify 2 1 0 true false true) State.reset) statusWord = some 0x00000D06 := by
  decide +kernel
theorem test_precomp : after (exec (.precomp 0) (withP [(0, pTriple)])) (fun t => (t.tabv, t.tabKey, statusWord t))
    = some (true, ⟨pTriple.x, pTriple.y⟩, 0x0000000A) := by decide +kernel

/-! ### Witnesses: values that meet the hypotheses of each obligation, clause by clause -/

/-- A hypothesis that can be evaluated. -/
theorem goodKey_of {t : Triple} (h : keyValid t = true) : GoodKey t := (keyValid_iff t).1 h
theorem gGood : GoodKey gTriple := goodKey_of (by decide +kernel)
theorem gCurve : CurveEq gTriple.x.toNat gTriple.y.toNat := gGood.2.2.2
theorem gAff : aff gTriple = .aff gTriple.x.toNat gTriple.y.toNat := aff_one rfl gGood.2.1 gGood.2.2.1
theorem mulOne : mul 1 basePoint = .aff gTriple.x.toNat gTriple.y.toNat := by decide +kernel
theorem mulOne' : mul 1 (.aff gTriple.x.toNat gTriple.y.toNat) = .aff gTriple.x.toNat gTriple.y.toNat := mulOne
theorem notOnCurve : ¬ CurveEq 1 1 := by
  rw [← onCurve_iff_curveEq]
  decide +kernel

theorem witness_DecodeOfEncode : WellFormed (.sign 14 15 15 true false) ∧ WellFormed (.verify 14 0 7 false true false) := by
  decide
theorem witness_DecodedWordIsEncoding : decode 0x18004071 = .ok (.verify 4 0 0 false true true) := by decide
theorem notLegal_one : ¬ LegalWord 1 := by simp [LegalWord]
theorem notLegal_reserved : ¬ LegalWord 0x20000000 := by simp [LegalWord]
theorem witness_IllegalWords : (busyWith 0x20000000).engineNext ∧ (busyWith 0x20000000).engine = .busy 0x20000000
    ∧ ¬ LegalWord 0x20000000 ∧ (queued .engine (busyWith 1)).engineNext ∧ (queued .engine (busyWith 1)).engine = .busy 1
    ∧ ¬ LegalWord 1 := ⟨.inl rfl, rfl, notLegal_reserved, .inr rfl, rfl, notLegal_one⟩
theorem witness_StepRunsDecoded : (busyWith 0x41).engineNext ∧ (busyWith 0x41).engine = .busy 0x41
    ∧ decode 0x41 = .ok (.keychk 0) := ⟨.inl rfl, rfl, by decide⟩
theorem witness_IdleEngineWaits : State.reset.engineNext ∧ State.reset.engine = .idle
    ∧ (queued .engine).engineNext ∧ (queued .engine).engine = .idle := ⟨.inl rfl, rfl, .inr rfl, rfl⟩
theorem witness_StepKeepsInvariant : ∃ s t : State, s.engine = .busy 0x72 ∧ s.Inv ∧ step s = .next t ∧ t.tabv = true := by
  obtain ⟨t, h, h2⟩ := exists_next (o := step (busyWith 0x72 (withP [(0, gTriple)]))) (f := (·.tabv)) (v := true)
    (by decide +kernel)
  exact ⟨_, t, rfl, ⟨by decide, by decide, by decide, by decide⟩, h, h2⟩
theorem witness_ResetValues : (queued .powerOn).inputs.head? = some .powerOn ∧ (queued (wr 0x004 3)).writeNext 0x004 3
    ∧ (3 : Word32).getLsbD 1 = true ∧ (queued (rd 0x000)).readNext 0x000 := ⟨rfl, rfl, rfl, rfl⟩
theorem witness_SoftReset :
    (queued (wr 0x004 2)).writeNext 0x004 2 ∧ (2 : Word32).getLsbD 1 = true ∧ (queued (wr 0x004 2)).engine = .idle
      ∧ (queued (wr 0x004 2) (busyWith 1)).writeNext 0x004 2 ∧ (queued (wr 0x004 2) (busyWith 1)).engine = .busy 1
      ∧ ¬ LegalWord 1
      ∧ (queued (wr 0x004 2) (busyWith 0x60)).writeNext 0x004 2 ∧ (queued (wr 0x004 2) (busyWith 0x60)).engine = .busy 0x60
      ∧ decode 0x60 = .ok (.enc 0 .c1c3c2)
      ∧ (regionWritten (.enc 0 .c1c3c2) (queued (wr 0x004 2) (busyWith 0x60))) = (0, 97) := by
  refine ⟨rfl, rfl, rfl, rfl, rfl, notLegal_one, rfl, rfl, by decide, by decide⟩
theorem witness_CtrlRegister : (queued (rd 0x004)).readNext 0x004 ∧ (queued (wr 0x004 7)).writeNext 0x004 7
    ∧ (7 : Word32).getLsbD 1 = true
    ∧ (queued (wr 0x004 4)).writeNext 0x004 4 ∧ (4 : Word32).getLsbD 1 = false ∧ (4 : Word32).getLsbD 0 = false
    ∧ (queued (wr 0x004 5)).writeNext 0x004 5 ∧ (5 : Word32).getLsbD 1 = false ∧ (5 : Word32).getLsbD 0 = true
    ∧ (queued (wr 0x004 5)).engine = .idle
    ∧ (queued (wr 0x004 1) (busyWith 0)).writeNext 0x004 1 ∧ (queued (wr 0x004 1) (busyWith 0)).engine = .busy 0 :=
  ⟨rfl, rfl, rfl, rfl, rfl, rfl, rfl, rfl, rfl, rfl, rfl, rfl⟩
theorem witness_StatusRegister : (queued (rd 0x00C)).readNext 0x00C ∧ (queued (wr 0x00C 0xFF)).writeNext 0x00C 0xFF :=
  ⟨rfl, rfl⟩
theorem witness_HostRegisters : (queued (wr 0x028 9)).engine = .idle ∧ (queued (wr 0x028 9)).writeNext 0x028 9
    ∧ (queued (rd 0x010)).readNext 0x010 ∧ (queued (wr 0x02C 9)).writeNext 0x02C 9
    ∧ (queued (rd 0x0FC)).readNext 0x0FC ∧ (queued (rd 0x600)).readNext 0x600 ∧ (queued (wr 0xFFFC 9)).writeNext 0xFFFC 9
    ∧ (queued (wr 0x000 9) (busyWith 0)).writeNext 0x000 9 ∧ (queued (wr 0x030 9) (busyWith 0)).writeNext 0x030 9
    ∧ (queued (rd 0x2000) (busyWith 0)).readNext 0x2000 :=
  ⟨rfl, rfl, rfl, rfl, rfl, rfl, rfl, rfl, rfl, rfl⟩
theorem witness_BusyGate : (queued (wr 0x008 9) (busyWith 0)).engine = .busy 0
    ∧ (queued (wr 0x008 9) (busyWith 0)).writeNext 0x008 9 ∧ (queued (wr 0x028 9) (busyWith 0)).writeNext 0x028 9
    ∧ (queued (wr 0x5FC 9) (busyWith 0)).writeNext 0x5FC 9 ∧ (queued (wr 0x1FFC 9) (busyWith 0)).writeNext 0x1FFC 9
    ∧ (queued (rd 0x02C) (busyWith 0)).readNext 0x02C ∧ (queued (rd 0x100) (busyWith 0)).readNext 0x100
    ∧ (queued (rd 0x004) (busyWith 0)).readNext 0x004 := ⟨rfl, rfl, rfl, rfl, rfl, rfl, rfl, rfl⟩
/-- Two busy blocks with different commands in flight and different keys in W0. -/
theorem witness_BusyReadsHideSecrets : ∃ s1 s2 : State, s1.engine = .busy 0x60 ∧ s2.engine = .busy 0x61
    ∧ s1.inputs.head? = some (rd 0x100) ∧ s2.inputs.head? = some (rd 0x100) ∧ s1.getW 0 ≠ s2.getW 0
    ∧ s1.cmd = s2.cmd ∧ s1.done = s2.done ∧ s1.err = s2.err ∧ s1.errcode = s2.errcode ∧ s1.tabv = s2.tabv
    ∧ s1.wign = s2.wign ∧ s1.irqen = s2.irqen ∧ s1.src = s2.src ∧ s1.slen = s2.slen ∧ s1.dst = s2.dst
    ∧ s1.dlen = s2.dlen ∧ s1.idaddr = s2.idaddr ∧ s1.idlen = s2.idlen :=
  ⟨{ queued (rd 0x100) with engine := .busy 0x60 }, { queued (rd 0x100) (withW [(0, 7)]) with engine := .busy 0x61 },
    rfl, rfl, rfl, rfl, by decide, rfl, rfl, rfl, rfl, rfl, rfl, rfl, rfl, rfl, rfl, rfl, rfl, rfl⟩
theorem witness_ReadsHaveNoSideEffect : ∃ t, (queued (rd 0x00C)).inputs.head? = some (.access (.read 0x00C 4))
    ∧ step (queued (rd 0x00C)) = .next t := ⟨_, rfl, rfl⟩
theorem witness_BusErrors : (queued (.access (.read 0x00E 4))).inputs.head? = some (.access (.read 0x00E 4))
    ∧ (0x00E : BitVec 16).toNat % 4 ≠ 0
    ∧ (queued (.access (.write 0x008 2 9))).inputs.head? = some (.access (.write 0x008 2 9))
    ∧ (queued (.access (.write 0xFFFC 4 9))).inputs.head? = some (.access (.write 0xFFFC 4 9))
    ∧ (0xFFFC : BitVec 16).toNat % 4 = 0
    ∧ (queued (.access (.read 0x1000 4))).inputs.head? = some (.access (.read 0x1000 4)) := by decide
theorem witness_WWindow : (queued (rd 0x2FC)).engine = .idle
    ∧ (queued (rd 0x2FC)).readNext (0x100 + 32 * (15 : WReg).val + 4 * (7 : Fin 8).val)
    ∧ (queued (wr 0x100 9)).writeNext (0x100 + 32 * (0 : WReg).val + 4 * (0 : Fin 8).val) 9 := ⟨rfl, rfl, rfl⟩
theorem witness_PWindow : (queued (rd 0x5FC)).engine = .idle
    ∧ (queued (rd 0x5FC)).readNext (0x300 + 96 * (7 : PReg).val + 64 + 4 * (7 : Fin 8).val)
    ∧ (Coord.z, 64) ∈ [(Coord.x, 0), (Coord.y, 32), (Coord.z, 64)]
    ∧ (queued (wr 0x320 9)).writeNext (0x300 + 96 * (0 : PReg).val + 32 + 4 * (0 : Fin 8).val) 9 := by
  refine ⟨rfl, rfl, by simp, rfl⟩
theorem witness_DmemWindow : ∃ s : State, s.engine = .idle ∧ s.readNext (0x1000 + 4 * 1023)
    ∧ (∀ i < 4, s.dmem.read? (4 * 1023 + i) ≠ none) ∧ (queued (wr 0x1000 9)).writeNext (0x1000 + 4 * 0) 9 :=
  ⟨{ queued (rd 0x1FFC) with dmem := [(4092, 0), (4093, 1), (4094, 2), (4095, 3)] }, rfl, rfl, by decide, rfl⟩
/-- Both readings of DMEM_UNINIT are covered: it is one of the two. -/
theorem witness_UnwrittenRead : (queued (rd 0x1FFC)).engine = .idle ∧ (queued (rd 0x1FFC)).readNext (0x1000 + 4 * 1023)
    ∧ (queued (rd 0x1FFC)).dmem.read? (4 * 1023 + 3) = none
    ∧ (Config.dmemUninit = .fault ∨ Config.dmemUninit = .draw)
    ∧ { queued (rd 0x1FFC) with dmem := [(4092, 7)] }.dmem.read? (4 * 1023 + 0) = some 7
    ∧ { queued (rd 0x1FFC) with dmem := [(4092, 7)] }.dmem.read? (4 * 1023 + 3) = none :=
  ⟨rfl, rfl, rfl, by cases Config.dmemUninit <;> simp, rfl, rfl⟩
theorem witness_WideWrite : ∃ s : State, s.engine = .idle ∧ s.inputs = wrw 15 gTriple.x ++ [rd 0x2E0] :=
  ⟨{ State.reset with inputs := wrw 15 gTriple.x ++ [rd 0x2E0] }, rfl, rfl⟩
theorem witness_HostRun : ∃ s u : State, s.engine = .idle ∧ decode 0x00004019 = .ok (.ldc 0 .gx)
    ∧ s.inputs = run 0x00004019 false 0 ++ [] ∧ u.engine = .idle ∧ u.inputs = run 0x00004019 true 2 ++ [rd 0x010] :=
  ⟨{ State.reset with inputs := run 0x00004019 false 0 }, { State.reset with inputs := run 0x00004019 true 2 ++ [rd 0x010] },
    rfl, by decide, by simp, rfl, rfl⟩
/-- DONE, ERR, ERRCODE, TABV, TAB_KEY and WIGN each set and each cleared by one step. -/
theorem witness_FlagLifetimes :
    after (step (busyWith 0x72 (withP [(0, gTriple)]))) (fun t => (t.engine, t.done, t.tabv, t.tabKey))
        = some (.idle, true, true, ⟨gTriple.x, gTriple.y⟩)
      ∧ after (step (busyWith 1)) (fun t => (t.err, t.errcode)) = some (true, 1)
      ∧ after (step (queued (wr 0x008 9) (busyWith 0))) (·.wign) = some true
      ∧ after (step (queued (wr 0x00C 0x16) { State.reset with done := true, err := true, errcode := 1, wign := true }))
          (fun t => (t.done, t.err, t.errcode, t.wign)) = some (false, false, 0, false)
      ∧ after (step (queued (wr 0x004 2) { State.reset with tabv := true, tabKey := ⟨1, 1⟩ }))
          (fun t => (t.tabv, t.tabKey)) = some (false, ⟨0, 0⟩)
      ∧ after (step (queued (wr 0x004 1))) (·.engine) = some (.busy 0) := by decide +kernel
/-- C8. -/
theorem witness_IrqLevel : after (exec .nop { State.reset with irqen := true }) irq = some true
    ∧ (queued (wr 0x00C 6)).writeNext 0x00C 6 ∧ (6 : Word32).getLsbD 1 = true ∧ (6 : Word32).getLsbD 2 = true
    ∧ (queued (wr 0x004 1)).writeNext 0x004 1 ∧ (1 : Word32).getLsbD 2 = false ∧ (1 : Word32).getLsbD 0 = true
    ∧ (queued (wr 0x004 1)).engine = .idle
    ∧ irq { queued (wr 0x00C 2) with irqen := true, done := true } = true
    ∧ after (step { queued (wr 0x00C 2) with irqen := true, done := true }) irq = some false :=
  ⟨by decide, rfl, rfl, rfl, rfl, rfl, rfl, rfl, rfl, by decide⟩
theorem witness_ErrorCodes : ∃ t, State.reset.err = false ∧ exec (.minv 0 0 .n) State.reset = .next t ∧ t.err = true := by
  obtain ⟨t, h, h2⟩ := exists_next (o := exec (.minv 0 0 .n) State.reset) (f := (·.err)) (v := true) (by decide +kernel)
  exact ⟨t, rfl, h, h2⟩
theorem witness_ResultRegisters : ∃ t, exec (.peq 0 1) State.reset = .next t ∧ t.res = 1 :=
  exists_next (by decide +kernel)
theorem witness_RandomWords : ∃ t, exec (.keygen 0 0) { State.reset with rng := [0, 1, 9] } = .next t ∧ t.rng = [9] :=
  exists_next (by decide +kernel)

/-! ### Witnesses: modular and point commands -/

theorem witness_ModularInverse :
    (((withW [(0, BitVec.ofNat 256 Config.p)]).getW 0).toNat % Config.p = 0)
      ∧ (((withW [(0, BitVec.ofNat 256 (Config.n - 1))]).getW 0).toNat % Config.n ≠ 0) := by decide
/-- M23 and M26. -/
theorem witness_SquareRoot : (∃ r, r * r % Config.p = ((withW [(0, 4)]).getW 0).toNat % Config.p)
    ∧ ¬ ∃ r, r * r % Config.p = ((withW [(0, 13)]).getW 0).toNat % Config.p := by
  refine ⟨⟨2, by decide⟩, ?_⟩
  rw [← sqrtModP_sq_iff (Nat.mod_lt _ p_pos)]
  decide +kernel
theorem witness_PointNormalise :
    (((withP [(0, ⟨5, 7, BitVec.ofNat 256 Config.p⟩)]).getP 0).z.toNat % Config.p = 0)
      ∧ (((withP [(0, g17Triple)]).getP 0).z.toNat % Config.p ≠ 0) := by decide
/-- O on either side, two abscissas, the double, the negative; and y = 0, which is off the curve. -/
theorem witness_PointAddition : aff (State.reset.getP 7) = .inf
    ∧ aff ((withP [(0, gTriple)]).getP 0) = .aff gTriple.x.toNat gTriple.y.toNat
    ∧ aff ((withP [(1, g2Triple)]).getP 1) = .aff g2Triple.x.toNat g2Triple.y.toNat
    ∧ gTriple.x.toNat ≠ g2Triple.x.toNat ∧ gTriple.y.toNat ≠ 0
    ∧ aff ((withP [(2, negGTriple)]).getP 2) = .aff gTriple.x.toNat negGTriple.y.toNat
    ∧ gTriple.y.toNat ≠ negGTriple.y.toNat ∧ aff ((withP [(3, ⟨3, 0, 1⟩)]).getP 3) = .aff 3 0 := by decide +kernel
theorem witness_PointDoubling : aff (State.reset.getP 7) = .inf ∧ aff ((withP [(3, ⟨3, 0, 1⟩)]).getP 3) = .aff 3 0
    ∧ aff ((withP [(0, gTriple)]).getP 0) = .aff gTriple.x.toNat gTriple.y.toNat ∧ gTriple.y.toNat ≠ 0 := by
  decide +kernel
theorem witness_GroupLaw : basePoint.Valid ∧ (add basePoint basePoint).Valid ∧ Point.inf.Valid :=
  ⟨valid_basePoint, valid_add valid_basePoint valid_basePoint, valid_inf⟩
theorem witness_ScalarMultiple : basePoint.Valid ∧ Config.n + 1 < 2 ^ 256 := ⟨valid_basePoint, by decide⟩
theorem witness_PointMultiplication : aff ((withP [(0, ⟨1, 1, 1⟩)]).getP 0) = .aff 1 1 ∧ ¬ CurveEq 1 1
    ∧ (∀ x y, aff ((withP [(0, gTriple)]).getP 0) = .aff x y → CurveEq x y)
    ∧ ((withW [(0, BitVec.ofNat 256 Config.n)]).getW 0).toNat = Config.n
    ∧ ((withW [(0, BitVec.ofNat 256 (Config.n - 1))]).getW 0).toNat = Config.n - 1 := by
  refine ⟨by decide +kernel, notOnCurve, fun x y h => ?_, by decide, by decide⟩
  have hg : (withP [(0, gTriple)]).getP 0 = gTriple := by decide
  rw [hg, gAff] at h
  cases h
  exact gCurve

/-! ### Witnesses: compression and keys -/

theorem witness_Compress : aff (State.reset.getP 0) = .inf
    ∧ aff ((withP [(0, g2Triple)]).getP 0) = .aff g2Triple.x.toNat g2Triple.y.toNat := by decide +kernel
/-- Z5; Z9; Z10. -/
theorem witness_Decompress :
    (((withW [(4, gTriple.x)]).getW 4).toNat = gTriple.x.toNat ∧ gTriple.x.toNat < Config.p
        ∧ gTriple.y.toNat < Config.p ∧ CurveEq gTriple.x.toNat gTriple.y.toNat ∧ gTriple.y.toNat % 2 = false.toNat)
      ∧ (¬ ∃ y, 2 < Config.p ∧ y < Config.p ∧ CurveEq 2 y ∧ y % 2 = false.toNat)
      ∧ ¬ ∃ y, Config.p < Config.p ∧ y < Config.p ∧ CurveEq Config.p y ∧ y % 2 = false.toNat := by
  refine ⟨⟨by decide, gGood.2.1, gGood.2.2.1, gCurve, by decide⟩, ?_, fun ⟨y, h, _⟩ => Nat.lt_irrefl _ h⟩
  rintro ⟨y, -, -, hc, -⟩
  have h : y * y % Config.p = curveRhs 2 := by simpa [onCurve] using (onCurve_iff_curveEq 2 y).2 hc
  have := (sqrtModP_sq_iff (v := curveRhs 2) (Nat.mod_lt _ p_pos)).2 ⟨y, h⟩
  revert this
  decide +kernel
theorem witness_CompressRoundTrip : aff ((withP [(0, gTriple)]).getP 0) = .aff gTriple.x.toNat gTriple.y.toNat
    ∧ CurveEq gTriple.x.toNat gTriple.y.toNat := ⟨by decide +kernel, gCurve⟩
/-- R2's first word is rejected and R3's words all are. -/
theorem witness_KeyGeneration :
    FirstGood (fun v : U256 => 1 ≤ v.toNat ∧ v.toNat ≤ Config.n - 2)
        { State.reset with rng := [BitVec.ofNat 256 (Config.n - 1), BitVec.ofNat 256 (Config.n - 2)] } 1
      ∧ NoneGood (fun v : U256 => 1 ≤ v.toNat ∧ v.toNat ≤ Config.n - 2)
        { State.reset with rng := List.replicate 64 0 } ∧ State.reset.draws = 0 := by
  unfold FirstGood NoneGood
  decide +kernel
theorem witness_GeneratedKeysAreValid : ∃ t, State.reset.err = false
    ∧ exec (.keygen 0 0) { State.reset with rng := [1] } = .next t ∧ t.err = false := by
  obtain ⟨t, h, h2⟩ := exists_next (o := exec (.keygen 0 0) { State.reset with rng := [1] }) (f := (·.err)) (v := false)
    (by decide +kernel)
  exact ⟨t, rfl, h, h2⟩

/-! ### Witnesses: hash, KDF, ECIES -/

/-- The longest digest output in DMEM, from a written and from an unwritten input byte. -/
theorem witness_HashCommand :
    ¬ InDmem 4095 2
      ∧ (InDmem 0 1 ∧ InDmem 4064 32 ∧ ¬ Overlaps 0 1 4064 32)
      ∧ ({ State.reset with slen := 1, dst := 4064, dlen := 32, dmem := [(0, 7)] } : State).readable 0 1 = true
      ∧ (Config.dmemUninit = .fault → State.reset.readable 0 1 = false) := by
  unfold InDmem Overlaps
  refine ⟨by decide, by decide, by decide +kernel, fun h => ?_⟩
  simp [State.readable, h, Memory.written, State.reset]
theorem witness_KdfCommand :
    ¬ InDmem 4097 0
      ∧ (InDmem 0 1 ∧ InDmem 1 40 ∧ ¬ Overlaps 0 1 1 40)
      ∧ ({ State.reset with slen := 1, dst := 1, dlen := 40, dmem := [(0, 7)] } : State).readable 0 1 = true
      ∧ (Config.dmemUninit = .fault → State.reset.readable 0 1 = false) := by
  unfold InDmem Overlaps
  refine ⟨by decide, by decide, by decide +kernel, fun h => ?_⟩
  simp [State.readable, h, Memory.written, State.reset]

/-- ENC of the empty message under G = 1·G with the RNG word 1; W0 = 1 is the private key. -/
def encState : State := { withW [(0, 1)] (withP [(0, gTriple)]) with dlen := 97, rng := [1] }

theorem rngAt_zeros (s : State) {j : Nat} (hj : j < 64) : State.rngAt { s with rng := List.replicate 64 0 } j = 0 := by
  show ((List.replicate 64 (0 : U256))[j]?).getD _ = 0
  rw [List.getElem?_replicate, if_pos hj]
  rfl

theorem encNonce_one : encNonce gTriple 0 1 := ⟨by decide, by decide, gTriple.x, gTriple.y, mulOne', .inl rfl⟩

theorem witness_Encrypt :
    ¬ InDmem 4000 97
      ∧ (InDmem encState.src.toNat 0 ∧ 97 + 0 ≤ encState.dlen.toNat ∧ InDmem encState.dst.toNat 97 ∧ ¬ Overlaps 0 0 0 97)
      ∧ encState.slen.toNat = 0 ∧ encState.draws = 0
      ∧ ¬ GoodKey (State.reset.getP 0) ∧ GoodKey (encState.getP 0)
      ∧ encState.readable encState.src.toNat 0 = true
      ∧ (Config.dmemUninit = .fault → State.reset.readable 0 1 = false)
      ∧ FirstGood (encNonce (encState.getP 0) 0) encState 0
      ∧ NoneGood (encNonce (encState.getP 0) 0) { encState with rng := List.replicate 64 0 } := by
  have hk : encState.getP 0 = gTriple := by decide
  refine ⟨by unfold InDmem; decide, by unfold InDmem Overlaps; decide, by decide, by decide, ?_, ?_, by decide +kernel,
    fun h => ?_, ?_, ?_⟩
  · exact fun h => absurd h.1 (by decide)
  · rw [hk]
    exact gGood
  · simp [State.readable, h, Memory.written, State.reset]
  · rw [hk]
    exact ⟨by decide, encNonce_one, fun k hk => by omega⟩
  · rintro j hj ⟨h, -⟩
    rw [rngAt_zeros _ hj] at h
    exact absurd h (by decide)

/-- A 97-byte ciphertext whose C1 is G, with these bytes as C3. -/
def cipher97 (c3 : U256) : List Byte := 0x04 :: (be256 gTriple.x ++ be256 gTriple.y ++ be256 c3)

/-- DEC of `cipher97 c3` at 0 with the private key 1 in W0. -/
def decState (c3 : U256) : State := (({ withW [(0, 1)] with slen := 97, dst := 200 } : State)).memWrite 0 (cipher97 c3)

/-- The digest that matches: of x(G) and y(G), the message being empty. -/
def goodC3 : U256 := Config.hashWord (be256 gTriple.x ++ [] ++ be256 gTriple.y)

theorem decState_read (c : U256) : (decState c).memRead 0 97 = cipher97 c ∧ (decState c).readable 0 97 = true := by
  have hl : (cipher97 c).length = 97 := by simp [cipher97]
  have h1 := memRead_memWrite ({ withW [(0, 1)] with slen := 97, dst := 200 } : State) 0 (cipher97 c)
  have h2 := readable_memWrite ({ withW [(0, 1)] with slen := 97, dst := 200 } : State) 0 (cipher97 c)
  rw [hl] at h1 h2
  exact ⟨h1, h2⟩

theorem goodC3_ne : goodC3 ≠ goodC3 + 1 := by
  intro h
  have := congrArg BitVec.toNat h
  rw [BitVec.toNat_add] at this
  have hl := goodC3.isLt
  have h1 : (1 : U256).toNat = 1 := rfl
  omega

/-- All the clauses of DEC's checks; then C1 = G, with the matching C3 and with another one. -/
theorem witness_Decrypt :
    ¬ InDmem 4000 97 ∧ (InDmem 0 96 ∧ 96 < 97) ∧ (InDmem 0 97 ∧ ¬ InDmem 4097 0)
      ∧ (InDmem 0 97 ∧ InDmem 200 0 ∧ ¬ Overlaps 0 97 200 0)
      ∧ ((decState goodC3).getW 0).toNat = 1 ∧ (State.reset.getW 0).toNat = 0
      ∧ (∀ c, (decState c).readable 0 97 = true ∧ ((cipher97 c).drop 1).take 64 = be256 gTriple.x ++ be256 gTriple.y
          ∧ (cipher97 c)[0]? = some 0x04 ∧ ((cipher97 c).drop 65).take 32 = be256 c)
      ∧ gTriple.x.toNat < Config.p ∧ gTriple.y.toNat < Config.p ∧ CurveEq gTriple.x.toNat gTriple.y.toNat ∧ ¬ CurveEq 1 1
      ∧ (List.range 32).map (digestByte (be256 gTriple.x ++ [] ++ be256 gTriple.y)) = be256 goodC3
      ∧ (List.range 32).map (digestByte (be256 gTriple.x ++ [] ++ be256 gTriple.y)) ≠ be256 (goodC3 + 1) := by
  refine ⟨by unfold InDmem; decide, by unfold InDmem; decide, by unfold InDmem; decide,
    by unfold InDmem Overlaps; decide, by decide, by decide, fun c => ⟨(decState_read c).2, rfl, rfl, rfl⟩, gGood.2.1,
    gGood.2.2.1, gCurve, notOnCurve, rfl, fun h => goodC3_ne (be256_inj h)⟩

/-- The errors of ErrorsArePrecise: MINV of 0, and DEC with a C3 that does not match. -/
theorem witness_ErrorsArePrecise : (∃ t, exec (.minv 0 0 .n) State.reset = .next t ∧ t.err = true ∧ t.errcode ≠ 8)
    ∧ ∃ t, (decState (goodC3 + 1)).err = false ∧ exec (.dec 0 .c1c3c2) (decState (goodC3 + 1)) = .next t
      ∧ t.err = true ∧ t.errcode = 8 := by
  refine ⟨?_, ?_⟩
  · obtain ⟨t, h, h2⟩ := exists_next (o := exec (.minv 0 0 .n) State.reset) (f := fun t => (t.err, t.errcode))
      (v := (true, 3)) (by decide +kernel)
    simp only [Prod.mk.injEq] at h2
    exact ⟨t, h, h2.1, by rw [h2.2]; decide⟩
  · generalize hc : goodC3 + 1 = c
    obtain ⟨h1, h2⟩ := decState_read c
    have hd : decrypt 1 .c1c3c2 (cipher97 c) = .ok none := by
      have hx : os2i (slice (cipher97 c) 1 33) = gTriple.x.toNat := os2i_be256 gTriple.x
      have hy : os2i (slice (cipher97 c) 33 65) = gTriple.y.toNat := os2i_be256 gTriple.y
      have hl : (cipher97 c).length - 97 = 0 := by simp [cipher97]
      have ho : onCurve (.aff gTriple.x.toNat gTriple.y.toNat) = true := (onCurve_iff_curveEq _ _).2 gCurve
      have hi : integrityDigest (.aff gTriple.x.toNat gTriple.y.toNat) (xorBytes (cipherC2 .c1c3c2 (cipher97 c)) [])
          ≠ cipherC3 .c1c3c2 (cipher97 c) := by
        have h3 : cipherC3 .c1c3c2 (cipher97 c) = be256 c := rfl
        rw [h3, integrityDigest, hash_eq_be256]
        simp only [Point.xCoord, Point.yCoord, i2os_toNat, xorBytes, List.zipWith_nil_right]
        exact fun h => goodC3_ne ((be256_inj h).trans hc.symm)
      simp only [decrypt, hx, hy, hl, ho, mulOne', kdf_eq _ 0 (by decide), List.range_zero, List.map_nil]
      rw [if_neg (by rw [show (cipher97 c)[0]? = some 0x04 from rfl]; simp),
        if_neg (by have := gGood.2.1; have := gGood.2.2.1; omega), if_neg (by simp), if_neg hi]
    refine ⟨raiseError .integrity ((decState c).memWrite (decState c).dst.toNat (zeros ((decState c).slen.toNat - 97))),
      rfl, ?_, rfl, rfl⟩
    show execDec 0 .c1c3c2 (decState c) = _
    unfold execDec
    rw [show decCheck 0 (decState c) = none from rfl]
    show withRead (decState c) 0 97 _ = _
    rw [withRead_eq _ _ _ _ h2, h1, show (decState c).natW 0 = 1 from rfl, hd]
    rfl

theorem witness_EncryptThenDecrypt : ∃ t, encState.err = false ∧ exec (.enc 0 .c1c2c3) encState = .next t ∧ t.err = false
    ∧ 1 ≤ (encState.getW 0).toNat ∧ (encState.getW 0).toNat ≤ Config.n - 2
    ∧ encState.getP 0 = Machine.norm (mul (encState.getW 0).toNat basePoint)
    ∧ encState.slen.toNat ≤ (0 : Word32).toNat ∧ InDmem (200 : Word32).toNat encState.slen.toNat
    ∧ ¬ Overlaps encState.dst.toNat (97 + encState.slen.toNat) (200 : Word32).toNat encState.slen.toNat := by
  obtain ⟨t, h, h2⟩ := exists_next (o := exec (.enc 0 .c1c2c3) encState) (f := (·.err)) (v := false) (by decide +kernel)
  exact ⟨t, rfl, h, h2, by decide, by decide, by decide +kernel, by decide, by unfold InDmem; decide,
    by unfold Overlaps; decide⟩
theorem witness_WrongKeyDiffers : (1 : Nat) ≤ Config.n - 1 ∧ 1 ≤ Config.n - 2 ∧ Config.n - 2 ≠ 1 := by decide

/-! ### Witnesses: signatures -/

/-- Σ5's SIGN: d = 1 in W0, e = 0 in W1, k = 1. -/
def signState : State := { withW [(0, 1)] (withP [(0, gTriple)]) with rng := [1] }

theorem signNonce_one : signNonce 1 0 1 :=
  ⟨by decide, by decide, gTriple.x.toNat, gTriple.y.toNat, mulOne, by decide, by decide, by decide⟩

theorem witness_Sign : WellFormed (.sign 2 0 1 true false) ∧ signState.draws = 0
    ∧ ¬ SigRegions false true { signState with slen := 4097 } ∧ SigRegions true false signState
    ∧ ¬ (1 ≤ (State.reset.getW 0).toNat ∧ (State.reset.getW 0).toNat ≤ Config.n - 2)
    ∧ 1 ≤ (signState.getW 0).toNat ∧ (signState.getW 0).toNat ≤ Config.n - 2
    ∧ (Config.dmemUninit = .fault → ¬ SigReadable false true { signState with slen := 1 })
    ∧ SigReadable true false signState
    ∧ mul (signState.getW 0).toNat basePoint = .aff gTriple.x.toNat gTriple.y.toNat
    ∧ digestOf 1 true false gTriple.x gTriple.y signState = 0
    ∧ FirstGood (signNonce 1 0) signState 0
    ∧ NoneGood (signNonce 1 0) { signState with rng := List.replicate 64 0 } := by
  refine ⟨by decide, rfl, ?_, .inl rfl, by decide, by decide, by decide, fun h => ?_, .inl rfl, by decide +kernel,
    by decide, ⟨by decide, signNonce_one, fun k hk => by omega⟩, ?_⟩
  · rintro (h | ⟨h, -⟩)
    · cases h
    · revert h
      unfold InDmem
      decide
  · rintro (h' | ⟨h', -⟩)
    · cases h'
    · simp [State.readable, h, Memory.written, signState, withW, withP, State.reset, State.setW, State.setP] at h'
  · rintro j hj ⟨h, -⟩
    rw [rngAt_zeros _ hj] at h
    exact absurd h (by decide)

/-- Σ5's signature (r, s) in W2, W3 under the key G, and the clauses before it. -/
theorem witness_Verify : WellFormed (.verify 2 1 0 true false false) ∧ WellFormed (.verify 2 1 0 true false true)
    ∧ State.reset.tabv = false ∧ ¬ SigRegions false true { signState with slen := 4097 }
    ∧ SigRegions true false signState ∧ ¬ GoodKey (State.reset.getP 0) ∧ GoodKey (signState.getP 0)
    ∧ ¬ (1 ≤ (State.reset.getW 2).toNat)
    ∧ (1 ≤ gTriple.x.toNat ∧ gTriple.x.toNat ≤ Config.n - 1)
    ∧ (1 ≤ (0xE69DA8E8F0733F7350337DDCCAE31B352A12598B2892FF3A9B0ED144A02F06C0 : U256).toNat
      ∧ (0xE69DA8E8F0733F7350337DDCCAE31B352A12598B2892FF3A9B0ED144A02F06C0 : U256).toNat ≤ Config.n - 1)
    ∧ (Config.dmemUninit = .fault → ¬ SigReadable false true { signState with slen := 1 })
    ∧ SigReadable true false signState := by
  have hk : signState.getP 0 = gTriple := by decide
  obtain ⟨_, _, h3, h4, _, _, _, h8, h9, _⟩ := witness_Sign
  exact ⟨by decide, by decide, rfl, h3, h4, fun h => absurd h.1 (by decide), hk ▸ gGood, by decide, by decide, by decide,
    h8, h9⟩
theorem witness_SignThenVerify : ∃ t, WellFormed (.sign 2 0 1 true false)
    ∧ signState.err = false ∧ exec (.sign 2 0 1 true false) signState = .next t ∧ t.err = false
    ∧ t.getW 1 = signState.getW 1 ∧ signState.getP 0 = Machine.norm (mul (signState.getW 0).toNat basePoint) := by
  obtain ⟨t, h, h2⟩ := exists_next (o := exec (.sign 2 0 1 true false) signState)
    (f := fun t => (t.err, t.getW 1)) (v := (false, signState.getW 1)) (by decide +kernel)
  obtain ⟨h2, h3⟩ := Prod.mk.inj h2
  exact ⟨t, by decide, rfl, h, h2, h3, by decide +kernel⟩
theorem witness_PrecomputeTable : GoodKey ((withP [(7, gTriple)]).getP 7) ∧ ¬ GoodKey (State.reset.getP 7) := by
  have hk : (withP [(7, gTriple)]).getP 7 = gTriple := by decide
  exact ⟨hk ▸ gGood, fun h => absurd h.1 (by decide)⟩
theorem witness_PrecomputeIsInvisible : ∃ t v : State, exec (.precomp 7) (withP [(7, gTriple)]) = .next t ∧ t.err = false
    ∧ v.tabv = t.tabv ∧ v.tabKey = t.tabKey ∧ v.getP 7 = t.getP 7 := by
  obtain ⟨t, h, h2⟩ := exists_next (o := exec (.precomp 7) (withP [(7, gTriple)])) (f := (·.err)) (v := false)
    (by decide +kernel)
  exact ⟨t, t, h, h2, rfl, rfl, rfl⟩

end Tests
end Sys2Proof
end

section
/-! SUPPORT. The invariant of the block (O7, O8): what a command that answers a next state leaves in each field
the invariant speaks of, then each event of a step. -/

namespace Sys2Proof
namespace Machine

/-! ### What a command that answers a next state did -/

/-- The model's `Outcome`, read for a command that answers a next state. -/
theorem exec_next_cases {i : Instr} {s t : State} (h : exec i s = .next t) :
    Well i s t ∨ Precise i s t ∨ BadDigest i s t := by
  rcases exec_outcome i s with ⟨u, hu, hc⟩ | ⟨hf, _⟩
  · obtain rfl : u = t := Host.Outcome.next.inj (hu.symm.trans h)
    exact hc
  · rw [hf] at h
    cases h

section
variable {x : Writes} {s t : State}

theorem OnlyWrites.res_eq (h : OnlyWrites x s t) (hx : x.res = false) : t.res = s.res := by
  obtain ⟨_, _, hres, _⟩ := h
  exact hres hx

theorem OnlyWrites.outlen_eq (h : OnlyWrites x s t) (hx : x.outlen = false) : t.outlen = s.outlen := by
  obtain ⟨_, _, _, hout, _⟩ := h
  exact hout hx

theorem OnlyWrites.tab_eq (h : OnlyWrites x s t) (hx : x.tab = false) : t.tabKey = s.tabKey ∧ t.tabv = s.tabv := by
  obtain ⟨_, _, _, _, htab, _⟩ := h
  exact htab hx

theorem OnlyWrites.rng_eq (h : OnlyWrites x s t) (hx : x.rng = false) : t.rng = s.rng := by
  obtain ⟨_, _, _, _, _, _, hrng, _⟩ := h
  exact hrng hx

theorem OnlyWrites.wign_eq (h : OnlyWrites x s t) : t.wign = s.wign := by
  obtain ⟨_, _, _, _, _, _, _, _, _, hwign, _⟩ := h
  exact hwign

end

/-- A command ends without error or with a code of 60_exceptions.md R148. -/
theorem exec_ends {i : Instr} {s t : State} (h : exec i s = .next t) :
    Succeeded s t ∨ ∃ e : ErrCode, Failed e.code t := by
  rcases exec_next_cases h with ⟨hs, _⟩ | ⟨⟨e, _, hf⟩, _⟩ | ⟨_, hf, _⟩
  · exact .inl hs
  · exact .inr ⟨e, hf⟩
  · exact .inr ⟨.integrity, hf⟩

/-- No command writes WIGN (10_state.md R41). -/
theorem exec_wign {i : Instr} {s t : State} (h : exec i s = .next t) : t.wign = s.wign := by
  rcases exec_next_cases h with ⟨_, hw, _⟩ | ⟨_, hw, _⟩ | ⟨_, _, hw, _⟩ <;> exact hw.wign_eq

/-- RES after a command is as before or one of the values 0 to 3 (10_state.md R36). -/
theorem exec_res {i : Instr} {s t : State} (h : exec i s = .next t) : t.res = s.res ∨ t.res.toNat ≤ 3 := by
  rcases exec_next_cases h with ⟨_, hw, hr, _⟩ | ⟨_, hw, _⟩ | ⟨_, _, hw, _⟩
  · cases i with
    | pchk | peq | keychk | verify =>
      have hr : t.res = 0 ∨ t.res = 1 := hr
      rcases hr with hr | hr <;> simp [hr]
    | pcomp =>
      have hr : t.res = 2 ∨ t.res = 3 := hr
      rcases hr with hr | hr <;> simp [hr]
    | _ => exact .inl (hw.res_eq rfl)
  · exact .inl (hw.res_eq rfl)
  · exact .inl (hw.res_eq rfl)

/-- OUTLEN after a command is as before or counts bytes of DMEM (R38). -/
theorem exec_outlen {i : Instr} {s t : State} (h : exec i s = .next t) :
    t.outlen = s.outlen ∨ t.outlen.toNat ≤ Config.dmemSize := by
  rcases exec_next_cases h with ⟨_, hw, hr, _⟩ | ⟨_, hw, _⟩ | ⟨_, _, hw, _⟩
  · cases i with
    | hash =>
      have hr : t.outlen.toNat = 32 := hr
      exact .inr (by rw [hr]; decide)
    | kdf =>
      obtain ⟨hr, hle⟩ : t.outlen = s.dlen ∧ s.dlen.toNat ≤ Config.dmemSize := hr
      exact .inr (by rw [hr]; exact hle)
    | enc =>
      obtain ⟨hr, hle⟩ : t.outlen.toNat = 97 + s.slen.toNat ∧ 97 + s.slen.toNat ≤ Config.dmemSize := hr
      exact .inr (by rw [hr]; exact hle)
    | dec =>
      obtain ⟨hr, hle⟩ : t.outlen.toNat = s.slen.toNat - 97 ∧ s.slen.toNat ≤ Config.dmemSize := hr
      exact .inr (by omega)
    | _ => exact .inl (hw.outlen_eq rfl)
  · exact .inl (hw.outlen_eq rfl)
  · exact .inl (hw.outlen_eq rfl)

/-- TAB_KEY and TABV after a command are as before, or the command is PRECOMP and has left a valid key (47_sm2sig.md
R144). -/
theorem exec_tab {i : Instr} {s t : State} (h : exec i s = .next t) :
    (t.tabKey = s.tabKey ∧ t.tabv = s.tabv)
      ∨ (∃ k, i = .precomp k) ∧ t.tabv = true ∧ keyValid ⟨t.tabKey.x, t.tabKey.y, 1⟩ = true := by
  rcases exec_next_cases h with ⟨_, hw, hr, _⟩ | ⟨_, hw, _⟩ | ⟨_, _, hw, _⟩
  · cases i with
    | precomp k => exact .inr ⟨⟨k, rfl⟩, hr⟩
    | _ => exact .inl (hw.tab_eq rfl)
  · exact .inl (hw.tab_eq rfl)
  · exact .inl (hw.tab_eq rfl)

/-- Every command keeps DMEM's canonical form. -/
theorem exec_keepsMemory {i : Instr} {s t : State} (h : exec i s = .next t) : KeepsMemory s t := by
  rcases exec_next_cases h with ⟨_, _, _, hk, _⟩ | ⟨_, _, hd, _⟩ | ⟨_, _, _, _, hk⟩
  · exact hk
  · exact keepsMemory_of_eq hd
  · exact hk

/-! ### The parts of the invariant -/

theorem flagsInv_iff (s : State) :
    s.flagsInv = true ↔
      (∀ c, s.engine = .busy c → s.cmd = c ∧ s.done = false ∧ s.err = false)
        ∧ (s.err = true ↔ s.errcode ≠ 0) ∧ s.errcode.toNat ≤ 13 := by
  unfold State.flagsInv
  cases s.engine <;> cases s.err <;> simp [and_assoc]

theorem tableInv_iff (s : State) :
    s.tableInv = true ↔
      (s.tabv = true → keyValid ⟨s.tabKey.x, s.tabKey.y, 1⟩ = true) ∧ (s.tabv = false → s.tabKey = ⟨0, 0⟩) := by
  unfold State.tableInv
  cases s.tabv <;> simp

theorem resultInv_iff (s : State) :
    s.resultInv = true ↔ s.res.toNat ≤ 3 ∧ s.outlen.toNat ≤ Config.dmemSize ∧ s.draws = 0 := by
  simp [State.resultInv, and_assoc]

theorem ErrCode.code_ne_zero (e : ErrCode) : e.code ≠ 0 := by cases e <;> decide
theorem ErrCode.code_le (e : ErrCode) : e.code.toNat ≤ 13 := by cases e <;> decide

theorem Succeeded.flagsInv {s t : State} (h : Succeeded s t) (hs : s.flagsInv = true) : t.flagsInv = true := by
  obtain ⟨hidle, _, _, herr, hcode⟩ := h
  obtain ⟨_, hiff, hle⟩ := (flagsInv_iff s).1 hs
  refine (flagsInv_iff t).2 ⟨fun c hc => ?_, ?_, ?_⟩
  · rw [hidle] at hc
    cases hc
  · rw [herr, hcode]
    exact hiff
  · rw [hcode]
    exact hle

theorem Failed.flagsInv {e : ErrCode} {t : State} (h : Failed e.code t) : t.flagsInv = true := by
  obtain ⟨hidle, _, _, herr, hcode⟩ := h
  refine (flagsInv_iff t).2 ⟨fun c hc => ?_, ?_, ?_⟩
  · rw [hidle] at hc
    cases hc
  · exact ⟨fun _ => hcode ▸ e.code_ne_zero, fun _ => herr⟩
  · rw [hcode]
    exact e.code_le

/-! ### Each event keeps the invariant -/

theorem inv_raiseError (e : ErrCode) {s : State} (hs : s.Inv) : (raiseError e s).Inv := by
  obtain ⟨_, htab, hres, hmem⟩ := hs
  obtain ⟨hr, ho, _⟩ := (resultInv_iff s).1 hres
  exact ⟨Failed.flagsInv (e := e) ⟨rfl, rfl, rfl, rfl, rfl⟩, htab, (resultInv_iff _).2 ⟨hr, ho, rfl⟩, hmem⟩

theorem inv_exec {i : Instr} {s t : State} (hs : s.Inv) (h : exec i s = .next t) : t.Inv := by
  obtain ⟨hflags, htab, hres, hmem⟩ := hs
  have hends := exec_ends h
  refine ⟨?_, ?_, ?_, exec_keepsMemory h hmem⟩
  · rcases hends with hok | ⟨e, hf⟩
    · exact hok.flagsInv hflags
    · exact hf.flagsInv
  · rw [tableInv_iff] at htab ⊢
    rcases exec_tab h with ⟨hk, hv⟩ | ⟨_, hv, hk⟩
    · rw [hk, hv]
      exact htab
    · exact ⟨fun _ => hk, fun hf => absurd (hv.symm.trans hf) (by decide)⟩
  · obtain ⟨hr, ho, _⟩ := (resultInv_iff s).1 hres
    have hdraws : t.draws = 0 := by
      rcases hends with ⟨_, _, hd, _⟩ | ⟨_, _, _, hd, _⟩ <;> exact hd
    refine (resultInv_iff t).2 ⟨?_, ?_, hdraws⟩
    · rcases exec_res h with heq | hle
      · rw [heq]
        exact hr
      · exact hle
    · rcases exec_outlen h with heq | hle
      · rw [heq]
        exact ho
      · exact hle

/-- Both resets leave registers that meet the invariant, whatever they held. -/
theorem inv_clearRegisters {s : State} (h : s.memoryInv = true) : (clearRegisters s).Inv :=
  ⟨rfl, rfl, rfl, h⟩

/-- The free bytes of an abandoned command stay inside DMEM (70_reset_and_hazards.md R165). -/
theorem memoryInv_abandonDmem (c : Word32) {s : State} (h : s.memoryInv = true) :
    ({ s with dmem := abandonDmem c s } : State).memoryInv = true := by
  by_cases hin : (outputRegion c s).1 ≤ Config.dmemSize
  · refine keepsMemory_storeAll rfl ?_ h
    simp only [List.length_map, List.length_range]
    omega
  · have hnone : Config.dmemSize - (outputRegion c s).1 = 0 := by omega
    have hsame : abandonDmem c s = s.dmem := by
      simp [abandonDmem, hnone, Memory.storeAll]
    rw [hsame]
    exact h

theorem inv_softReset {s : State} (hs : s.Inv) : (softReset s).Inv := by
  obtain ⟨_, _, _, hmem⟩ := hs
  unfold softReset
  split
  · exact inv_clearRegisters hmem
  · exact inv_clearRegisters (memoryInv_abandonDmem _ hmem)

theorem inv_powerOnReset (s : State) : (powerOnReset s).Inv := ⟨rfl, rfl, rfl, rfl⟩

theorem inv_acceptStart {s : State} (hs : s.Inv) : (acceptStart s).Inv := by
  obtain ⟨_, htab, hres, hmem⟩ := hs
  obtain ⟨hr, ho, _⟩ := (resultInv_iff s).1 hres
  refine ⟨(flagsInv_iff _).2 ⟨fun c hc => ⟨Engine.busy.inj hc, rfl, rfl⟩, by simp, by simp⟩, htab,
    (resultInv_iff _).2 ⟨hr, ho, rfl⟩, hmem⟩

theorem inv_writeCtrl (v : Word32) {s : State} (hs : s.Inv) : (writeCtrl v s).Inv := by
  unfold writeCtrl start
  split
  · exact inv_softReset hs
  · split
    · split
      · exact hs
      · exact inv_acceptStart (s := { s with irqen := v.getLsbD 2 }) hs
    · exact hs

/-- A write to STATUS field by field (10_state.md R35). -/
theorem writeStatus_eq (v : Word32) (s : State) :
    writeStatus v s
      = { s with done := s.done && !v.getLsbD 1
                 err := s.err && !v.getLsbD 2
                 errcode := if v.getLsbD 2 then 0 else s.errcode
                 wign := s.wign && !v.getLsbD 4 } := by
  unfold writeStatus
  cases v.getLsbD 1 <;> cases v.getLsbD 2 <;> cases v.getLsbD 4 <;> simp [clearError]

theorem inv_writeStatus (v : Word32) {s : State} (hs : s.Inv) : (writeStatus v s).Inv := by
  obtain ⟨hflags, htab, hres, hmem⟩ := hs
  obtain ⟨hbusy, hiff, hle⟩ := (flagsInv_iff s).1 hflags
  rw [writeStatus_eq]
  refine ⟨(flagsInv_iff _).2 ⟨fun c hc => ?_, ?_, ?_⟩, htab, hres, hmem⟩
  · obtain ⟨hcmd, hdone, herr⟩ := hbusy c hc
    simp [hcmd, hdone, herr]
  · cases v.getLsbD 2
    · simpa using hiff
    · simp
  · cases v.getLsbD 2
    · simpa using hle
    · simp

/-- An aligned DMEM word lies inside DMEM (20_memory.md R48, R51). -/
theorem locate_dmem_bound {off a : Nat} (h4 : off % 4 = 0) (h : locate (BitVec.ofNat 16 off) = .dmem a) :
    a + 4 ≤ Config.dmemSize := by
  have ht : (BitVec.ofNat 16 off).toNat % 4 = 0 := by
    rw [BitVec.toNat_ofNat]
    omega
  have hd : Config.dmemSize = 4096 := rfl
  unfold locate at h
  simp only at h
  repeat' split at h
  all_goals simp only [Loc.dmem.injEq, reduceCtorEq] at h
  omega

/-- An idle write to a gated location touches no part of the invariant but DMEM. -/
theorem inv_writeLoc {l : Loc} (v : Word32) {s : State} (hg : l.gated = true) (hidle : s.engine = .idle)
    (hd : ∀ a, l = .dmem a → a + 4 ≤ Config.dmemSize) (hs : s.Inv) : (writeLoc l v s).Inv := by
  obtain ⟨hflags, htab, hres, hmem⟩ := hs
  obtain ⟨_, hcode⟩ := (flagsInv_iff s).1 hflags
  cases l with
  | reg r =>
    cases r with
    | cmd =>
      refine ⟨(flagsInv_iff _).2 ⟨fun c hc => ?_, hcode⟩, htab, hres, hmem⟩
      exact absurd (hidle.symm.trans hc) (by simp)
    | src | slen | dst | dlen | idaddr | idlen => exact ⟨hflags, htab, hres, hmem⟩
    | id | ctrl | status | res | outlen => cases hg
  | wWord | pWord => exact ⟨hflags, htab, hres, hmem⟩
  | dmem a => exact ⟨hflags, htab, hres, keepsMemory_storeAll rfl (hd a rfl) hmem⟩
  | reserved => cases hg

theorem inv_writeCase {off : Nat} {v : Word32} {s t : State} (hs : s.Inv) (h4 : off % 4 = 0)
    (h : WriteCase off v s t) : t.Inv := by
  have ha : s.advance.Inv := hs
  rcases h with ⟨_, _, rfl⟩ | ⟨_, rfl⟩ | ⟨_, rfl⟩ | ⟨hidle, hg, rfl⟩
  · exact hs
  · exact inv_writeCtrl v ha
  · exact inv_writeStatus v ha
  · exact inv_writeLoc v hg hidle (fun a => locate_dmem_bound h4) ha

end Machine
end Sys2Proof

section
open Sys2Proof Sys2Proof.Machine

/-- Settles O7: each event of `step_cases` keeps the four parts of the invariant. -/
theorem stepKeepsInvariant : Obligations.StepKeepsInvariant := by
  intro s t hs h
  have ha : s.advance.Inv := hs
  rcases step_cases h with ⟨_, ⟨_, rfl⟩ | ⟨c, _, ⟨_, rfl⟩ | ⟨i, _, hi⟩⟩⟩ | ⟨_, rfl⟩ | ⟨r, rfl⟩ | ⟨off, v, _, h4, hw⟩
  · exact ha
  · exact inv_raiseError .illegal ha
  · exact inv_exec ha hi
  · exact inv_powerOnReset s.advance
  · exact hs
  · exact inv_writeCase hs h4 hw

/-- Settles O8: State.reset is what the reset of registers leaves of itself. -/
theorem resetHasInvariant : Obligations.ResetHasInvariant := inv_clearRegisters (s := State.reset) (by decide)

end
end

section
/-! SUPPORT. The resets and the host's reads and writes of CTRL and STATUS (O9, O11, O12). -/

namespace Sys2Proof
namespace Machine

/-! ### The step of a host access, by what the offset names -/

theorem isBusy_of_idle {s : State} (h : s.engine = .idle) : s.isBusy = false := by simp [State.isBusy, h]

theorem isBusy_of_busy {s : State} {c : Word32} (h : s.engine = .busy c) : s.isBusy = true := by
  simp [State.isBusy, h]

/-- A write that the gate of R40 lets through. -/
theorem step_write_open {s : State} {off : Nat} {v : Word32} (h : s.writeNext off v) (h4 : off % 4 = 0)
    (hg : (s.isBusy && (locate (BitVec.ofNat 16 off)).gated) = false) :
    step s = .next ((writeLoc (locate (BitVec.ofNat 16 off)) v s.advance).respond (.okay none)) := by
  rw [step_write h h4, if_neg (by simp [hg])]

theorem step_write_idle {s : State} {off : Nat} {v : Word32} (h : s.writeNext off v) (h4 : off % 4 = 0)
    (hidle : s.engine = .idle) :
    step s = .next ((writeLoc (locate (BitVec.ofNat 16 off)) v s.advance).respond (.okay none)) :=
  step_write_open h h4 (by simp [isBusy_of_idle hidle])

/-- A write that the busy engine ignores sets WIGN and nothing else (R40). -/
theorem step_write_busy {s : State} {off : Nat} {v : Word32} {c : Word32} (h : s.writeNext off v) (h4 : off % 4 = 0)
    (hbusy : s.engine = .busy c) (hg : (locate (BitVec.ofNat 16 off)).gated = true) :
    step s = .next ({ s with wign := true }.answered (.okay none)) := by
  rw [step_write h h4, if_pos (by simp [isBusy_of_busy hbusy, hg])]
  rfl

/-- A write to CTRL acts in every state (R33). -/
theorem step_write_ctrl {s : State} {v : Word32} (h : s.writeNext 0x004 v) :
    step s = .next ((writeCtrl v s.advance).respond (.okay none)) :=
  step_write_open h (by decide) (Bool.and_false _)

/-- A write to STATUS acts in every state (R35). -/
theorem step_write_status {s : State} {v : Word32} (h : s.writeNext 0x00C v) :
    step s = .next ((writeStatus v s.advance).respond (.okay none)) :=
  step_write_open h (by decide) (Bool.and_false _)

/-- A read that the gate of R40 hides. -/
theorem step_read_busy {s : State} {off : Nat} {c : Word32} (h : s.readNext off) (h4 : off % 4 = 0)
    (hbusy : s.engine = .busy c) (hh : (locate (BitVec.ofNat 16 off)).hidden = true) :
    step s = .next (s.answered (.okay (some 0))) := by
  rw [step_read h h4, if_pos (by simp [isBusy_of_busy hbusy, hh])]

/-! ### Resets -/

theorem atReset_reset : AtReset State.reset := atReset_clearRegisters State.reset

theorem irq_of_atReset {t : State} (h : AtReset t) : irq t = false := by
  obtain ⟨_, hirqen, _⟩ := h
  simp [irq, hirqen]

/-- The step of a CTRL write with SRST = 1 (70_reset_and_hazards.md R165). -/
theorem step_write_srst {s : State} {v : Word32} (h : s.writeNext 0x004 v) (hv : v.getLsbD 1 = true) :
    step s = .next ((softReset s.advance).respond (.okay none)) := by
  rw [step_write_ctrl h, writeCtrl, if_pos hv]

/-- A CTRL write with SRST = 0 and START = 0 writes IRQEN (R33). -/
theorem writeCtrl_irqen {v : Word32} (h1 : v.getLsbD 1 = false) (h0 : v.getLsbD 0 = false) (s : State) :
    writeCtrl v s = { s with irqen := v.getLsbD 2 } := by
  rw [writeCtrl, if_neg (ne_true_of_eq_false h1), if_neg (ne_true_of_eq_false h0)]

/-- With SRST = 0 and START = 1 it writes IRQEN, and the idle engine accepts the START (40_control.md R81). -/
theorem writeCtrl_start_idle {v : Word32} (h1 : v.getLsbD 1 = false) (h0 : v.getLsbD 0 = true) {s : State}
    (hidle : s.engine = .idle) : writeCtrl v s = acceptStart { s with irqen := v.getLsbD 2 } := by
  have hb : ({ s with irqen := v.getLsbD 2 } : State).isBusy = false := isBusy_of_idle hidle
  rw [writeCtrl, if_neg (ne_true_of_eq_false h1), if_pos h0, start, if_neg (ne_true_of_eq_false hb)]

/-- The busy engine ignores the START of such a write (R81). -/
theorem writeCtrl_start_busy {v : Word32} (h1 : v.getLsbD 1 = false) (h0 : v.getLsbD 0 = true) {s : State} {c : Word32}
    (hbusy : s.engine = .busy c) : writeCtrl v s = ignoreWrite { s with irqen := v.getLsbD 2 } := by
  have hb : ({ s with irqen := v.getLsbD 2 } : State).isBusy = true := isBusy_of_busy hbusy
  rw [writeCtrl, if_neg (ne_true_of_eq_false h1), if_pos h0, start, if_pos hb]

/-- Above WIGN, STATUS holds ERRCODE from bit 8 up and nothing else (R35). -/
theorem getLsbD_statusWord_high (s : State) {i : Nat} (h5 : 5 ≤ i) (h : i < 32) :
    (statusWord s).getLsbD i = (decide (8 ≤ i) && s.errcode.getLsbD (i - 8)) := by
  have hne : ∀ k < 5, i ≠ k := fun k hk => by omega
  rw [getLsbD_statusWord s i h]
  simp [hne 0, hne 1, hne 2, hne 3, hne 4]

theorem atReset_respond {t : State} (r : Resp) (h : AtReset t) : AtReset (t.respond r) := h

end Machine
end Sys2Proof

section
open Sys2Proof Sys2Proof.Machine

/-- Settles O9: both resets end in `clearRegisters`, whose registers are those of R46. -/
theorem resetValues : Obligations.ResetValues := by
  refine ⟨atReset_reset, fun _ => rfl, fun s h => ?_, fun s v h hv => ?_, fun s h => ?_⟩
  · have hreset : AtReset (powerOnReset s.advance) := atReset_clearRegisters s.advance
    exact ⟨_, step_of_head h, hreset, irq_of_atReset hreset, fun _ => rfl⟩
  · have hreset := atReset_respond (.okay none) (atReset_softReset s.advance)
    exact ⟨_, step_write_srst h hv, hreset, irq_of_atReset hreset⟩
  · exact step_read_reg (r := .id) h (by decide) (by rfl) (Bool.and_false _)

/-- Settles O11: the cases of a CTRL write are its bits 1 and 0 and, for a START, the sequencer. -/
theorem ctrlRegister : Obligations.CtrlRegister := by
  intro s
  refine ⟨fun h => ?_, fun v h => ⟨fun h1 => ?_, fun h1 h0 => ?_, fun h1 h0 hidle => ?_, fun c h1 h0 hbusy => ?_⟩⟩
  · have hval : hostRegWord .ctrl s = if s.irqen then 4 else 0 := rfl
    rw [step_read_reg (r := .ctrl) h (by decide) (by rfl) (Bool.and_false _), hval]
  · exact ⟨_, step_write_srst h h1, atReset_respond _ (atReset_softReset s.advance)⟩
  · rw [step_write_ctrl h, writeCtrl_irqen h1 h0]
    rfl
  · rw [step_write_ctrl h, writeCtrl_start_idle h1 h0 (s := s.advance) hidle]
    rfl
  · rw [step_write_ctrl h, writeCtrl_start_busy h1 h0 (s := s.advance) hbusy]
    rfl

/-- Settles O12: the read from STATUS bit by bit, the write from its field form. -/
theorem statusRegister : Obligations.StatusRegister := by
  intro s
  refine ⟨fun h => ⟨statusWord s, ?_, ?_, ?_, ?_, ?_, ?_, ?_, ?_, ?_⟩, fun v h => ?_⟩
  · exact step_read_reg (r := .status) h (by decide) (by rfl) (Bool.and_false _)
  · rw [getLsbD_statusWord s 0 (by decide)]
    cases hs : s.engine <;> simp [State.isBusy, hs]
  · simp [-BitVec.getLsbD_eq_getElem, getLsbD_statusWord s 1 (by decide)]
  · simp [-BitVec.getLsbD_eq_getElem, getLsbD_statusWord s 2 (by decide)]
  · simp [-BitVec.getLsbD_eq_getElem, getLsbD_statusWord s 3 (by decide)]
  · simp [-BitVec.getLsbD_eq_getElem, getLsbD_statusWord s 4 (by decide)]
  · refine BitVec.eq_of_getLsbD_eq fun i hi => ?_
    rw [BitVec.getLsbD_extractLsb', getLsbD_statusWord_high s (by omega) (by omega)]
    simp [show ¬ 8 ≤ 5 + i by omega]
  · refine BitVec.eq_of_getLsbD_eq fun i hi => ?_
    rw [BitVec.getLsbD_extractLsb', getLsbD_statusWord_high s (by omega) (by omega)]
    simp [hi]
  · refine BitVec.eq_of_getLsbD_eq fun i hi => ?_
    rw [BitVec.getLsbD_extractLsb', getLsbD_statusWord_high s (by omega) (by omega)]
    simp [BitVec.getLsbD_of_ge s.errcode (16 + i - 8) (by omega)]
  · rw [step_write_status h, writeStatus_eq]
    rfl

end
end

section
/-! SUPPORT. The other host registers, the busy gate of 10_state.md R40 and the windows of W and P (O13, O14, O15, O18,
O19). -/

namespace Sys2Proof
namespace Machine

/-! ### The gate of R40 and the busy read -/

/-- CMD and the address and length registers are gated (R40). -/
theorem locate_operandReg_gated {off : Nat} (h4 : off % 4 = 0) (h : off = 0x008 ∨ 0x014 ≤ off ∧ off ≤ 0x028) :
    (locate (BitVec.ofNat 16 off)).gated = true := by
  have hoff : off ∈ [0x008, 0x014, 0x018, 0x01C, 0x020, 0x024, 0x028] := by
    simp only [List.mem_cons, List.not_mem_nil, or_false]
    omega
  clear h4 h
  revert off
  decide

/-- An idle read of a register gives its value (R31). -/
theorem step_read_reg_idle {s : State} {off : Nat} {r : HostReg} (h : s.readNext off) (h4 : off % 4 = 0)
    (hl : locate (BitVec.ofNat 16 off) = .reg r) (hidle : s.engine = .idle) :
    step s = .next (s.answered (.okay (some (hostRegWord r s)))) :=
  step_read_reg h h4 hl (by simp [isBusy_of_idle hidle])

/-- A read of a register that is never hidden gives its value in every state (R40). -/
theorem step_read_reg_open {s : State} {off : Nat} {r : HostReg} (h : s.readNext off) (h4 : off % 4 = 0)
    (hl : locate (BitVec.ofNat 16 off) = .reg r) (hh : (Loc.reg r).hidden = false) :
    step s = .next (s.answered (.okay (some (hostRegWord r s)))) :=
  step_read_reg h h4 hl (by rw [hh, Bool.and_false])

/-- The bus response to a read of the busy block (20_memory.md R50, R40). -/
def busyAnswer (off : BitVec 16) (size : Nat) (s : State) : Resp :=
  if accessOk off size then .okay (some (if (locate off).hidden then 0 else locWord (locate off) s))
  else .error (some 0)

/-- A busy block answers every read: DMEM is hidden, so no read can meet an unwritten byte. -/
theorem hostRead_busy {s : State} {c : Word32} (hbusy : s.engine = .busy c) (off : BitVec 16) (size : Nat) :
    hostRead off size s = .next (s.respond (busyAnswer off size s)) := by
  unfold hostRead busyAnswer
  split
  · rw [isBusy_of_busy hbusy, Bool.true_and]
    cases hl : locate off with
    | reg r => cases hh : (Loc.reg r).hidden <;> rfl
    | wWord | pWord | dmem | reserved => rfl
  · rfl

/-- What a busy read shows is the registers that R40 does not hide. -/
theorem locWord_congr {s1 s2 : State} {l : Loc} (hl : l.hidden = false) (hctrl : ctrlWord s1 = ctrlWord s2)
    (hcmd : s1.cmd = s2.cmd) (hstatus : statusWord s1 = statusWord s2) (hsrc : s1.src = s2.src)
    (hslen : s1.slen = s2.slen) (hdst : s1.dst = s2.dst) (hdlen : s1.dlen = s2.dlen) (hidaddr : s1.idaddr = s2.idaddr)
    (hidlen : s1.idlen = s2.idlen) : locWord l s1 = locWord l s2 := by
  cases l with
  | reg r =>
    cases r with
    | id => rfl
    | ctrl => exact hctrl
    | cmd => exact hcmd
    | status => exact hstatus
    | src => exact hsrc
    | slen => exact hslen
    | dst => exact hdst
    | dlen => exact hdlen
    | idaddr => exact hidaddr
    | idlen => exact hidlen
    | res | outlen => cases hl
  | wWord | pWord | dmem => cases hl
  | reserved => rfl

/-! ### Coordinates -/

theorem Triple.coord_setCoord_same (t : Triple) (c : Coord) (v : U256) : (t.setCoord c v).coord c = v := by
  cases c <;> rfl

theorem Triple.coord_setCoord_ne (t : Triple) {c e : Coord} (v : U256) (h : e ≠ c) :
    (t.setCoord c v).coord e = t.coord e := by
  cases c with
  | x =>
    cases e with
    | x => exact absurd rfl h
    | y | z => rfl
  | y =>
    cases e with
    | y => exact absurd rfl h
    | x | z => rfl
  | z =>
    cases e with
    | z => exact absurd rfl h
    | x | y => rfl

end Machine
end Sys2Proof

section
open Sys2Proof Sys2Proof.Machine

/-- Settles O13: an idle write of a register and its read are those of `writeLoc` and `hostRegWord`; ID, RES, OUTLEN and
the reserved offsets are not gated, and their write leaves the state. -/
theorem hostRegisters : Obligations.HostRegisters := by
  intro s
  refine ⟨fun v hidle => ?_, fun off v hv hidle h => ?_, fun off hoff v h => ?_,
    fun off h4 hoff => ⟨fun h => ?_, fun v h => ?_⟩⟩
  · exact ⟨fun h => step_write_idle h (by decide) hidle, fun h => step_write_idle h (by decide) hidle,
      fun h => step_write_idle h (by decide) hidle, fun h => step_write_idle h (by decide) hidle,
      fun h => step_write_idle h (by decide) hidle, fun h => step_write_idle h (by decide) hidle,
      fun h => step_write_idle h (by decide) hidle⟩
  · simp only [List.mem_cons, Prod.mk.injEq, List.not_mem_nil, or_false] at hv
    rcases hv with ⟨rfl, rfl⟩ | ⟨rfl, rfl⟩ | ⟨rfl, rfl⟩ | ⟨rfl, rfl⟩ | ⟨rfl, rfl⟩ | ⟨rfl, rfl⟩ | ⟨rfl, rfl⟩ | ⟨rfl, rfl⟩
      | ⟨rfl, rfl⟩ | ⟨rfl, rfl⟩
    all_goals exact step_read_reg_idle h (by decide) rfl hidle
  · simp only [List.mem_cons, List.not_mem_nil, or_false] at hoff
    rcases hoff with rfl | rfl | rfl
    all_goals exact step_write_open h (by decide) (Bool.and_false _)
  · rw [step_read h h4, locate_reserved hoff, if_neg (by simp [Loc.hidden])]
    rfl
  · have hopen : (s.isBusy && (locate (BitVec.ofNat 16 off)).gated) = false := by
      rw [locate_reserved hoff]
      exact Bool.and_false _
    rw [step_write_open h h4 hopen, locate_reserved hoff]
    rfl

/-- Settles O14: gated writes, hidden reads, and the reads that R40 leaves open. -/
theorem busyGate : Obligations.BusyGate := by
  intro s c hbusy
  refine ⟨fun off v h4 hoff h => ?_, fun off h4 hoff h => ?_, fun off v hv h => ?_⟩
  · refine step_write_busy h h4 hbusy ?_
    rcases hoff with hreg | hreg | hwin
    · exact locate_operandReg_gated h4 (.inl hreg)
    · exact locate_operandReg_gated h4 (.inr hreg)
    · exact (locate_window hwin).1
  · refine step_read_busy h h4 hbusy ?_
    rcases hoff with rfl | rfl | hwin
    · rfl
    · rfl
    · exact (locate_window hwin).2
  · simp only [List.mem_cons, Prod.mk.injEq, List.not_mem_nil, or_false] at hv
    rcases hv with ⟨rfl, rfl⟩ | ⟨rfl, rfl⟩ | ⟨rfl, rfl⟩ | ⟨rfl, rfl⟩ | ⟨rfl, rfl⟩ | ⟨rfl, rfl⟩ | ⟨rfl, rfl⟩ | ⟨rfl, rfl⟩
      | ⟨rfl, rfl⟩ | ⟨rfl, rfl⟩
    all_goals exact step_read_reg_open h (by decide) rfl rfl

/-- Settles O15: the answer of a busy read is computed from the registers in which the two states agree. -/
theorem busyReadsHideSecrets : Obligations.BusyReadsHideSecrets := by
  intro s1 s2 c1 c2 off size hb1 hb2 hr1 hr2 hirqen hcmd hdone herr hcode htabv hwign hsrc hslen hdst hdlen hidaddr
    hidlen
  have hstatus : statusWord s1.advance = statusWord s2.advance := by
    simp [statusWord, State.isBusy, hb1, hb2, hdone, herr, hcode, htabv, hwign]
  have hctrl : ctrlWord s1.advance = ctrlWord s2.advance := by simp [ctrlWord, hirqen]
  have hanswer : busyAnswer off size s1.advance = busyAnswer off size s2.advance := by
    unfold busyAnswer
    cases hh : (locate off).hidden
    · rw [locWord_congr hh hctrl hcmd hstatus hsrc hslen hdst hdlen hidaddr hidlen]
    · rfl
  refine ⟨_, _, (step_of_head hr1).trans (hostRead_busy (s := s1.advance) hb1 off size),
    (step_of_head hr2).trans (hostRead_busy (s := s2.advance) hb2 off size), ?_⟩
  exact congrArg some hanswer

/-- Settles O18: the location is word j of W[i], and words of a wide value are replaced one at a time. -/
theorem wWindow : Obligations.WWindow := by
  intro s i j hidle
  have h4 : (0x100 + 32 * i.val + 4 * j.val) % 4 = 0 := by omega
  refine ⟨fun h => ?_, fun v h => ?_⟩
  · rw [step_read h h4, locate_wWord, isBusy_of_idle hidle]
    rfl
  · have hstep : step s = .next ((s.advance.setW i (setWordOf (s.getW i) j v)).respond (.okay none)) := by
      rw [step_write_idle h h4 hidle, locate_wWord]
      rfl
    have hword : ∀ k : Fin 8, wordOf ((s.advance.setW i (setWordOf (s.getW i) j v)).getW i) k
        = if k = j then v else wordOf (s.getW i) k := fun k => by rw [getW_setW_same, wordOf_setWordOf]
    exact ⟨_, hstep, rfl, (hword j).trans (if_pos rfl), fun k hk => (hword k).trans (if_neg hk),
      fun k hk => getW_setW_ne s.advance _ hk⟩

/-- Settles O19: the location is word j of one coordinate of P[i], replaced as in the W window. -/
theorem pWindow : Obligations.PWindow := by
  intro s i j hidle c place hc
  have h4 : (0x300 + 96 * i.val + place + 4 * j.val) % 4 = 0 := by
    simp only [List.mem_cons, Prod.mk.injEq, List.not_mem_nil, or_false] at hc
    omega
  refine ⟨fun h => ?_, fun v h => ?_⟩
  · rw [step_read h h4, locate_pWord i c place j hc, isBusy_of_idle hidle]
    rfl
  · have hstep : step s = .next ((s.advance.setP i ((s.getP i).setCoord c (setWordOf ((s.getP i).coord c) j v))).respond
        (.okay none)) := by
      rw [step_write_idle h h4 hidle, locate_pWord i c place j hc]
      rfl
    have hget := getP_setP_same s.advance i ((s.getP i).setCoord c (setWordOf ((s.getP i).coord c) j v))
    have hword : ∀ k : Fin 8, wordOf (((s.advance.setP i _).getP i).coord c) k
        = if k = j then v else wordOf ((s.getP i).coord c) k := fun k => by
      rw [hget, Triple.coord_setCoord_same, wordOf_setWordOf]
    exact ⟨_, hstep, rfl, (hword j).trans (if_pos rfl), fun k hk => (hword k).trans (if_neg hk),
      fun e he => (congrArg (Triple.coord · e) hget).trans (Triple.coord_setCoord_ne _ _ he),
      fun k hk => getP_setP_ne s.advance _ hk⟩

end
end

section
/-! SUPPORT. The lifetimes of the flags over every step (O24), the result registers (O29) and the RNG words (O30) of
every command. -/

namespace Sys2Proof
namespace Machine

/-! ### What a step does to the flags (10_state.md R41) -/

/-- The next event is a power-on reset or a CTRL write with SRST = 1. -/
def ResetNext (s : State) : Prop :=
  s.inputs.head? = some .powerOn ∨ ∃ v, s.writeNext 0x004 v ∧ v.getLsbD 1 = true

/-- The next event is a START that the idle engine accepts. -/
def StartNext (s : State) : Prop :=
  s.engine = .idle ∧ ∃ v, s.writeNext 0x004 v ∧ v.getLsbD 1 = false ∧ v.getLsbD 0 = true

/-- The next event is the turn of a busy engine. -/
def BusyTurnNext (s : State) : Prop := s.engineNext ∧ ∃ c, s.engine = .busy c

/-- The next event is the turn of an engine that is busy with PRECOMP. -/
def PrecompNext (s : State) : Prop := s.engineNext ∧ ∃ c k, s.engine = .busy c ∧ decode c = .ok (.precomp k)

/-- All that a step can do to BUSY, DONE, ERR, ERRCODE, TABV, TAB_KEY and WIGN, with its cause. -/
inductive FlagCase (s t : State) : Prop where
  /-- Every flag is kept. -/
  | kept (hengine : t.engine = s.engine) (hdone : t.done = s.done) (herr : t.err = s.err)
      (hcode : t.errcode = s.errcode) (htab : t.tabKey = s.tabKey ∧ t.tabv = s.tabv) (hwign : t.wign = s.wign)
  /-- The busy engine ignores a write (R40, 40_control.md R81). -/
  | ignored (hbusy : ∃ c, s.engine = .busy c) (hwrite : ∃ off v, s.writeNext off v) (hengine : t.engine = s.engine)
      (hdone : t.done = s.done) (herr : t.err = s.err) (hcode : t.errcode = s.errcode)
      (htab : t.tabKey = s.tabKey ∧ t.tabv = s.tabv) (hwign : t.wign = true)
  /-- The busy engine ends its command (40_control.md R85, 60_exceptions.md R152). -/
  | ended (hturn : BusyTurnNext s) (hengine : t.engine = .idle) (hdone : t.done = true)
      (herr : s.err = true → t.err = true)
      (htab : (t.tabKey = s.tabKey ∧ t.tabv = s.tabv) ∨ PrecompNext s ∧ t.tabv = true) (hwign : t.wign = s.wign)
  /-- The idle engine accepts a START (40_control.md R81). -/
  | started (hstart : StartNext s) (hengine : t.engine = .busy s.cmd) (hdone : t.done = false) (herr : t.err = false)
      (htab : t.tabKey = s.tabKey ∧ t.tabv = s.tabv) (hwign : t.wign = s.wign)
  /-- The block is reset (R46). -/
  | cleared (hreset : ResetNext s) (hengine : t.engine = .idle) (hdone : t.done = false) (herr : t.err = false)
      (htabv : t.tabv = false) (hwign : t.wign = false)
  /-- The host writes `v` to STATUS (R35). -/
  | acknowledged (v : Word32) (hwrite : s.writeNext 0x00C v) (hengine : t.engine = s.engine)
      (hdone : t.done = (s.done && !v.getLsbD 1)) (herr : t.err = (s.err && !v.getLsbD 2))
      (hcode : t.errcode = if v.getLsbD 2 then 0 else s.errcode)
      (htab : t.tabKey = s.tabKey ∧ t.tabv = s.tabv) (hwign : t.wign = (s.wign && !v.getLsbD 4))

section
variable {s t : State}

theorem flagCase_of_atReset (hreset : ResetNext s) (h : AtReset t) : FlagCase s t := by
  obtain ⟨hengine, _, _, hdone, herr, htabv, hwign, _⟩ := h
  exact .cleared hreset hengine hdone herr htabv hwign

theorem flagCase_exec {c : Word32} {i : Instr} (hturn : s.engineNext) (hbusy : s.engine = .busy c)
    (hd : decode c = .ok i) (h : exec i s.advance = .next t) : FlagCase s t := by
  have htab : (t.tabKey = s.tabKey ∧ t.tabv = s.tabv) ∨ PrecompNext s ∧ t.tabv = true := by
    rcases exec_tab h with hsame | ⟨⟨k, rfl⟩, hv, _⟩
    · exact .inl hsame
    · exact .inr ⟨⟨hturn, c, k, hbusy, hd⟩, hv⟩
  rcases exec_ends h with ⟨hidle, hdone, _, herr, _⟩ | ⟨e, hidle, hdone, _, herr, _⟩
  · exact .ended ⟨hturn, c, hbusy⟩ hidle hdone herr.trans htab (exec_wign (s := s.advance) h)
  · exact .ended ⟨hturn, c, hbusy⟩ hidle hdone (fun _ => herr) htab (exec_wign (s := s.advance) h)

theorem flagCase_writeCtrl {v : Word32} (h : s.writeNext 0x004 v) :
    FlagCase s ((writeCtrl v s.advance).respond (.okay none)) := by
  cases h1 : v.getLsbD 1
  · cases h0 : v.getLsbD 0
    · rw [writeCtrl_irqen h1 h0]
      exact .kept rfl rfl rfl rfl ⟨rfl, rfl⟩ rfl
    · cases he : s.engine with
      | idle =>
        rw [writeCtrl_start_idle h1 h0 (s := s.advance) he]
        exact .started ⟨he, v, h, h1, h0⟩ rfl rfl rfl ⟨rfl, rfl⟩ rfl
      | busy c =>
        rw [writeCtrl_start_busy h1 h0 (s := s.advance) he]
        exact .ignored ⟨c, he⟩ ⟨_, v, h⟩ rfl rfl rfl rfl ⟨rfl, rfl⟩ rfl
  · rw [writeCtrl, if_pos h1]
    exact flagCase_of_atReset (.inr ⟨v, h, h1⟩) (atReset_respond _ (atReset_softReset s.advance))

/-- A write to a gated location touches no flag. -/
theorem flagCase_writeLoc {l : Loc} (v : Word32) (hg : l.gated = true) :
    FlagCase s ((writeLoc l v s.advance).respond (.okay none)) := by
  cases l with
  | reg r =>
    cases r with
    | cmd | src | slen | dst | dlen | idaddr | idlen => exact .kept rfl rfl rfl rfl ⟨rfl, rfl⟩ rfl
    | id | ctrl | status | res | outlen => cases hg
  | wWord | pWord | dmem => exact .kept rfl rfl rfl rfl ⟨rfl, rfl⟩ rfl
  | reserved => cases hg

theorem step_flagCase (h : step s = .next t) : FlagCase s t := by
  rcases step_cases h with ⟨hturn, ⟨_, rfl⟩ | ⟨c, hbusy, ⟨_, rfl⟩ | ⟨i, hd, hi⟩⟩⟩ | ⟨hon, rfl⟩ | ⟨r, rfl⟩
    | ⟨off, v, hwrite, _, hw⟩
  · exact .kept rfl rfl rfl rfl ⟨rfl, rfl⟩ rfl
  · exact .ended ⟨hturn, c, hbusy⟩ rfl rfl (fun _ => rfl) (.inl ⟨rfl, rfl⟩) rfl
  · exact flagCase_exec hturn hbusy hd hi
  · exact flagCase_of_atReset (.inl hon) (atReset_clearRegisters s.advance)
  · exact .kept rfl rfl rfl rfl ⟨rfl, rfl⟩ rfl
  · rcases hw with ⟨hbusy, _, rfl⟩ | ⟨rfl, rfl⟩ | ⟨rfl, rfl⟩ | ⟨_, hg, rfl⟩
    · exact .ignored hbusy ⟨off, v, hwrite⟩ rfl rfl rfl rfl ⟨rfl, rfl⟩ rfl
    · exact flagCase_writeCtrl hwrite
    · rw [writeStatus_eq]
      exact .acknowledged v hwrite rfl rfl rfl rfl ⟨rfl, rfl⟩ rfl
    · exact flagCase_writeLoc v hg

/-! ### Each flag's causes: the other cases of `FlagCase` keep the flag or give it its other value -/

theorem FlagCase.engine_started (h : FlagCase s t) (h0 : s.engine = .idle) (h1 : t.engine ≠ .idle) :
    StartNext s ∧ t.engine = .busy s.cmd := by
  cases h with
  | started hstart hengine => exact ⟨hstart, hengine⟩
  | _ => simp_all

theorem FlagCase.engine_stopped (h : FlagCase s t) (c : Word32) (h0 : s.engine = .busy c) (h1 : t.engine ≠ .busy c) :
    t.engine = .idle ∧ (BusyTurnNext s ∨ ResetNext s) := by
  cases h with
  | ended hturn hengine => exact ⟨hengine, .inl hturn⟩
  | cleared hreset hengine => exact ⟨hengine, .inr hreset⟩
  | started hstart =>
    obtain ⟨hidle, _⟩ := hstart
    exact absurd (hidle.symm.trans h0) (by simp)
  | _ => simp_all

theorem FlagCase.done_set (h : FlagCase s t) (h0 : s.done = false) (h1 : t.done = true) : BusyTurnNext s := by
  cases h with
  | ended hturn => exact hturn
  | _ => simp_all

theorem FlagCase.done_cleared (h : FlagCase s t) (h0 : s.done = true) (h1 : t.done = false) :
    StartNext s ∨ ResetNext s ∨ ∃ v, s.writeNext 0x00C v ∧ v.getLsbD 1 = true := by
  cases h with
  | started hstart => exact .inl hstart
  | cleared hreset => exact .inr (.inl hreset)
  | acknowledged v hwrite _ hdone => exact .inr (.inr ⟨v, hwrite, by simpa [h0, h1] using hdone⟩)
  | _ => simp_all

theorem FlagCase.err_set (h : FlagCase s t) (h0 : s.err = false) (h1 : t.err = true) : BusyTurnNext s := by
  cases h with
  | ended hturn => exact hturn
  | _ => simp_all

theorem FlagCase.err_cleared (h : FlagCase s t) (h0 : s.err = true) (h1 : t.err = false) :
    StartNext s ∨ ResetNext s ∨ ∃ v, s.writeNext 0x00C v ∧ v.getLsbD 2 = true := by
  cases h with
  | started hstart => exact .inl hstart
  | cleared hreset => exact .inr (.inl hreset)
  | acknowledged v hwrite _ _ herr => exact .inr (.inr ⟨v, hwrite, by simpa [h0, h1] using herr⟩)
  | _ => simp_all

theorem FlagCase.errcode_changed (h : FlagCase s t) (h1 : t.errcode ≠ s.errcode) :
    BusyTurnNext s ∨ StartNext s ∨ ResetNext s ∨ ∃ v, s.writeNext 0x00C v ∧ v.getLsbD 2 = true := by
  cases h with
  | ended hturn => exact .inl hturn
  | started hstart => exact .inr (.inl hstart)
  | cleared hreset => exact .inr (.inr (.inl hreset))
  | acknowledged v hwrite _ _ _ hcode =>
    refine .inr (.inr (.inr ⟨v, hwrite, ?_⟩))
    by_contra hv
    exact h1 (hcode.trans (if_neg hv))
  | kept _ _ _ hcode => exact absurd hcode h1
  | ignored _ _ _ _ _ hcode => exact absurd hcode h1

theorem FlagCase.tabv_set (h : FlagCase s t) (h0 : s.tabv = false) (h1 : t.tabv = true) : PrecompNext s := by
  cases h with
  | ended _ _ _ _ htab =>
    rcases htab with ⟨_, hv⟩ | ⟨hpre, _⟩
    · simp_all
    · exact hpre
  | _ => simp_all

theorem FlagCase.tabv_cleared (h : FlagCase s t) (h0 : s.tabv = true) (h1 : t.tabv = false) : ResetNext s := by
  cases h with
  | cleared hreset => exact hreset
  | _ => simp_all

theorem FlagCase.tabKey_changed (h : FlagCase s t) (h1 : t.tabKey ≠ s.tabKey) : ResetNext s ∨ PrecompNext s := by
  cases h with
  | cleared hreset => exact .inl hreset
  | ended _ _ _ _ htab =>
    rcases htab with ⟨hk, _⟩ | ⟨hpre, _⟩
    · exact absurd hk h1
    · exact .inr hpre
  | _ => simp_all

theorem FlagCase.wign_set (h : FlagCase s t) (h0 : s.wign = false) (h1 : t.wign = true) :
    (∃ c, s.engine = .busy c) ∧ ∃ off v, s.writeNext off v := by
  cases h with
  | ignored hbusy hwrite => exact ⟨hbusy, hwrite⟩
  | _ => simp_all

theorem FlagCase.wign_cleared (h : FlagCase s t) (h0 : s.wign = true) (h1 : t.wign = false) :
    ResetNext s ∨ ∃ v, s.writeNext 0x00C v ∧ v.getLsbD 4 = true := by
  cases h with
  | cleared hreset => exact .inl hreset
  | acknowledged v hwrite _ _ _ _ _ hwign => exact .inr ⟨v, hwrite, by simpa [h0, h1] using hwign⟩
  | _ => simp_all

end

end Machine
end Sys2Proof

section
open Sys2Proof Sys2Proof.Machine

/-- Settles O24: `FlagCase` lists what a step can do, and each clause names the case that is its cause. -/
theorem flagLifetimes : Obligations.FlagLifetimes := by
  intro s t h
  have hcase := step_flagCase h
  exact ⟨hcase.engine_started, hcase.engine_stopped, hcase.done_set, hcase.done_cleared, hcase.err_set,
    hcase.err_cleared, hcase.errcode_changed, hcase.tabv_set, hcase.tabv_cleared, hcase.tabKey_changed, hcase.wign_set,
    hcase.wign_cleared⟩

/-- Settles O29: an error leaves RES and OUTLEN, and a command that ends well writes what `resultOf` lists. -/
theorem resultRegisters : Obligations.ResultRegisters := by
  intro i s t h
  rcases exec_next_cases h with ⟨_, hw, hr, _⟩ | ⟨_, hw, _⟩ | ⟨⟨key, tm, rfl⟩, _, hw, _⟩
  · cases i with
    | pchk | peq | keychk | verify => exact ⟨.inr hr, hw.outlen_eq rfl⟩
    | pcomp => exact ⟨.inr hr, hw.outlen_eq rfl⟩
    | hash => exact ⟨hw.res_eq rfl, .inr hr⟩
    | kdf | enc | dec =>
      obtain ⟨hout, _⟩ := hr
      exact ⟨hw.res_eq rfl, .inr hout⟩
    | _ => exact ⟨hw.res_eq rfl, hw.outlen_eq rfl⟩
  · have hres := hw.res_eq rfl
    have hout := hw.outlen_eq rfl
    cases i with
    | pchk | peq | keychk | verify | pcomp => exact ⟨.inl hres, hout⟩
    | hash | kdf | enc | dec => exact ⟨hres, .inl hout⟩
    | _ => exact ⟨hres, hout⟩
  · exact ⟨hw.res_eq rfl, .inl (hw.outlen_eq rfl)⟩

/-- Settles O30: a command has used at most RETRY_MAX words, and none unless `drawsRandom` says it draws. -/
theorem randomWords : Obligations.RandomWords := by
  intro i s t h
  have hdraws : ∃ k ≤ 64, t.rng = s.rng.drop k ∧ (drawsRandom i = false → k = 0) := by
    rcases exec_next_cases h with ⟨_, _, _, _, hk⟩ | ⟨_, _, _, hk⟩ | ⟨_, _, hw, _⟩
    · exact hk
    · exact hk
    · exact ⟨0, by decide, hw.rng_eq rfl, fun _ => rfl⟩
  obtain ⟨k, hle, hrng, hzero⟩ := hdraws
  refine ⟨k, hle, hrng, ?_⟩
  cases i with
  | keygen | enc | sign => trivial
  | _ => exact hzero rfl

end
end

section
/-! SUPPORT. The host's bus accesses of 20_memory.md: sizes and alignment (O17), reads without side effect (O16), the
DMEM window (O20, O21) and the wide write of a W register (O22). -/

namespace Sys2Proof
namespace Machine

/-! ### The answer to an access (20_memory.md R50) -/

theorem accessOk_iff (off : BitVec 16) (size : Nat) : accessOk off size = true ↔ off.toNat % 4 = 0 ∧ size = 4 := by
  simp [accessOk]

theorem hostRead_error {off : BitVec 16} {size : Nat} (h : ¬ accessOk off size = true) (s : State) :
    hostRead off size s = .next (s.respond (.error (some 0))) := by
  rw [hostRead, if_neg h]

theorem hostWrite_error {off : BitVec 16} {size : Nat} (h : ¬ accessOk off size = true) (v : Word32) (s : State) :
    hostWrite off size v s = s.respond (.error none) := by
  rw [hostWrite, if_neg h]

theorem resp_hostWrite {off : BitVec 16} {size : Nat} (h : accessOk off size = true) (v : Word32) (s : State) :
    (hostWrite off size v s).resp = some (.okay none) := by
  rw [hostWrite, if_pos h]
  rfl

/-- All that an aligned read of 4 bytes can do: only an idle read of a DMEM word faults (R40, R56). -/
theorem hostRead_cases {off : BitVec 16} {size : Nat} (h : accessOk off size = true) (s : State) :
    (∃ v, hostRead off size s = .next (s.respond (.okay (some v))))
      ∨ hostRead off size s = .fault .dmemUnwritten ∧ s.engine = .idle
        ∧ ∃ a, locate off = .dmem a ∧ s.readable a 4 = false := by
  cases he : s.engine with
  | busy c =>
    rw [hostRead_busy he, busyAnswer, if_pos h]
    exact .inl ⟨_, rfl⟩
  | idle =>
    rw [hostRead, if_pos h, if_neg (by simp [isBusy_of_idle he])]
    cases hl : locate off with
    | dmem a =>
      rcases withRead_cases s a 4 fun _ => .next (s.respond (.okay (some (locWord (.dmem a) s)))) with
        ⟨_, hread⟩ | ⟨hunreadable, hfault⟩
      · exact .inl ⟨_, hread⟩
      · exact .inr ⟨hfault, rfl, a, rfl, hunreadable⟩
    | reg | wWord | pWord | reserved => exact .inl ⟨_, rfl⟩

/-! ### Readable regions (R56) -/

/-- The offsets of the DMEM window (R48). -/
theorem toNat_of_locate_dmem {off : BitVec 16} {a : Nat} (h : locate off = .dmem a) :
    0x1000 ≤ off.toNat ∧ off.toNat < 0x2000 ∧ a = off.toNat - 0x1000 := by
  have hsize : Config.dmemSize = 4096 := rfl
  unfold locate at h
  simp only at h
  repeat' split at h
  all_goals simp only [Loc.dmem.injEq, reduceCtorEq] at h
  omega

theorem Memory.written_iff (m : Memory) (a l : Nat) : m.written a l = true ↔ ∀ i < l, m.read? (a + i) ≠ none := by
  simp [Memory.written, Option.isSome_iff_ne_none]

theorem readable_of_written {s : State} {a l : Nat} (h : ∀ i < l, s.dmem.read? (a + i) ≠ none) :
    s.readable a l = true := by
  simp [State.readable, (Memory.written_iff s.dmem a l).2 h]

theorem readable_of_draw (hdraw : Config.dmemUninit = .draw) (s : State) (a l : Nat) : s.readable a l = true := by
  simp [State.readable, hdraw]

theorem readable_eq_false_iff (s : State) (a l : Nat) :
    s.readable a l = false ↔ Config.dmemUninit = .fault ∧ ∃ i < l, s.dmem.read? (a + i) = none := by
  have hunwritten : s.dmem.written a l = false ↔ ∃ i < l, s.dmem.read? (a + i) = none := by
    rw [← Bool.not_eq_true, Memory.written_iff]
    simp
  have hfault : ¬ Config.dmemUninit = .draw ↔ Config.dmemUninit = .fault := by
    cases Config.dmemUninit <;> simp
  rw [State.readable, Bool.or_eq_false_iff, decide_eq_false_iff_not, hunwritten, hfault, and_comm]

/-! ### The DMEM window (R51) -/

theorem dmemByte_of_read? {s : State} {a : Nat} {b : Byte} (h : s.dmem.read? a = some b) : s.dmemByte a = b := by
  simp [State.dmemByte, h]

/-- Byte i of the word at a DMEM location. -/
theorem extractLsb'_locWord_dmem (s : State) (a : Nat) {i : Nat} (h : i < 4) :
    (locWord (.dmem a) s).extractLsb' (8 * i) 8 = s.dmemByte (a + i) := by
  obtain ⟨h0, h1, h2, h3⟩ :=
    extractLsb'_laneWord (s.dmemByte a) (s.dmemByte (a + 1)) (s.dmemByte (a + 2)) (s.dmemByte (a + 3))
  match i, h with
  | 0, _ => exact h0
  | 1, _ => exact h1
  | 2, _ => exact h2
  | 3, _ => exact h3

/-- An idle read of a readable DMEM word: its written bytes read as written. -/
theorem step_read_dmem_readable {s : State} {q : Nat} (h : s.readNext (0x1000 + 4 * q)) (hq : q < 1024)
    (hidle : s.engine = .idle) (hread : s.readable (4 * q) 4 = true) :
    ∃ v : Word32, step s = .next (s.answered (.okay (some v)))
      ∧ ∀ i < 4, ∀ b, s.dmem.read? (4 * q + i) = some b → v.extractLsb' (8 * i) 8 = b := by
  refine ⟨_, (step_read_dmem h hq hidle).trans (withRead_eq s.advance _ _ _ hread), fun i hi b hb => ?_⟩
  exact (extractLsb'_locWord_dmem s.advance _ hi).trans (dmemByte_of_read? (s := s.advance) hb)

theorem read?_storeAll_laneBytes (m : Memory) (a : Nat) (v : Word32) {i : Nat} (h : i < 4) :
    (m.storeAll a (laneBytes v)).read? (a + i) = some (v.extractLsb' (8 * i) 8) := by
  rw [Memory.read?_storeAll, if_pos ⟨Nat.le_add_right a i, Nat.add_lt_add_left h a⟩, Nat.add_sub_cancel_left,
    laneBytes_getElem? v h]

/-! ### Wide writes (R52, 30_encoding.md R79) -/

/-- Writes of the words `js` of `v` to W[i]: each written word is that of `v`, every other word is kept. -/
theorem steps_wordWrites {i : WReg} {v : U256} {rest : List Event} (js : List (Fin 8)) {s : State}
    (hidle : s.engine = .idle)
    (hin : s.inputs = js.map (fun j => wr (0x100 + 32 * i.val + 4 * j.val) (wordOf v j)) ++ rest) :
    ∃ t, steps js.length s = .next t
      ∧ (∀ j, wordOf (t.getW i) j = if j ∈ js then wordOf v j else wordOf (s.getW i) j)
      ∧ (∀ k, k ≠ i → t.getW k = s.getW k)
      ∧ t = { s with w := t.w, resp := if js = [] then s.resp else some (.okay none)
                     tick := s.tick + js.length, inputs := rest } := by
  induction js generalizing s with
  | nil =>
    refine ⟨s, rfl, fun j => by simp, fun k _ => rfl, ?_⟩
    have hrest : s.inputs = rest := hin
    subst hrest
    rfl
  | cons j js ih =>
    have hnext : s.writeNext (0x100 + 32 * i.val + 4 * j.val) (wordOf v j) := by
      rw [State.writeNext, hin]
      rfl
    obtain ⟨u, hstep, hu, hsame, hother, hregs⟩ := (wWindow s i j hidle).2 (wordOf v j) hnext
    have huidle : u.engine = .idle := by
      rw [hu]
      exact hidle
    have huin : u.inputs = js.map (fun j => wr (0x100 + 32 * i.val + 4 * j.val) (wordOf v j)) ++ rest := by
      rw [hu]
      exact congrArg List.tail hin
    obtain ⟨t, hsteps, hword, htregs, ht⟩ := ih huidle huin
    refine ⟨t, (steps_next _ hstep).trans hsteps, fun k => ?_, fun k hk => (htregs k hk).trans (hregs k hk), ?_⟩
    · rw [hword k]
      by_cases hkjs : k ∈ js
      · rw [if_pos hkjs, if_pos (List.mem_cons_of_mem j hkjs)]
      · rw [if_neg hkjs]
        by_cases hkj : k = j
        · subst hkj
          exact hsame.trans (if_pos List.mem_cons_self).symm
        · exact (hother k hkj).trans (if_neg (by simp [hkj, hkjs])).symm
    · rw [ht, hu]
      simp [State.answered, Nat.add_assoc, Nat.add_comm 1]

end Machine
end Sys2Proof

section
open Sys2Proof Sys2Proof.Machine

/-- Settles O17: `accessOk` decides between ERROR and OKAY, and only an idle read of an unreadable word faults. -/
theorem busErrors : Obligations.BusErrors := by
  intro s off size
  refine ⟨fun hbad => ?_, fun h4 hsize => ?_⟩
  · have hno : ¬ accessOk off size = true := by
      rw [accessOk_iff]
      omega
    exact ⟨fun h => (step_of_head h).trans (hostRead_error hno s.advance),
      fun v h => (step_of_head h).trans (congrArg _ (hostWrite_error hno v s.advance))⟩
  · have hok : accessOk off size = true := (accessOk_iff off size).2 ⟨h4, hsize⟩
    refine ⟨fun v h => ⟨_, step_of_head h, resp_hostWrite hok v s.advance⟩, fun h => ?_⟩
    rcases hostRead_cases hok s.advance with ⟨v, hv⟩ | ⟨hfault, hidle, a, hl, hunreadable⟩
    · exact .inl ⟨v, (step_of_head h).trans hv⟩
    · obtain ⟨hlow, hhigh, ha⟩ := toNat_of_locate_dmem hl
      rw [ha] at hunreadable
      obtain ⟨huninit, hnone⟩ := (readable_eq_false_iff _ _ _).1 hunreadable
      exact .inr ⟨(step_of_head h).trans hfault, huninit, hidle, hlow, hhigh, hnone⟩

/-- Settles O20: a read of written bytes is readable, and a write stores the four lanes of the word. -/
theorem dmemWindow : Obligations.DmemWindow := by
  intro s q hidle hq
  refine ⟨fun h hwritten => ?_, fun v h => ?_⟩
  · obtain ⟨v, hstep, hlanes⟩ := step_read_dmem_readable h hq hidle (readable_of_written hwritten)
    refine ⟨v, hstep, fun i hi => ?_⟩
    obtain ⟨b, hb⟩ := Option.ne_none_iff_exists'.1 (hwritten i hi)
    rw [hlanes i hi b hb, hb]
  · have hstep : step s = .next ((s.advance.memWrite (4 * q) (laneBytes v)).respond (.okay none)) := by
      rw [step_write_idle h (by omega) hidle, locate_dmemWord hq]
      rfl
    exact ⟨_, hstep, rfl, fun i hi => read?_storeAll_laneBytes s.dmem (4 * q) v hi,
      fun a ha => Memory.read?_storeAll_outside s.dmem _ (laneBytes v) a ha⟩

/-- Settles O22: the writes of all eight words leave W[i] with every word of v. -/
theorem wideWrite : Obligations.WideWrite := by
  intro s i v rest hidle hin
  obtain ⟨t, hsteps, hword, hregs, ht⟩ := steps_wordWrites (List.finRange 8) hidle hin
  have hv : t.getW i = v := eq_of_wordOf fun j => (hword j).trans (if_pos (List.mem_finRange j))
  exact ⟨t, hsteps, hv, hregs, ht⟩

/-- Settles O16: of the cases of a step, only the answered access has a read at the head of the inputs. -/
theorem readsHaveNoSideEffect : Obligations.ReadsHaveNoSideEffect := by
  intro s t off size hread h
  rcases step_cases h with ⟨hempty | hengine, _⟩ | ⟨hpower, _⟩ | hanswered | ⟨off', v, hwrite, _⟩
  · simp [hempty] at hread
  · simp [hengine] at hread
  · simp [hpower] at hread
  · exact hanswered
  · rw [State.writeNext, hread] at hwrite
    simp [wr] at hwrite

/-- Settles O21: an unwritten byte makes the word unreadable under `fault`; under `draw` every word is readable. -/
theorem unwrittenRead : Obligations.UnwrittenRead := by
  intro s q i hidle hq hi hnone h
  refine ⟨fun hfault => ?_, fun hdraw => ?_⟩
  · have hunreadable : s.advance.readable (4 * q) 4 = false := (readable_eq_false_iff _ _ _).2 ⟨hfault, i, hi, hnone⟩
    rw [step_read_dmem h hq hidle, withRead, hunreadable]
    rfl
  · exact step_read_dmem_readable h hq hidle (readable_of_draw hdraw s _ _)

end
end

section
/-! SUPPORT. The command word (O1, O2): the encoder's fields survive packing and decode to the instruction, and a word
that decodes holds exactly the fields of the instruction it decodes to. -/

namespace Sys2Proof
namespace Laws

/-! ### From the instruction to its word -/

/-- Every instruction's fields fit the widths of R70. -/
theorem fieldsBounded_fields : ∀ i : Instr, FieldsBounded i.fields
  | .nop => FieldsFit.nop
  | .madd .. => FieldsFit.madd ..
  | .msub .. => FieldsFit.msub ..
  | .mmul .. => FieldsFit.mmul ..
  | .minv .. => FieldsFit.minv ..
  | .msqrt .. => FieldsFit.msqrt ..
  | .mov .. => FieldsFit.mov ..
  | .ldc .. => FieldsFit.ldc ..
  | .padd .. => FieldsFit.padd ..
  | .pdbl .. => FieldsFit.pdbl ..
  | .pmul .. => FieldsFit.pmul ..
  | .pnorm .. => FieldsFit.pnorm ..
  | .pldg .. => FieldsFit.pldg ..
  | .pchk .. => FieldsFit.pchk ..
  | .peq .. => FieldsFit.peq ..
  | .pcomp .. => FieldsFit.pcomp ..
  | .pdcmp .. => FieldsFit.pdcmp ..
  | .keygen .. => FieldsFit.keygen ..
  | .keychk .. => FieldsFit.keychk ..
  | .hash => FieldsFit.hash
  | .kdf => FieldsFit.kdf
  | .enc .. => FieldsFit.enc ..
  | .dec .. => FieldsFit.dec ..
  | .sign .. => FieldsFit.sign ..
  | .verify .. => FieldsFit.verify ..
  | .precomp .. => FieldsFit.precomp ..

/-- The checks of R75 accept the fields of every well-formed instruction and build it. -/
theorem decodeFields_fields : ∀ i : Instr, FieldsDecode.Statement i
  | .nop => FieldsDecode.nop
  | .madd .. => FieldsDecode.madd _ _ _ _
  | .msub .. => FieldsDecode.msub _ _ _ _
  | .mmul .. => FieldsDecode.mmul _ _ _ _
  | .minv .. => FieldsDecode.minv _ _ _
  | .msqrt .. => FieldsDecode.msqrt _ _
  | .mov .. => FieldsDecode.mov _ _
  | .ldc .. => FieldsDecode.ldc _ _
  | .padd .. => FieldsDecode.padd _ _ _
  | .pdbl .. => FieldsDecode.pdbl _ _
  | .pmul .. => FieldsDecode.pmul _ _ _
  | .pnorm .. => FieldsDecode.pnorm _ _
  | .pldg .. => FieldsDecode.pldg _
  | .pchk .. => FieldsDecode.pchk _
  | .peq .. => FieldsDecode.peq _ _
  | .pcomp .. => FieldsDecode.pcomp _ _
  | .pdcmp .. => FieldsDecode.pdcmp _ _ _
  | .keygen .. => FieldsDecode.keygen _ _
  | .keychk .. => FieldsDecode.keychk _
  | .hash => FieldsDecode.hash
  | .kdf => FieldsDecode.kdf
  | .enc .. => FieldsDecode.enc _ _
  | .dec .. => FieldsDecode.dec _ _
  | .sign .. => FieldsDecode.sign _ _ _ _ _
  | .verify .. => FieldsDecode.verify _ _ _ _ _ _
  | .precomp .. => FieldsDecode.precomp _

/-- The fields of the encoded word are the instruction's. -/
theorem unpack_encode (i : Instr) : unpack (encode i) = i.fields := unpack_pack _ (fieldsBounded_fields i)

/-! ### From a legal word to its instruction -/

theorem ofCode_eq_some_iff {c : Nat} {o : Op} : Op.ofCode c = some o ↔ o.code = c := by
  constructor
  · intro h
    simpa using List.find?_some h
  · rintro rfl
    cases o <;> rfl

/-- The fields meet R74's row of the mnemonic and R75. -/
def LegalFields (o : Op) (f : Fields) : Prop :=
  o.code = f.opc ∧ f.rsv = 0 ∧ o.row.rolesOk f = true ∧ o.row.flagsOk f = true ∧ o.constraint f = true

/-- Under a mnemonic's opcode the decoder checks that mnemonic's row and builds its instruction. -/
theorem decodeFields_eq_ok_iff_of_code {o : Op} {f : Fields} (h : o.code = f.opc) (i : Instr) :
    decodeFields f = .ok i ↔ LegalFields o f ∧ o.build f = i := by
  unfold decodeFields LegalFields
  rw [ofCode_eq_some_iff.2 h]
  simp only
  split_ifs <;> simp_all

theorem decodeFields_eq_ok_iff (f : Fields) (i : Instr) :
    decodeFields f = .ok i ↔ ∃ o, LegalFields o f ∧ o.build f = i := by
  constructor
  · intro h
    cases ho : Op.ofCode f.opc with
    | none => simp [decodeFields, ho] at h
    | some o => exact ⟨o, (decodeFields_eq_ok_iff_of_code (ofCode_eq_some_iff.1 ho) i).1 h⟩
  · rintro ⟨o, hlegal, hbuild⟩
    exact (decodeFields_eq_ok_iff_of_code hlegal.1 i).2 ⟨hlegal, hbuild⟩

/-! ### Operand values: each reading of a field gives the field back -/

theorem val_wReg {v : Nat} (h : v < 16) : (wReg v).val = v := Nat.mod_eq_of_lt h

theorem val_pReg {v : Nat} (h : v < 16) (h3 : v / 8 % 2 = 0) : (pReg v).val = v := Nat.mod_eq_of_lt (by omega)

theorem flag_ofFlag_modulus {v : Nat} (h : v < 2) : (Modulus.ofFlag v).flag = v := by
  interval_cases v <;> rfl

theorem flag_ofFlag_cipherMode {v : Nat} (h : v < 2) : (CipherMode.ofFlag v).flag = v := by
  interval_cases v <;> rfl

theorem index_ofIndex {v : Nat} (h : v < 16) (h3 : v / 8 % 2 = 0) : (CurveConst.ofIndex v).index = v := by
  have h8 : v < 8 := by omega
  clear h h3
  interval_cases v <;> rfl

theorem toNat_flagBit {v : Nat} (h : v < 2) : (flagBit v).toNat = v := by
  interval_cases v <;> rfl

/-! ### The instruction of a legal word -/

/-- No field of a legal word is lost: in each row an unused field or flag is 0, and a used one is read back from the
operand it becomes (R76). -/
theorem fields_build {o : Op} {f : Fields} (hb : FieldsBounded f) (h : LegalFields o f) : (o.build f).fields = f := by
  obtain ⟨-, hfa, hfb, hfc, hfd, hm, ht, hh, hi, hu, -⟩ := hb
  obtain ⟨hopc, hrsv, hroles, hflags, -⟩ := h
  cases f
  cases o <;>
    simp_all [Op.row, Row.rolesOk, Row.flagsOk, Role.fits, Op.build, Instr.fields, val_wReg, val_pReg,
      flag_ofFlag_modulus, flag_ofFlag_cipherMode, index_ofIndex, toNat_flagBit]

theorem not_flagBit {v : Nat} (h : v < 2) : (!flagBit v) = (v == 0) := by
  interval_cases v <;> rfl

theorem evenReg_wReg {v : Nat} (h : v < 16) : evenReg (wReg v) = Role.wEven.fits v := by
  rw [evenReg, val_wReg h, Role.fits]

/-- The constraint of SIGN on the fields is the check of `WellFormed` on the operands. -/
theorem digestFieldsOk_build {f : Fields} (hb : FieldsBounded f) :
    digestFieldsOk (wReg f.fc) (flagBit f.h) (flagBit f.i) = Op.sign.constraint f := by
  obtain ⟨-, -, -, hc, -, -, -, hh, hi, -⟩ := hb
  rw [digestFieldsOk, val_wReg hc, not_flagBit hh, not_flagBit hi]
  rfl

/-- The instruction of a legal word is well-formed: `w-even` fields are even, and SIGN and VERIFY meet their extra
constraints (R71, R74). -/
theorem wellFormed_build {o : Op} {f : Fields} (hb : FieldsBounded f) (h : LegalFields o f) :
    WellFormed (o.build f) := by
  obtain ⟨-, -, hroles, -, hconstraint⟩ := h
  have hdigest := digestFieldsOk_build hb
  obtain ⟨-, hfaLt, hfbLt, -, hfdLt, -, -, -, -, huLt, -⟩ := hb
  simp only [Row.rolesOk, Bool.and_eq_true] at hroles
  obtain ⟨⟨⟨hfa, hfb⟩, -⟩, hfd⟩ := hroles
  cases o with
  | sign =>
    have heven : evenReg (wReg f.fa) = true := (evenReg_wReg hfaLt).trans hfa
    exact Bool.and_eq_true_iff.2 ⟨heven, hdigest.trans hconstraint⟩
  | verify =>
    have heven : evenReg (wReg f.fb) = true := (evenReg_wReg hfbLt).trans hfb
    have hkey : keyFieldOk (pReg f.fd) (flagBit f.u) = (f.u == 0 || f.fd == 0) := by
      rw [keyFieldOk, not_flagBit huLt, val_pReg hfdLt (by simpa [Op.row, Role.fits] using hfd)]
    obtain ⟨hsign, hfree⟩ := Bool.and_eq_true_iff.1 hconstraint
    exact Bool.and_eq_true_iff.2 ⟨Bool.and_eq_true_iff.2 ⟨heven, hdigest.trans hsign⟩, hkey.trans hfree⟩
  | _ => rfl

end Laws
end Sys2Proof

section
open Sys2Proof Sys2Proof.Laws

/-- Settles O1: the word keeps the instruction's fields, and these decode to the instruction. -/
theorem decodeOfEncode : Obligations.DecodeOfEncode := by
  intro i hwf
  rw [decode, unpack_encode]
  exact decodeFields_fields i hwf

/-- Settles O2: a decoded word has the fields of its instruction, and these are what `Spells` says bit by bit. -/
theorem decodedWordIsEncoding : Obligations.DecodedWordIsEncoding := by
  intro w i
  rw [spells_iff, decode]
  constructor
  · intro h
    obtain ⟨o, hlegal, rfl⟩ := (decodeFields_eq_ok_iff _ _).1 h
    exact ⟨wellFormed_build (unpack_bounded w) hlegal, (fields_build (unpack_bounded w) hlegal).symm⟩
  · rintro ⟨hwf, hfields⟩
    rw [hfields]
    exact decodeFields_fields i hwf

end
end

section
/-! SUPPORT. The legal words (O3): the lines of `LegalWord` against the decoder's rows, and the turn of an engine
that is busy with a word. -/

namespace Sys2Proof
namespace Laws
open Machine

/-! ### Bits of the word as values of its fields -/

theorem toNat_extractLsb' (w : Word32) (k l : Nat) : (w.extractLsb' k l).toNat = bitsAt w.toNat k l := by
  simp [bitsAt, BitVec.extractLsb'_toNat, Nat.shiftRight_eq_div_pow]

theorem not_getLsbD_iff_bitsAt (w : Word32) (k : Nat) : (!w.getLsbD k) = true ↔ bitsAt w.toNat k 1 = 0 := by
  rw [Bool.not_eq_true', getLsbD_iff_bitsAt, Bool.toNat_false]

theorem not_getLsbD_field_iff (w : Word32) (k j : Nat) :
    (!(w.extractLsb' k 4).getLsbD j) = true ↔ bitsAt w.toNat k 4 / 2 ^ j % 2 = 0 := by
  rw [BitVec.getLsbD, toNat_extractLsb', Nat.testBit_eq_decide_div_mod_eq]
  simp

theorem flag_zero_imp_iff (w k : Nat) (P : Prop) : (bitsAt w k 1 = 0 → P) ↔ bitsAt w k 1 = 1 ∨ P := by
  rcases Nat.mod_two_eq_zero_or_one (w / 2 ^ k) with h | h <;> simp [bitsAt, h]

theorem flag_one_imp_iff (w k : Nat) (P : Prop) : (bitsAt w k 1 = 1 → P) ↔ bitsAt w k 1 = 0 ∨ P := by
  rcases Nat.mod_two_eq_zero_or_one (w / 2 ^ k) with h | h <;> simp [bitsAt, h]

/-! ### The legal words (R75) -/

/-- Under a mnemonic's opcode only the line of `LegalWord` for it is left, and it says what the row of R74 says. -/
theorem legalWord_iff_of_code {w : Word32} {o : Op} (h : o.code = (unpack w).opc) :
    LegalWord w ↔ LegalFields o (unpack w) := by
  have hopc : bitsAt w.toNat 0 8 = o.code := h.symm
  simp only [LegalWord, extractLsb'_iff_bitsAt, not_getLsbD_iff_bitsAt, not_getLsbD_field_iff, getLsbD_iff_bitsAt,
    Bool.toNat_false, Bool.toNat_true, flag_zero_imp_iff, flag_one_imp_iff, hopc]
  cases o <;>
    simp [LegalFields, Op.code, Op.row, Row.rolesOk, Row.flagsOk, Role.fits, Op.constraint, unpack, hopc, and_assoc]

/-- Every line of `LegalWord` names an opcode of the map. -/
theorem not_legalWord_of_ofCode_none {w : Word32} (h : Op.ofCode (unpack w).opc = none) : ¬ LegalWord w := by
  have hcodes : ∀ o ∈ Op.all, ¬ bitsAt w.toNat 0 8 = o.code := fun o ho hc => by
    simpa [unpack, hc] using List.find?_eq_none.1 h o ho
  simp only [Op.all, Op.code, List.cons_append, List.nil_append, List.forall_mem_cons] at hcodes
  simp [LegalWord, extractLsb'_iff_bitsAt, hcodes]

/-- The legal words of R74, bit by bit, are those whose fields pass the decoder's checks. -/
theorem legalWord_iff (w : Word32) : LegalWord w ↔ ∃ i, decode w = .ok i := by
  cases ho : Op.ofCode (unpack w).opc with
  | none => simp [not_legalWord_of_ofCode_none ho, decode, decodeFields, ho]
  | some o =>
    have hcode : o.code = (unpack w).opc := ofCode_eq_some_iff.1 ho
    simp [legalWord_iff_of_code hcode, decode, decodeFields_eq_ok_iff_of_code hcode]

end Laws

namespace Machine

/-! ### The turn of the busy engine (40_control.md R82) -/

/-- A word that decodes is run. -/
theorem step_busyTurn {s : State} {w : Word32} {i : Instr} (hturn : s.engineNext) (hbusy : s.engine = .busy w)
    (hdecode : decode w = .ok i) : step s = exec i s.advance := by
  rw [step_of_engineNext hturn, engineTurn, show s.advance.engine = .busy w from hbusy]
  simp only [hdecode]

/-- A word that does not decode ends in ERR_ILLEGAL. -/
theorem step_illegalTurn {s : State} {w : Word32} {e : Illegal} (hturn : s.engineNext) (hbusy : s.engine = .busy w)
    (hdecode : decode w = .error e) : step s = fail .illegal s.advance := by
  rw [step_of_engineNext hturn, engineTurn, show s.advance.engine = .busy w from hbusy]
  simp only [hdecode]

end Machine
end Sys2Proof

section
open Sys2Proof Sys2Proof.Machine Sys2Proof.Laws

/-- Settles O3: `LegalWord` is what the decoder accepts, and the turn of any other word raises an error before it
writes anything. -/
theorem illegalWords : Obligations.IllegalWords := by
  refine ⟨legalWord_iff, fun s w hturn hbusy hillegal => ?_⟩
  rw [legalWord_iff] at hillegal
  cases hdecode : decode w with
  | ok i => exact absurd ⟨i, hdecode⟩ hillegal
  | error e =>
    rw [step_illegalTurn hturn hbusy hdecode]
    exact endsInError_plain s.advance .illegal

/-- Settles O4: twelve closed words, each decoded by evaluation. -/
theorem exampleWords : Obligations.ExampleWords := by
  unfold Obligations.ExampleWords
  decide

end
end

section
/-! SUPPORT. The host's RUN sequence (O23): the two writes that start a command, the polls that see it busy, the
engine's turn, and the poll that sees it ended. -/

namespace Sys2Proof
namespace Machine

/-! ### What a command leaves for the host -/

/-- A command that answers a next state has ended (R85, 60_exceptions.md R152). -/
theorem exec_engine {i : Instr} {s t : State} (h : exec i s = .next t) : t.engine = .idle := by
  rcases exec_ends h with ⟨hidle, _⟩ | ⟨_, hidle, _⟩ <;> exact hidle

theorem OnlyWrites.inputs_eq {x : Writes} {s t : State} (h : OnlyWrites x s t) : t.inputs = s.inputs := by
  obtain ⟨_, _, _, _, _, _, _, _, _, _, _, _, _, _, _, _, hinputs, _⟩ := h
  exact hinputs

theorem exec_inputs {i : Instr} {s t : State} (h : exec i s = .next t) : t.inputs = s.inputs := by
  rcases exec_next_cases h with ⟨_, hw, _⟩ | ⟨_, hw, _⟩ | ⟨_, _, hw, _⟩ <;> exact hw.inputs_eq

theorem getLsbD_zero_statusWord (s : State) : (statusWord s).getLsbD 0 = s.isBusy := by
  rw [getLsbD_statusWord s 0 (by decide)]
  simp

/-! ### The writes of RUN (30_encoding.md R79) -/

/-- The state after the host started the word with this IRQEN. -/
def State.started (s : State) (w : Word32) (irqen : Bool) : State :=
  { s with cmd := w, irqen := irqen, engine := .busy w, done := false, err := false, errcode := 0, draws := 0 }

/-- The two forms of START: SRST is 0, START is 1, and bit 2 is IRQEN (10_state.md R33). -/
theorem writeCtrl_run (irqen : Bool) {s : State} (hidle : s.engine = .idle) :
    writeCtrl (if irqen then 5 else 1) s = s.started s.cmd irqen := by
  cases irqen <;> exact writeCtrl_start_idle rfl rfl hidle

/-- The idle block takes a write of CMD (10_state.md R34). -/
theorem step_write_cmd {s : State} {v : Word32} (h : s.writeNext 0x008 v) (hidle : s.engine = .idle) :
    step s = .next ({ s with cmd := v }.answered (.okay none)) := by
  rw [step_write_idle h (by decide) hidle]
  rfl

/-- The writes of CMD and of START leave the engine busy with the word. -/
theorem steps_run_writes {s : State} {w : Word32} {irqen : Bool} {es : List Event} (hidle : s.engine = .idle)
    (hin : s.inputs = wr 0x008 w :: wr 0x004 (if irqen then 5 else 1) :: es) :
    steps 2 s = .next { s.started w irqen with resp := some (.okay none), tick := s.tick + 2, inputs := es } := by
  have hcmd := step_write_cmd (show s.writeNext 0x008 w by rw [State.writeNext, hin]; rfl) hidle
  have hctrl : ({ s with cmd := w }.answered (.okay none)).writeNext 0x004 (if irqen then 5 else 1) := by
    rw [State.writeNext, State.answered, hin]
    rfl
  rw [steps_next 1 hcmd, steps_one, step_write_ctrl hctrl, writeCtrl_run irqen]
  · simp [State.started, State.answered, State.advance, State.respond, hin]
  · exact hidle

/-- RUN up to the engine's turn: the polls read STATUS with BUSY = 1. -/
theorem steps_run_polls {s : State} {w : Word32} {irqen : Bool} {polls : Nat} {rest : List Event}
    (hidle : s.engine = .idle) (hin : s.inputs = run w irqen polls ++ rest) :
    steps (polls + 2) s
      = .next { s.started w irqen with
                  resp := some (.okay (if polls = 0 then none else some (statusWord (s.started w irqen))))
                  tick := s.tick + polls + 2, inputs := .engine :: rd 0x00C :: rest } := by
  have hevents : s.inputs = wr 0x008 w :: wr 0x004 (if irqen then 5 else 1)
      :: (List.replicate polls (rd 0x00C) ++ .engine :: rd 0x00C :: rest) := by
    rw [hin]
    simp [run]
  rw [Nat.add_comm polls 2, steps_add 2 polls (steps_run_writes hidle hevents), steps_polls polls rfl]
  congr 2
  · split <;> rfl
  · exact Nat.add_right_comm ..

end Machine
end Sys2Proof

section
open Sys2Proof Sys2Proof.Machine

/-- Settles O23: the writes and the polls lead to the engine's turn, which runs the command; its state is idle and has
the last poll next. -/
theorem hostRun : Obligations.HostRun := by
  intro s w i irqen polls rest hidle hdecode hin started polled
  have hrun : steps (polls + 3) s = exec i polled := by
    rw [steps_add (polls + 2) 1 (steps_run_polls hidle hin), steps_one]
    exact step_busyTurn (.inr rfl) rfl hdecode
  refine ⟨getLsbD_zero_statusWord started, hrun, fun t ht => ?_⟩
  have hread : t.readNext 0x00C := by rw [State.readNext, exec_inputs ht]; rfl
  have hended : t.engine = .idle := exec_engine ht
  rw [steps_add (polls + 3) 1 (hrun.trans ht), steps_one, getLsbD_zero_statusWord]
  exact ⟨step_read_reg_idle hread (by decide) rfl hended, isBusy_of_idle hended⟩

end
end

section
/-! SUPPORT. The control family (40_control.md): the word that `withFetchWord` places, and NOP (O5, O26, O31). -/

namespace Sys2Proof
namespace Machine

/-- `withFetchWord` loads the word itself when it is told all 32 of its bits (log 8). -/
theorem withFetchWord_toNat (s : State) (w : Word32) : s.withFetchWord 32 w.toNat = loadCommand w s := by
  rw [State.withFetchWord, Nat.mod_eq_of_lt w.isLt, BitVec.ofNat_toNat, BitVec.setWidth_eq]

/-- NOP ends well and writes nothing (R91). -/
theorem exec_nop (s : State) : exec .nop s = succeed s := rfl

/-- Ending a command without writing touches no destination (R85). -/
theorem onlyWrites_complete (s : State) : OnlyWrites {} s (complete s) := by
  simp [OnlyWrites, State.getW, State.getP]

/-- The error codes start at 1 (60_exceptions.md R148). -/
theorem ErrCode.one_le_code (e : ErrCode) : 1 ≤ e.code.toNat := by cases e <;> decide

end Machine
end Sys2Proof

section
open Sys2Proof Sys2Proof.Machine

/-- Settles O26: `exec_outcome` gives a next state, which `exec_ends` says is an ended one, or the fault of an unwritten
input byte. -/
theorem everyCommandEnds : Obligations.EveryCommandEnds := by
  intro i s
  rcases exec_outcome i s with ⟨t, ht, _⟩ | hfault
  · refine .inl ⟨t, ht, ?_⟩
    rcases exec_ends ht with hok | ⟨e, hfailed⟩
    · exact .inl hok
    · exact .inr ⟨e.code, e.one_le_code, e.code_le, hfailed⟩
  · exact .inr hfault

/-- Settles O5: both parts are `step_busyTurn`, the second in the state `loadCommand` leaves. -/
theorem stepRunsDecoded : Obligations.StepRunsDecoded := by
  refine ⟨fun s w i => step_busyTurn, fun s w i hdecode => ?_⟩
  rw [withFetchWord_toNat]
  exact step_busyTurn (.inr rfl) rfl hdecode

/-- Settles O31: NOP succeeds in the state it found. -/
theorem nopChangesNothing : Obligations.NopChangesNothing := by
  intro s
  rw [exec_nop]
  exact endsWell_succeed ⟨rfl, rfl⟩ (onlyWrites_complete s) trivial

end
end

section
/-! SUPPORT. The modular family (41_modular.md): how a command that writes one register ends, the two moduli, and
each command's outcome in the terms of its rule (O32 to O35). -/

namespace Sys2Proof
namespace Machine

/-! ### Commands that write one register -/

section
variable {s : State} {Q : State → Prop}

theorem endsWell_setW {d : WReg} {v : U256} (h : ∀ t : State, t.getW d = v → Q t) :
    EndsWell (succeed (s.setW d v)) s { w := [d] } Q :=
  endsWell_succeed ⟨rfl, rfl⟩ (onlyWrites_setW s d v) (h _ (by simp))

theorem endsWell_putW {d : WReg} {v : Nat} (hv : v < 2 ^ 256) (h : ∀ t : State, (t.getW d).toNat = v → Q t) :
    EndsWell (succeed (s.putW d v)) s { w := [d] } Q :=
  endsWell_setW fun t ht => h t (by rw [ht, BitVec.toNat_ofNat, Nat.mod_eq_of_lt hv])

theorem endsWell_putPoint {d : PReg} {q : Point} (h : ∀ t : State, t.getP d = norm q → Q t) :
    EndsWell (succeed (s.putPoint d q)) s { p := [d] } Q :=
  endsWell_succeed ⟨rfl, rfl⟩ (onlyWrites_putPoint s d q) (h _ (by simp))

end

/-! ### The moduli (R92) -/

theorem prime_modulus (md : Modulus) : (modulus md).Prime := by
  cases md
  · exact prime_p
  · exact prime_n

theorem modulus_pos (md : Modulus) : 0 < modulus md := (prime_modulus md).pos

theorem two_lt_modulus (md : Modulus) : 2 < modulus md := by cases md <;> decide

theorem modulus_lt (md : Modulus) : modulus md < 2 ^ 256 := by
  cases md
  · exact p_lt
  · exact n_lt

/-! ### MADD, MSUB, MMUL (R97 to R99) -/

/-- A two-source command leaves its canonical result in W[FA] and writes nothing else (R94, R96). -/
theorem endsWell_modularBinary {s : State} {f : Nat → Nat → Nat → Nat} {d a b : WReg} {md : Modulus}
    {Q : State → Prop} (hf : ∀ m u v, 0 < m → f m u v < m)
    (h : ∀ t : State,
      (t.getW d).toNat = f (modulus md) (s.natW a % modulus md) (s.natW b % modulus md) → Q t) :
    EndsWell (modularBinary f d a b md s) s { w := [d] } Q :=
  endsWell_putW ((hf _ _ _ (modulus_pos md)).trans (modulus_lt md)) h

/-! ### MINV (R100) -/

/-- Fermat's power is the exponentiation the inverter runs (R95). -/
theorem invMod_eq_pow {m : Nat} (hm : m < 2 ^ 256) (a : Nat) : invMod m a = a ^ (m - 2) % m :=
  powMod_eq _ _ _ (by omega)

theorem exec_minv_zero {s : State} {d a : WReg} {md : Modulus} (h : s.natW a % modulus md = 0) :
    exec (.minv d a md) s = fail .noInv s := if_pos h

theorem exec_minv_nonzero {s : State} {d a : WReg} {md : Modulus} (h : s.natW a % modulus md ≠ 0) :
    exec (.minv d a md) s = succeed (s.putW d (invMod (modulus md) (s.natW a % modulus md))) := if_neg h

/-! ### MSQRT (R101) -/

theorem sqrtModP_sq_iff_square (u : Nat) :
    sqrtModP (u % Config.p) * sqrtModP (u % Config.p) % Config.p = u % Config.p
      ↔ ∃ r, r * r % Config.p = u % Config.p :=
  sqrtModP_sq_iff (Nat.mod_lt _ p_pos)

theorem exec_msqrt_square {s : State} {d a : WReg} (h : ∃ r, r * r % Config.p = s.natW a % Config.p) :
    exec (.msqrt d a) s = succeed (s.putW d (sqrtModP (s.natW a % Config.p))) := by
  have hroot := (sqrtModP_sq_iff_square (s.natW a)).2 h
  simp only [exec, execMsqrt, if_neg (not_not.2 hroot)]

theorem exec_msqrt_nonsquare {s : State} {d a : WReg} (h : ¬ ∃ r, r * r % Config.p = s.natW a % Config.p) :
    exec (.msqrt d a) s = fail .noSqrt s := by
  have hroot := mt (sqrtModP_sq_iff_square (s.natW a)).1 h
  simp only [exec, execMsqrt, if_pos hroot]

end Machine
end Sys2Proof

section
open Sys2Proof Sys2Proof.Machine

/-- Settles O32: each command is `modularBinary` of its operation; the integer difference of R98 is `subMod_eq_emod`. -/
theorem modularArithmetic : Obligations.ModularArithmetic := by
  intro s d a b md
  refine ⟨?_, ?_, ?_⟩
  · exact endsWell_modularBinary addMod_lt fun t ht => ht
  · refine endsWell_modularBinary subMod_lt fun t ht => ?_
    rw [ht]
    exact subMod_eq_emod _ _ _ (modulus_pos md)
  · exact endsWell_modularBinary mulMod_lt fun t ht => ht

/-- Settles O33: `invMod` is the Fermat power, and the inverse because both moduli are prime. -/
theorem modularInverse : Obligations.ModularInverse := by
  intro s d a md
  refine ⟨fun hzero => ?_, fun hne => ?_⟩
  · rw [exec_minv_zero hzero]
    exact endsInError_plain s .noInv
  · have hcanonical := invMod_lt (modulus md) (s.natW a % modulus md) (modulus_pos md)
    have hinverse : s.natW a % modulus md * invMod (modulus md) (s.natW a % modulus md) % modulus md = 1 :=
      mul_invMod_mod (prime_modulus md) (two_lt_modulus md) (modulus_lt md) (by rwa [Nat.mod_mod])
    rw [exec_minv_nonzero hne]
    refine endsWell_putW (hcanonical.trans (modulus_lt md)) fun t ht => ?_
    rw [ht]
    exact ⟨invMod_eq_pow (modulus_lt md) _, hinverse, hcanonical⟩

/-- Settles O34: the candidate root squares to a exactly when a is a square (`sqrtModP_sq_iff`). -/
theorem squareRoot : Obligations.SquareRoot := by
  intro s d a
  refine ⟨fun hsquare => ?_, fun hnonsquare => ?_⟩
  · rw [exec_msqrt_square hsquare]
    refine endsWell_putW ((sqrtModP_lt _).trans p_lt) fun t ht => ?_
    obtain ⟨r, hr⟩ := hsquare
    rw [ht]
    exact ⟨sqrtModP_eq _, (sqrtModP_sq_iff_square _).2 ⟨r, hr⟩, sqrtModP_isSquare hr⟩
  · rw [exec_msqrt_nonsquare hnonsquare]
    exact endsInError_plain s .noSqrt

/-- Settles O35: each command writes one register; `Config` has the constants of 00_scope.md R13. -/
theorem movesAndConstants : Obligations.MovesAndConstants := by
  refine ⟨fun s d a => endsWell_setW fun t ht => ht, fun s d c v hmem => ?_,
    fun s d => endsWell_putPoint fun t ht => ht⟩
  have hconst : BitVec.ofNat 256 (constValue c) = v := by
    simp only [List.mem_cons, Prod.mk.injEq, List.not_mem_nil, or_false] at hmem
    rcases hmem with ⟨rfl, rfl⟩ | ⟨rfl, rfl⟩ | ⟨rfl, rfl⟩ | ⟨rfl, rfl⟩ | ⟨rfl, rfl⟩ | ⟨rfl, rfl⟩ | ⟨rfl, rfl⟩ |
      ⟨rfl, rfl⟩ <;> rfl
  exact endsWell_setW fun t ht => ht.trans hconst

end
end

section
/-! SUPPORT. The point family (42_point.md): the group of the curve's points, the group multiple, and each command's
outcome in the terms of its rule (O36 to O43). -/

namespace Sys2Proof
namespace Machine

/-! ### Add, Dbl and their formulas, on and off the curve (R107, R108) -/

@[simp] theorem norm_inf : norm .inf = ⟨0, 0, 0⟩ := rfl

/-- Dbl(Q) = Add(Q, Q) for every point, on the curve or off it. -/
theorem dbl_eq_add_self (q : Point) : dbl q = add q q := by
  cases q with
  | inf => rfl
  | aff x y => by_cases hy : y = 0 <;> simp [add_aff, dbl_aff, hy]

theorem dbl_of_y_zero (x : Nat) : dbl (.aff x 0) = .inf := rfl

/-- Points over one abscissa that are not a double add to O. -/
theorem add_same_x {x y1 y2 : Nat} (h : ¬ (y1 = y2 ∧ y1 ≠ 0)) : add (.aff x y1) (.aff x y2) = .inf := by
  rw [add_aff, if_pos rfl, if_neg h]

theorem exists_chord {x1 x2 : Nat} (y1 y2 : Nat) (hx1 : x1 < Config.p) (hx2 : x2 < Config.p) (h : x1 ≠ x2) :
    ∃ l, l < Config.p ∧ ChordSlope l x1 y1 x2 y2 ∧ OnLine l x1 y1 x2 (norm (add (.aff x1 y1) (.aff x2 y2))) := by
  rw [add_aff, if_neg h]
  exact ⟨_, mulMod_lt _ _ _ p_pos, chordSlope_mulMod y1 y2 hx1 hx2 h, onLine_chordPoint _ _ _ _⟩

theorem exists_tangent (x : Nat) {y : Nat} (hy : y < Config.p) (h : y ≠ 0) :
    ∃ l, l < Config.p ∧ TangentSlope l x y ∧ OnLine l x y x (norm (dbl (.aff x y))) := by
  rw [dbl_aff, if_neg h]
  exact ⟨_, mulMod_lt _ _ _ p_pos, tangentSlope_mulMod x hy h, onLine_chordPoint _ _ _ _⟩

/-! ### The group of the curve's points -/

/-- −Q is on the curve and is the group's negative of Q. -/
theorem toE_negPoint [Fact (Nat.Prime Config.p)] {q : Point} (hq : q.Valid) :
    (negPoint q).Valid ∧ toE (negPoint q) = -toE q := by
  cases q with
  | inf => exact ⟨valid_inf, by simp [negPoint]⟩
  | aff x y =>
    have hn := nonsingular_of_onCurve hq.2
    have hcast : (((Config.p - y) % Config.p : Nat) : ZMod Config.p) = curve.negY x y := by
      rw [negY_curve, ZMod.natCast_mod, Nat.cast_sub hq.1.2.le, ZMod.natCast_self, zero_sub]
    rw [toE_aff hq.2, WeierstrassCurve.Affine.Point.neg_some]
    exact toE_of_cast rfl hcast _ hq.1.1 (Nat.mod_lt _ p_pos)

theorem valid_negPoint {q : Point} (hq : q.Valid) : (negPoint q).Valid := by
  have := fact_prime_p
  exact (toE_negPoint hq).1

theorem add_negPoint {q : Point} (hq : q.Valid) : add q (negPoint q) = .inf := by
  have := fact_prime_p
  obtain ⟨hneg, heq⟩ := toE_negPoint hq
  obtain ⟨hsum, hadd⟩ := toE_add hq hneg
  exact toE_inj hsum valid_inf (by rw [hadd, heq, add_neg_cancel, toE_inf])

theorem add_comm_of_valid {q r : Point} (hq : q.Valid) (hr : r.Valid) : add q r = add r q := by
  have := fact_prime_p
  refine toE_inj (valid_add hq hr) (valid_add hr hq) ?_
  rw [(toE_add hq hr).2, (toE_add hr hq).2, add_comm]

theorem add_assoc_of_valid {q r u : Point} (hq : q.Valid) (hr : r.Valid) (hu : u.Valid) :
    add (add q r) u = add q (add r u) := by
  have := fact_prime_p
  obtain ⟨hqr, heqr⟩ := toE_add hq hr
  obtain ⟨hru, heru⟩ := toE_add hr hu
  refine toE_inj (valid_add hqr hu) (valid_add hq hru) ?_
  rw [(toE_add hqr hu).2, heqr, (toE_add hq hru).2, heru, add_assoc]

/-! ### The group multiple (R109) -/

/-- Mul(k, Q) is the one point of the curve that stands for k·Q. -/
theorem mul_eq_of_toE [Fact (Nat.Prime Config.p)] {q r : Point} (hq : q.Valid) (hr : r.Valid) {k : Nat}
    (hk : k < 2 ^ 256) (h : k • toE q = toE r) : mul k q = r :=
  toE_inj (valid_mul hq k) hr ((toE_mul hq k hk).2.trans h)

theorem mul_zero_left {q : Point} (hq : q.Valid) : mul 0 q = .inf := by
  have := fact_prime_p
  exact mul_eq_of_toE hq valid_inf (by decide) (zero_nsmul _)

theorem mul_one_left {q : Point} (hq : q.Valid) : mul 1 q = q := by
  have := fact_prime_p
  exact mul_eq_of_toE hq hq (by decide) (one_nsmul _)

theorem mul_succ {q : Point} (hq : q.Valid) {k : Nat} (hk : k + 1 < 2 ^ 256) : mul (k + 1) q = add (mul k q) q := by
  have hsum := add_mul_mul hq k 1 hk
  rwa [mul_one_left hq, eq_comm] at hsum

theorem mul_mod_n {q : Point} (hq : q.Valid) {k : Nat} (hk : k < 2 ^ 256) : mul k q = mul (k % Config.n) q := by
  have := fact_prime_p
  have hmod : k % Config.n < 2 ^ 256 := (Nat.mod_le _ _).trans_lt hk
  refine mul_eq_of_toE hq (valid_mul hq _) hk ?_
  rw [(toE_mul hq _ hmod).2, ← card_points, mod_natCard_nsmul]

theorem mul_inf {k : Nat} (hk : k < 2 ^ 256) : mul k .inf = .inf := by
  have := fact_prime_p
  exact mul_eq_of_toE valid_inf valid_inf hk (nsmul_zero _)

/-- (n − 1)·Q = −Q (R114), because n·Q = O. -/
theorem mul_n_sub_one {q : Point} (hq : q.Valid) : mul (Config.n - 1) q = negPoint q := by
  have := fact_prime_p
  obtain ⟨hneg, heq⟩ := toE_negPoint hq
  refine mul_eq_of_toE hq hneg (by decide) ?_
  have hn : (Config.n - 1 + 1) • toE q = 0 := by
    rw [Nat.sub_add_cancel (by decide), ← card_points]
    exact card_nsmul_eq_zero'
  rw [heq]
  exact eq_neg_of_add_eq_zero_left ((succ_nsmul _ _).symm.trans hn)

/-! ### How the point commands end -/

section
variable {s : State} {d a b : PReg} {k : WReg} {q r : Point} {Q : State → Prop}

theorem endsWell_padd (hq : aff (s.getP a) = q) (hr : aff (s.getP b) = r)
    (h : ∀ t : State, t.getP d = norm (add q r) → Q t) : EndsWell (exec (.padd d a b) s) s { p := [d] } Q := by
  subst hq hr
  exact endsWell_putPoint h

theorem endsWell_pdbl (hq : aff (s.getP a) = q) (h : ∀ t : State, t.getP d = norm (dbl q) → Q t) :
    EndsWell (exec (.pdbl d a) s) s { p := [d] } Q := by
  subst hq
  exact endsWell_putPoint h

theorem endsWell_pnorm (hq : aff (s.getP a) = q) (h : ∀ t : State, t.getP d = norm q → Q t) :
    EndsWell (exec (.pnorm d a) s) s { p := [d] } Q := by
  subst hq
  exact endsWell_putPoint h

theorem exec_pmul_on (h : onCurve (aff (s.getP a)) = true) :
    exec (.pmul d a k) s = succeed (s.putPoint d (mul (s.getW k).toNat (aff (s.getP a)))) := if_pos h

theorem exec_pmul_off (h : ¬ onCurve (aff (s.getP a)) = true) : exec (.pmul d a k) s = fail .point s := if_neg h

/-- A command that only answers a question leaves 1 in RES for yes and 0 for no. -/
theorem endsWell_boolWord {v : Bool} {P : Prop} (h : v = true ↔ P) :
    EndsWell (succeed (s.setRes (boolWord v))) s { res := true } fun t =>
      (t.res = 0 ∨ t.res = 1) ∧ (t.res = 1 ↔ P) := by
  refine endsWell_succeed ⟨rfl, rfl⟩ (onlyWrites_setRes s _) ?_
  rw [← h, complete_res, setRes_res]
  cases v <;> decide

end

/-! ### The raw triples and their points (R104, R117, R118) -/

/-- R106 asks the curve equation of a finite point only. -/
theorem onCurve_iff_of_aff (q : Point) : onCurve q = true ↔ ∀ x y, q = .aff x y → CurveEq x y := by
  cases q with
  | inf => simp [onCurve]
  | aff x y => simp [onCurve_iff_curveEq]

theorem reduced_of_aff {t : Triple} {x y : Nat} (h : aff t = .aff x y) : x < Config.p ∧ y < Config.p := by
  have hreduced := aff_reduced t
  rwa [h] at hreduced

/-- The curve equation of (x, y) scaled by z⁶ is an equation in x·z² and y·z³. -/
theorem equation_scale_iff {F : Type*} [Field F] (a b x y : F) {z : F} (hz : z ≠ 0) :
    (y * z ^ 3) ^ 2 - (x * z ^ 2) ^ 3 - a * (x * z ^ 2) * z ^ 4 - b * z ^ 6 = 0 ↔ y ^ 2 - x ^ 3 - a * x - b = 0 := by
  have hscale : (y * z ^ 3) ^ 2 - (x * z ^ 2) ^ 3 - a * (x * z ^ 2) * z ^ 4 - b * z ^ 6
      = z ^ 6 * (y ^ 2 - x ^ 3 - a * x - b) := by ring
  rw [hscale, mul_eq_zero_iff_left (pow_ne_zero 6 hz)]

/-- R106 on the raw triple. -/
theorem onCurve_aff_iff (t : Triple) :
    onCurve (aff t) = true ↔ t.z.toNat % Config.p = 0
      ∨ ((t.y.toNat : Int) ^ 2 - (t.x.toNat : Int) ^ 3 - Config.a * t.x.toNat * t.z.toNat ^ 4
          - Config.b * t.z.toNat ^ 6) % Config.p = 0 := by
  have := fact_prime_p
  by_cases hz : t.z.toNat % Config.p = 0
  · simp [hz, (aff_inf_iff t).2 hz, onCurve]
  · obtain ⟨x, y, haff, -, -, hx, hy⟩ := aff_spec t hz
    have hz0 : (t.z.toNat : ZMod Config.p) ≠ 0 := mt (mod_p_eq_zero_iff _).2 hz
    rw [haff, onCurve_iff_curveEq, CurveEq, emod_p_iff, or_iff_right hz, emod_p_iff]
    push_cast
    rw [← hx, ← hy, equation_scale_iff _ _ _ _ hz0]

/-- Two finite triples stand for one point when their cross products agree. -/
theorem aff_eq_iff_of_finite {t u : Triple} (ht : t.z.toNat % Config.p ≠ 0) (hu : u.z.toNat % Config.p ≠ 0) :
    aff t = aff u ↔ t.x.toNat * u.z.toNat ^ 2 % Config.p = u.x.toNat * t.z.toNat ^ 2 % Config.p
      ∧ t.y.toNat * u.z.toNat ^ 3 % Config.p = u.y.toNat * t.z.toNat ^ 3 % Config.p := by
  have := fact_prime_p
  obtain ⟨x, y, htaff, hxlt, hylt, hx, hy⟩ := aff_spec t ht
  obtain ⟨x', y', huaff, hxlt', hylt', hx', hy'⟩ := aff_spec u hu
  have htz : (t.z.toNat : ZMod Config.p) ≠ 0 := mt (mod_p_eq_zero_iff _).2 ht
  have huz : (u.z.toNat : ZMod Config.p) ≠ 0 := mt (mod_p_eq_zero_iff _).2 hu
  rw [htaff, huaff, Point.aff.injEq, mod_p_eq_iff, mod_p_eq_iff, ← cast_eq_cast_iff hxlt hxlt',
    ← cast_eq_cast_iff hylt hylt']
  push_cast
  rw [← hx, ← hy, ← hx', ← hy', mul_right_comm, mul_left_inj' (pow_ne_zero 2 htz), mul_left_inj' (pow_ne_zero 2 huz),
    mul_right_comm, mul_left_inj' (pow_ne_zero 3 htz), mul_left_inj' (pow_ne_zero 3 huz)]

/-- O equals O only; two finite triples are compared by their cross products. -/
theorem aff_eq_iff (t u : Triple) :
    aff t = aff u ↔ t.z.toNat % Config.p = 0 ∧ u.z.toNat % Config.p = 0
      ∨ t.z.toNat % Config.p ≠ 0 ∧ u.z.toNat % Config.p ≠ 0
        ∧ t.x.toNat * u.z.toNat ^ 2 % Config.p = u.x.toNat * t.z.toNat ^ 2 % Config.p
        ∧ t.y.toNat * u.z.toNat ^ 3 % Config.p = u.y.toNat * t.z.toNat ^ 3 % Config.p := by
  by_cases ht : t.z.toNat % Config.p = 0
  · rw [(aff_inf_iff t).2 ht, eq_comm, aff_inf_iff]
    simp [ht]
  · by_cases hu : u.z.toNat % Config.p = 0
    · rw [(aff_inf_iff u).2 hu, aff_inf_iff]
      simp [ht, hu]
    · simp [aff_eq_iff_of_finite ht hu, ht, hu]

end Machine
end Sys2Proof

section
open Sys2Proof Sys2Proof.Machine

/-- Settles O36: `aff_spec` gives the coordinates of a finite triple in the field. -/
theorem pointNormalise : Obligations.PointNormalise := by
  intro s d a
  refine ⟨fun hz => endsWell_pnorm ((aff_inf_iff _).2 hz) fun t ht => ht, fun hz => ?_⟩
  obtain ⟨x, y, haff, hxlt, hylt, hx, hy⟩ := aff_spec (s.getP a) hz
  obtain ⟨hnx, hny, hnz⟩ := norm_aff hxlt hylt
  refine endsWell_pnorm haff fun t ht => ?_
  rw [ht, hnx, hny, mod_p_eq_iff, mod_p_eq_iff]
  exact ⟨hnz, hxlt, hylt, by exact_mod_cast hx, by exact_mod_cast hy⟩

/-- Settles O37: each clause is one branch of Add on the operands' points. -/
theorem pointAddition : Obligations.PointAddition := by
  intro s d a b
  refine ⟨fun hq => endsWell_padd hq rfl fun t ht => ht, fun hr => endsWell_padd rfl hr fun t ht => ?_,
    fun x1 y1 x2 y2 hq hr => ⟨fun hx => ?_, fun hx hy hy0 => ?_, fun hx hy => ?_⟩⟩
  · rw [ht, add_inf_right]
  · refine endsWell_padd hq hr fun t ht => ?_
    rw [ht]
    exact exists_chord y1 y2 (reduced_of_aff hq).1 (reduced_of_aff hr).1 hx
  · subst hx hy
    refine endsWell_padd hq hr fun t ht => ?_
    rw [ht, ← dbl_eq_add_self]
    exact exists_tangent x1 (reduced_of_aff hq).2 hy0
  · subst hx
    exact endsWell_padd hq hr fun t ht => by rw [ht, add_same_x hy, norm_inf]

/-- Settles O38: each clause is one branch of Dbl on the operand's point. -/
theorem pointDoubling : Obligations.PointDoubling := by
  intro s d a
  refine ⟨fun hq => endsWell_pdbl hq fun t ht => ht, fun x y hq => ⟨fun hy => ?_, fun hy => ?_⟩⟩
  · subst hy
    exact endsWell_pdbl hq fun t ht => by rw [ht, dbl_of_y_zero, norm_inf]
  · refine endsWell_pdbl hq fun t ht => ?_
    rw [ht]
    exact exists_tangent x (reduced_of_aff hq).2 hy

/-- Settles O39: `toE` carries the laws of the elliptic curve's group to the points of the engine. -/
theorem groupLaw : Obligations.GroupLaw := fun q _ _ hq hr hu =>
  ⟨valid_add hq hr, valid_negPoint hq, add_inf_left q, add_negPoint hq, add_comm_of_valid hq hr,
    add_assoc_of_valid hq hr hu, dbl_eq_add_self q⟩

/-- Settles O40: Mul(k, Q) is the group multiple, and the group has n points. -/
theorem scalarMultiple : Obligations.ScalarMultiple := fun _ hq =>
  ⟨mul_zero_left hq, mul_one_left hq, mul_n hq, fun _ hk => mul_succ hq hk, fun _ hk => mul_mod_n hq hk⟩

/-- Settles O41: the two ways PMUL ends, and the corner cases of Mul on a point of the curve. -/
theorem pointMultiplication : Obligations.PointMultiplication := by
  intro s d a k
  refine ⟨fun x y hq hoff => ?_, fun hcurve => ?_⟩
  · rw [exec_pmul_off (by rwa [hq, onCurve_iff_curveEq])]
    exact endsInError_plain s .point
  · have hon := (onCurve_iff_of_aff _).2 hcurve
    have hvalid : (aff (s.getP a)).Valid := ⟨aff_reduced _, hon⟩
    have hk : (s.getW k).toNat < 2 ^ 256 := (s.getW k).isLt
    rw [exec_pmul_on hon]
    refine endsWell_putPoint fun t ht => ⟨ht, ?_, fun he => ?_, fun _ => ?_⟩
    · rintro (he | hinf | he)
      · rw [ht, he, mul_zero_left hvalid, norm_inf]
      · rw [ht, hinf, mul_inf hk, norm_inf]
      · rw [ht, he, mul_n hvalid, norm_inf]
    · rw [ht, he, mul_n_sub_one hvalid]
    · rw [ht, ← mul_mod_n hvalid hk]

/-- Settles O42: R106 of the affine point, on the raw triple. -/
theorem pointCheck : Obligations.PointCheck := fun s a => endsWell_boolWord (onCurve_aff_iff (s.getP a))

/-- Settles O43: the comparison of the two affine points, on the raw triples. -/
theorem pointEquality : Obligations.PointEquality := fun s a b =>
  endsWell_boolWord (decide_eq_true_iff.trans (aff_eq_iff (s.getP a) (s.getP b)))

end
end

section
/-! SUPPORT. The compression family (43_compress.md): the two roots over one abscissa, the root that PDCMP selects, and
each command's outcome in the terms of its rule (O44 to O46). -/

namespace Sys2Proof
namespace Machine

/-! ### The two square roots modulo p (R101) -/

theorem curveRhs_lt (x : Nat) : curveRhs x < Config.p := Nat.mod_lt _ p_pos

theorem onCurve_aff (x y : Nat) : onCurve (.aff x y) = true ↔ y * y % Config.p = curveRhs x := beq_iff_eq

/-- p − r has the square of r. -/
theorem sq_p_sub {r : Nat} (hr : r < Config.p) :
    (Config.p - r) * (Config.p - r) % Config.p = r * r % Config.p := by
  rw [mod_p_eq_iff, Nat.cast_mul, Nat.cast_mul, Nat.cast_sub hr.le, ZMod.natCast_self]
  ring

/-- Two numbers below p with one square are equal or negatives of each other. -/
theorem eq_or_eq_p_sub_of_sq_eq {y r : Nat} (hy : y < Config.p) (hr : r < Config.p)
    (h : y * y % Config.p = r * r % Config.p) : y = r ∨ y = Config.p - r := by
  have := fact_prime_p
  rw [mod_p_eq_iff, Nat.cast_mul, Nat.cast_mul, mul_self_eq_mul_self_iff] at h
  rcases h with heq | hneg
  · exact .inl ((cast_eq_cast_iff hy hr).1 heq)
  · rcases Nat.eq_zero_or_pos r with rfl | hpos
    · rw [Nat.cast_zero, neg_zero, cast_eq_zero_iff hy] at hneg
      exact .inl hneg
    · refine .inr ((cast_eq_cast_iff hy (Nat.sub_lt p_pos hpos)).1 ?_)
      rw [hneg, Nat.cast_sub hr.le, ZMod.natCast_self, zero_sub]

/-- p is odd, so r and p − r have opposite parities. -/
theorem p_sub_mod_two {r : Nat} (hr : r < Config.p) : (Config.p - r) % 2 = 1 - r % 2 := by
  have hodd : Config.p % 2 = 1 := by decide
  omega

/-! ### The root that PDCMP selects (R121) -/

/-- The one of r and p − r with parity `t`. -/
def rootOfParity (r : Nat) (t : Bool) : Nat := if r % 2 = t.toNat then r else Config.p - r

theorem rootOfParity_sq {r : Nat} (hr : r < Config.p) (t : Bool) :
    rootOfParity r t * rootOfParity r t % Config.p = r * r % Config.p := by
  unfold rootOfParity
  split
  · rfl
  · exact sq_p_sub hr

theorem rootOfParity_le {r : Nat} (hr : r < Config.p) (t : Bool) : rootOfParity r t ≤ Config.p := by
  unfold rootOfParity
  split
  · exact hr.le
  · exact Nat.sub_le _ _

theorem rootOfParity_mod_two {r : Nat} (hr : r < Config.p) (t : Bool) : rootOfParity r t % 2 = t.toNat := by
  unfold rootOfParity
  split
  · assumption
  · rename_i hparity
    have ht := t.toNat_lt
    rw [p_sub_mod_two hr]
    omega

/-- A root of the wanted parity is the one selected. -/
theorem eq_rootOfParity {y r : Nat} {t : Bool} (hr : r < Config.p) (h : y = r ∨ y = Config.p - r)
    (hparity : y % 2 = t.toNat) : y = rootOfParity r t := by
  unfold rootOfParity
  rcases h with rfl | rfl
  · rw [if_pos hparity]
  · rw [p_sub_mod_two hr] at hparity
    rw [if_neg (by omega)]

theorem decompressY_eq (x : Nat) (t : Bool) :
    decompressY x t =
      if sqrtModP (curveRhs x) * sqrtModP (curveRhs x) % Config.p ≠ curveRhs x then none
      else if rootOfParity (sqrtModP (curveRhs x)) t = Config.p then none
      else some (rootOfParity (sqrtModP (curveRhs x)) t) := rfl

/-- PDCMP finds exactly the y below p on the curve over x with parity T. -/
theorem decompressY_eq_some_iff (x y : Nat) (t : Bool) :
    decompressY x t = some y ↔ y < Config.p ∧ onCurve (.aff x y) = true ∧ y % 2 = t.toNat := by
  have hroot := sqrtModP_lt (curveRhs x)
  rw [decompressY_eq, onCurve_aff, Option.ite_none_left_eq_some, Option.ite_none_left_eq_some, Option.some.injEq,
    not_not]
  constructor
  · rintro ⟨hsq, hne, rfl⟩
    exact ⟨lt_of_le_of_ne (rootOfParity_le hroot t) hne, (rootOfParity_sq hroot t).trans hsq,
      rootOfParity_mod_two hroot t⟩
  · rintro ⟨hy, hcurve, hparity⟩
    have hsq := (sqrtModP_sq_iff (curveRhs_lt x)).2 ⟨y, hcurve⟩
    have hselected : y = rootOfParity (sqrtModP (curveRhs x)) t :=
      eq_rootOfParity hroot (eq_or_eq_p_sub_of_sq_eq hy hroot (hcurve.trans hsq.symm)) hparity
    exact ⟨hsq, by rw [← hselected]; exact hy.ne, hselected.symm⟩

theorem decompressY_eq_none {x : Nat} {t : Bool}
    (h : ¬ ∃ y, y < Config.p ∧ onCurve (.aff x y) = true ∧ y % 2 = t.toNat) : decompressY x t = none := by
  rw [Option.eq_none_iff_forall_ne_some]
  exact fun y hy => h ⟨y, (decompressY_eq_some_iff x y t).1 hy⟩

/-! ### How PCOMP and PDCMP end -/

/-- RES of PCOMP (R120), by the parity of y. -/
theorem ofNat_compressPrefix (y : Nat) : BitVec.ofNat 32 (compressPrefix y) = if y % 2 = 0 then 2 else 3 := by
  rcases Nat.mod_two_eq_zero_or_one y with hmod | hmod <;> simp [compressPrefix, hmod]

/-- T = RES − 2 is the parity of y (R122). -/
theorem tag_of_res {y : Nat} {v : Word32} (h : v = if y % 2 = 0 then 2 else 3) : y % 2 = (v == 3).toNat := by
  subst h
  rcases Nat.mod_two_eq_zero_or_one y with hmod | hmod <;> simp [hmod]

section
variable {s : State}

theorem exec_pcomp_inf {d : WReg} {a : PReg} (h : aff (s.getP a) = .inf) : exec (.pcomp d a) s = fail .inf s := by
  simp only [exec, execPcomp, State.point, h]

theorem exec_pcomp_aff {d : WReg} {a : PReg} {x y : Nat} (h : aff (s.getP a) = .aff x y) :
    exec (.pcomp d a) s = succeed ((s.putW d x).setRes (BitVec.ofNat 32 (compressPrefix y))) := by
  simp only [exec, execPcomp, State.point, h]

theorem onlyWrites_putW_setRes (d : WReg) (v : Nat) (r : Word32) :
    OnlyWrites { w := [d], res := true } s (complete ((s.putW d v).setRes r)) :=
  ⟨fun j hj => getW_putW_ne s v (by simpa using hj), by simp⟩

/-- PDCMP of an x with a y of the wanted parity leaves the normal form of (x, y) and writes nothing else. -/
theorem endsWell_pdcmp {d : PReg} {w : WReg} {t : Bool} {y : Nat} {Q : State → Prop}
    (hv : (Point.aff (s.getW w).toNat y).Valid) (hparity : y % 2 = t.toNat)
    (h : ∀ u : State, u.getP d = norm (.aff (s.getW w).toNat y) → Q u) :
    EndsWell (exec (.pdcmp d w t) s) s { p := [d] } Q := by
  obtain ⟨⟨hx, hy⟩, hcurve⟩ := hv
  have hsome : decompressY (s.natW w) t = some y := (decompressY_eq_some_iff _ y t).2 ⟨hy, hcurve, hparity⟩
  have hinRange : ¬ s.natW w ≥ Config.p := Nat.not_le.2 hx
  have hexec : exec (.pdcmp d w t) s = succeed (s.putPoint d (.aff (s.natW w) y)) := by
    simp only [exec, execPdcmp, if_neg hinRange, hsome]
  rw [hexec]
  exact endsWell_putPoint h

/-- PDCMP of an x over which no point has the wanted parity. -/
theorem exec_pdcmp_none {d : PReg} {w : WReg} {t : Bool}
    (h : ¬ ∃ y, (Point.aff (s.getW w).toNat y).Valid ∧ y % 2 = t.toNat) :
    exec (.pdcmp d w t) s = fail .decode s := by
  by_cases hx : s.natW w ≥ Config.p
  · simp only [exec, execPdcmp, if_pos hx]
  · have hnone : decompressY (s.natW w) t = none :=
      decompressY_eq_none fun ⟨y, hy, hcurve, hparity⟩ => h ⟨y, ⟨⟨Nat.not_le.1 hx, hy⟩, hcurve⟩, hparity⟩
    simp only [exec, execPdcmp, if_neg hx, hnone]

end

end Machine
end Sys2Proof

section
open Sys2Proof Sys2Proof.Machine

/-- Settles O44: the two branches of PCOMP on the operand's point. -/
theorem compress : Obligations.Compress := by
  intro s d a
  refine ⟨fun hinf => ?_, fun x y haff => ?_⟩
  · rw [exec_pcomp_inf hinf]
    exact endsInError_plain s .inf
  · rw [exec_pcomp_aff haff]
    refine endsWell_succeed ⟨rfl, rfl⟩ (onlyWrites_putW_setRes d x _) ⟨?_, ofNat_compressPrefix y⟩
    exact natW_putW_self s d x ((reduced_of_aff haff).1.trans p_lt)

/-- Settles O45: `decompressY` finds exactly the y of the wanted parity on the curve over x. -/
theorem decompress : Obligations.Decompress := by
  intro s d x tag
  refine ⟨fun y hx hy hcurve hparity => ?_, fun hno => ?_⟩
  · refine endsWell_pdcmp ⟨⟨hx, hy⟩, (onCurve_iff_curveEq _ _).2 hcurve⟩ hparity fun t ht => ?_
    rw [ht]
    exact norm_aff hx hy
  · rw [exec_pdcmp_none fun ⟨y, ⟨⟨hx, hy⟩, hon⟩, hparity⟩ =>
      hno ⟨y, hx, hy, (onCurve_iff_curveEq _ _).1 hon, hparity⟩]
    exact endsInError_plain s .decode

/-- Settles O46: PCOMP leaves x and the parity of y, and y is the one PDCMP finds for them. -/
theorem compressRoundTrip : Obligations.CompressRoundTrip := by
  intro s i b d x y haff hcurve
  obtain ⟨c, hpcomp, hsucc, -, hx, hres⟩ := (compress s i b).2 x y haff
  have hvalid : (Point.aff (c.getW i).toNat y).Valid := by
    rw [hx]
    exact ⟨reduced_of_aff haff, (onCurve_iff_curveEq x y).2 hcurve⟩
  obtain ⟨t, hpdcmp, hsucc', -, hpoint⟩ := endsWell_pdcmp (d := d) hvalid (tag_of_res hres) fun u hu => hu
  exact ⟨c, t, hpcomp, hpdcmp, hsucc, hsucc', by rw [hpoint, hx]⟩

end
end

section
/-! SUPPORT. The key family (44_keys.md): how a drawing command ends, the pair KEYGEN writes and why it is valid, and
each command's outcome in the terms of its rule (O47 to O49). -/

namespace Sys2Proof
namespace Machine

/-! ### How a drawing command ends (40_control.md R87) -/

section
variable {α : Type} {s : State} {lo hi : Nat} {attempt : Nat → Except ErrCode (Option α)}

theorem drawStep_inside {v : U256} (h : lo ≤ v.toNat ∧ v.toNat ≤ hi) :
    drawStep lo hi attempt v = attempt v.toNat := if_pos h

theorem drawStep_outside {v : U256} (h : ¬ (lo ≤ v.toNat ∧ v.toNat ≤ hi)) :
    drawStep lo hi attempt v = .ok none := if_neg h

/-- The first accepted request's result is written, and the port's words up to it are used. -/
theorem concludeDraw_first (writes : α → State → State) (h0 : s.draws = 0) {j : Nat} {r : α} (hj : j < 64)
    (hr : drawStep lo hi attempt (s.rngAt j) = .ok (some r))
    (hn : ∀ k < j, drawStep lo hi attempt (s.rngAt k) = .ok none) :
    concludeDraw s (s.takeDraws lo hi attempt) writes = complete (writes r (s.consume (j + 1))) := by
  rw [takeDraws_first h0 hj hr hn, concludeDraw]

theorem onlyWrites_raiseError_consume (s : State) (e : ErrCode) (k : Nat) :
    OnlyWrites { rng := true } s (raiseError e (s.consume k)) := by
  simp [OnlyWrites]

/-- RETRY_MAX rejected requests end the command in ERR_RETRY, and all their words are used. -/
theorem endsInError_retry (writes : α → State → State) (h0 : s.draws = 0)
    (hn : ∀ k < 64, drawStep lo hi attempt (s.rngAt k) = .ok none) :
    EndsInError (.next (concludeDraw s (s.takeDraws lo hi attempt) writes)) s 12 { rng := true }
      fun t => t.rng = s.rng.drop 64 := by
  rw [takeDraws_none h0 hn, concludeDraw]
  exact endsInError_fail (e := .retry) (onlyWrites_raiseError_consume s .retry 64) rfl

end

/-! ### The pair KEYGEN writes (44_keys.md R125) -/

/-- The end of a KEYGEN that has drawn `v` with its `k`-th request. -/
def keygenDone (s : State) (d : WReg) (q : PReg) (k : Nat) (v : U256) : State :=
  complete (((s.consume k).putW d v.toNat).putPoint q (mul v.toNat basePoint))

section
variable (s : State) (d : WReg) (q : PReg) (k : Nat) (v : U256)

@[simp] theorem getW_keygenDone : (keygenDone s d q k v).getW d = v := by simp [keygenDone]

@[simp] theorem getP_keygenDone : (keygenDone s d q k v).getP q = norm (mul v.toNat basePoint) := by
  simp [keygenDone]

@[simp] theorem keygenDone_rng : (keygenDone s d q k v).rng = s.rng.drop k := rfl

theorem onlyWrites_keygenDone : OnlyWrites { w := [d], p := [q], rng := true } s (keygenDone s d q k v) := by
  refine ⟨fun j hj => ?_, fun j hj => ?_, by simp [keygenDone]⟩
  · exact getW_putW_ne (s.consume k) v.toNat (by simpa using hj)
  · exact getP_putPoint_ne ((s.consume k).putW d v.toNat) _ (by simpa using hj)

end

section
variable {s t : State} {d : WReg} {q : PReg}

/-- KEYGEN takes the first word in [1, n − 2]. -/
theorem exec_keygen_first {j : Nat} (h0 : s.draws = 0)
    (h : FirstGood (fun v => 1 ≤ v.toNat ∧ v.toNat ≤ Config.n - 2) s j) :
    exec (.keygen d q) s = .next (keygenDone s d q (j + 1) (s.rngAt j)) := by
  obtain ⟨hj, hgood, hbad⟩ := h
  have haccept : drawStep 1 (Config.n - 2) (fun v => .ok (some v)) (s.rngAt j) = .ok (some (s.rngAt j).toNat) :=
    drawStep_inside hgood
  exact congrArg _ (concludeDraw_first _ h0 hj haccept fun k hk => drawStep_outside (hbad k hk))

/-- All that KEYGEN can do, whatever the draw counter: it writes a pair with d in [1, n − 2], or ends in ERR_RETRY. -/
theorem exec_keygen_cases (h : exec (.keygen d q) s = .next t) :
    (∃ k v, 1 ≤ v.toNat ∧ v.toNat ≤ Config.n - 2 ∧ t = keygenDone s d q k v)
      ∨ ∃ k, t = raiseError .retry (s.consume k) := by
  obtain rfl := Host.Outcome.next.inj h
  obtain ⟨-, ⟨j, r, hout, hlo, hhi, hr⟩ | ⟨_, _, _, _, _, herr⟩ | hout⟩ :=
    takeDraws_cases s 1 (Config.n - 2) fun v => .ok (some v)
  · obtain rfl : (s.rngAt j).toNat = r := by simpa using hr
    exact .inl ⟨_, s.rngAt j, hlo, hhi, by rw [concludeDraw, hout, keygenDone]⟩
  · cases herr
  · exact .inr ⟨_, by rw [concludeDraw, hout]⟩

end

/-- The normal form of a multiple of G by 1 ≤ k < n is a valid key (R123). -/
theorem goodKey_norm_mul {k : Nat} (h1 : 1 ≤ k) (h2 : k < Config.n) : GoodKey (norm (mul k basePoint)) := by
  have hvalid := valid_mul valid_basePoint k
  obtain ⟨x, y, hmul, -⟩ := mul_basePoint_words k h1 h2
  rw [hmul] at hvalid ⊢
  exact goodKey_norm hvalid

end Machine
end Sys2Proof

section
open Sys2Proof Sys2Proof.Machine

/-- Settles O47: R123's predicate on the raw triple. -/
theorem keyCheck : Obligations.KeyCheck := fun s a => endsWell_boolWord (keyValid_iff (s.getP a))

/-- Settles O48: the first accepted request is the first word in [1, n − 2]. -/
theorem keyGeneration : Obligations.KeyGeneration := by
  intro s d q h0
  refine ⟨fun j hfirst => ?_, fun hnone => ?_⟩
  · exact ⟨_, exec_keygen_first h0 hfirst, ⟨rfl, rfl, rfl, rfl, rfl⟩, onlyWrites_keygenDone .., by simp⟩
  · exact endsInError_retry _ h0 fun k hk => drawStep_outside (hnone k hk)

/-- Settles O49: a multiple of G by 1 ≤ d ≤ n − 2 is a finite point of the curve, written in normal form. -/
theorem generatedKeysAreValid : Obligations.GeneratedKeysAreValid := by
  intro s t d q _ hkeygen herr
  obtain ⟨k, v, hlo, hhi, rfl⟩ | ⟨k, rfl⟩ := exec_keygen_cases hkeygen
  · obtain ⟨u, hkeychk, hsucc, hframe, -, hres⟩ := keyCheck (keygenDone s d q k v) q
    have hlt : v.toNat < Config.n := hhi.trans_lt (by decide)
    rw [getW_keygenDone]
    rw [getP_keygenDone] at hres
    exact ⟨hlo, hhi, u, hkeychk, hsucc, hframe, hres.2 (goodKey_norm_mul hlo hlt)⟩
  · cases herr

end
end

section
/-! SUPPORT. The hash family (45_hash_kdf.md): the region checks in the spec's own terms, and the one form that HASH and
KDF share: region checks, the input read, a string given byte by byte written at DST with its length in OUTLEN (O50,
O51). -/

namespace Sys2Proof
namespace Machine

/-! ### The region checks (20_memory.md R57) -/

theorem inBounds_iff_inDmem (a l : Nat) : inBounds a l = true ↔ InDmem a l := inBounds_iff a l

theorem not_overlap_iff (a1 l1 a2 l2 : Nat) : (!overlap a1 l1 a2 l2) = true ↔ ¬ Overlaps a1 l1 a2 l2 := by
  rw [← overlap_iff, Bool.not_eq_true', Bool.not_eq_true]

section
variable (s : State)

theorem hashRegionsOk_iff :
    hashRegionsOk s = true ↔ InDmem s.src.toNat s.slen.toNat ∧ 32 ≤ s.dlen.toNat ∧ InDmem s.dst.toNat 32
      ∧ ¬ Overlaps s.src.toNat s.slen.toNat s.dst.toNat 32 := by
  simp only [hashRegionsOk, Bool.and_eq_true, inBounds_iff_inDmem, decide_eq_true_eq, not_overlap_iff, and_assoc]

theorem kdfRegionsOk_iff :
    kdfRegionsOk s = true ↔ InDmem s.src.toNat s.slen.toNat ∧ InDmem s.dst.toNat s.dlen.toNat
      ∧ ¬ Overlaps s.src.toNat s.slen.toNat s.dst.toNat s.dlen.toNat := by
  simp only [kdfRegionsOk, Bool.and_eq_true, inBounds_iff_inDmem, not_overlap_iff, and_assoc]

end

/-! ### The form of HASH and KDF -/

theorem Memory.read?_storeAll_map_range (m : Memory) (a : Nat) (g : Nat → Byte) {l i : Nat} (h : i < l) :
    (m.storeAll a ((List.range l).map g)).read? (a + i) = some (g i) := by
  rw [Memory.read?_storeAll_inside _ _ _ _ (by simpa using h), List.getElem_map, List.getElem_range]

/-- The command that, with its regions good, reads the input and writes `l` bytes at DST, byte i being `f` of the input
and i, and `l` in OUTLEN. -/
def fillFromInput (s : State) (regionsOk : Bool) (f : List Byte → Nat → Byte) (l : Nat) :
    Host.Outcome State Fault Refusal :=
  if regionsOk then
    withRead s s.src.toNat s.slen.toNat fun m =>
      succeed ((s.memWrite s.dst.toNat ((List.range l).map (f m))).setOutlen l)
  else fail .bounds s

theorem exec_hash_eq (s : State) : exec .hash s = fillFromInput s (hashRegionsOk s) digestByte 32 := by
  simp only [exec, execHash, hash_eq, fillFromInput]

/-- DLEN is a 32-bit word, so the error branch of KDF is never met (R129). -/
theorem exec_kdf_eq (s : State) : exec .kdf s = fillFromInput s (kdfRegionsOk s) maskByte s.dlen.toNat := by
  simp only [exec, execKdf, kdf_eq _ _ s.dlen.isLt, fillFromInput]

section
variable {s : State} {regionsOk : Bool} {Good : Prop} (f : List Byte → Nat → Byte) (l : Nat)
  (h : regionsOk = true ↔ Good)
include h

theorem endsInError_fillFromInput (hbad : ¬ Good) :
    EndsInError (fillFromInput s regionsOk f l) s 2 {} fun _ => True := by
  rw [fillFromInput, if_neg (mt h.1 hbad)]
  exact endsInError_plain s .bounds

theorem fillFromInput_good (hgood : Good) :
    fillFromInput s regionsOk f l = withRead s s.src.toNat s.slen.toNat fun m =>
      succeed ((s.memWrite s.dst.toNat ((List.range l).map (f m))).setOutlen l) :=
  if_pos (h.2 hgood)

theorem fillFromInput_unwritten (hgood : Good) (hread : s.readable s.src.toNat s.slen.toNat = false) :
    fillFromInput s regionsOk f l = .fault .dmemUnwritten := by
  rw [fillFromInput_good f l h hgood, withRead, if_neg (ne_true_of_eq_false hread)]

theorem endsWell_fillFromInput (hgood : Good) (hread : s.readable s.src.toNat s.slen.toNat = true) :
    EndsWell (fillFromInput s regionsOk f l) s { outlen := true, mem := (s.dst.toNat, l) } fun t =>
      t.outlen = BitVec.ofNat 32 l
        ∧ ∀ i < l, t.dmem.read? (s.dst.toNat + i) = some (f (s.memRead s.src.toNat s.slen.toNat) i) := by
  rw [fillFromInput_good f l h hgood, withRead_eq _ _ _ _ hread]
  exact endsWell_succeed ⟨rfl, rfl⟩ (onlyWrites_memWrite s _ l _ l (by simp))
    ⟨rfl, fun i hi => Memory.read?_storeAll_map_range s.dmem _ _ hi⟩

end

end Machine
end Sys2Proof

section
open Sys2Proof Sys2Proof.Machine

/-- Settles O50: HASH is `fillFromInput` with the bytes of the digest. -/
theorem hashCommand : Obligations.HashCommand := by
  intro s
  have hregions := hashRegionsOk_iff s
  rw [exec_hash_eq]
  refine ⟨endsInError_fillFromInput _ _ hregions, fillFromInput_unwritten _ _ hregions, fun hgood hread => ?_⟩
  obtain ⟨t, hexec, hsucc, hframe, houtlen, hbytes⟩ := endsWell_fillFromInput digestByte 32 hregions hgood hread
  exact ⟨t, hexec, hsucc, hframe, by rw [houtlen]; rfl, hbytes⟩

/-- Settles O51: KDF is `fillFromInput` with the bytes of R128, and DLEN is a word, so OUTLEN holds it. -/
theorem kdfCommand : Obligations.KdfCommand := by
  intro s
  have hregions := kdfRegionsOk_iff s
  rw [exec_kdf_eq]
  refine ⟨endsInError_fillFromInput _ _ hregions, fillFromInput_unwritten _ _ hregions, fun hgood hread => ?_⟩
  obtain ⟨t, hexec, hsucc, hframe, houtlen, hbytes⟩ :=
    endsWell_fillFromInput maskByte s.dlen.toNat hregions hgood hread
  exact ⟨t, hexec, hsucc, hframe, by rw [houtlen, BitVec.ofNat_toNat, BitVec.setWidth_eq], hbytes⟩

end
end

section
/-! SUPPORT. The ECIES family (46_ecies.md): the checks of ENC and DEC as one case split each, how the two commands
end once their checks pass, the ciphertext read back by DEC, and DEC after ENC (O52 to O55). -/

namespace Sys2Proof
namespace Machine

/-! ### Strings in DMEM -/

theorem Memory.read?_storeAll_getElem? (m : Memory) (a : Nat) {bs : List Byte} {i : Nat} (h : i < bs.length) :
    (m.storeAll a bs).read? (a + i) = bs[i]? := by
  rw [Memory.read?_storeAll_inside _ _ _ _ h, List.getElem?_eq_getElem h]

theorem memRead_getElem? (s : State) (a : Nat) {k i : Nat} (h : i < k) :
    (s.memRead a k)[i]? = some (s.dmemByte (a + i)) := by simp [State.memRead, h]

/-! ### The checks (R133, R134) -/

theorem endsInError_of_fail {i : Instr} {s : State} {e : ErrCode} (h : exec i s = fail e s) :
    EndsInError (exec i s) s e.code {} fun _ => True := h ▸ endsInError_plain s e

section
variable (s : State) (l : Nat)

/-- The output region of `l` bytes at DST has room, is in bounds and does not overlap the input region. -/
def outputRegionOk : Bool :=
  decide (l ≤ s.dlen.toNat) && inBounds s.dst.toNat l && !overlap s.src.toNat s.slen.toNat s.dst.toNat l

theorem outputRegionOk_iff :
    outputRegionOk s l = true ↔ l ≤ s.dlen.toNat ∧ InDmem s.dst.toNat l
      ∧ ¬ Overlaps s.src.toNat s.slen.toNat s.dst.toNat l := by
  simp only [outputRegionOk, Bool.and_eq_true, inBounds_iff_inDmem, decide_eq_true_eq, not_overlap_iff, and_assoc]

/-- The two checks of the output region that ENC and DEC share, as one. -/
theorem outputChecks_eq (rest : Option ErrCode) :
    (if s.dlen.toNat < l || !inBounds s.dst.toNat l then some .bounds
      else if overlap s.src.toNat s.slen.toNat s.dst.toNat l then some .bounds else rest)
      = if outputRegionOk s l then rest else some .bounds := by
  unfold outputRegionOk
  by_cases hroom : l ≤ s.dlen.toNat
  · cases inBounds s.dst.toNat l <;> cases overlap s.src.toNat s.slen.toNat s.dst.toNat l <;>
      simp [hroom, Nat.not_lt.2 hroom]
  · simp [hroom, Nat.not_le.1 hroom]

theorem encCheck_eq (key : PReg) :
    encCheck key s =
      if inBounds s.src.toNat s.slen.toNat && outputRegionOk s (97 + s.slen.toNat) then
        if keyValid (s.getP key) then none else some .key
      else some .bounds := by
  rw [encCheck, outputChecks_eq]
  cases inBounds s.src.toNat s.slen.toNat <;> cases keyValid (s.getP key) <;> rfl

theorem encRegions_iff :
    (inBounds s.src.toNat s.slen.toNat && outputRegionOk s (97 + s.slen.toNat)) = true ↔
      InDmem s.src.toNat s.slen.toNat ∧ 97 + s.slen.toNat ≤ s.dlen.toNat ∧ InDmem s.dst.toNat (97 + s.slen.toNat)
        ∧ ¬ Overlaps s.src.toNat s.slen.toNat s.dst.toNat (97 + s.slen.toNat) := by
  rw [Bool.and_eq_true, inBounds_iff_inDmem, outputRegionOk_iff]

theorem decCheck_eq (key : WReg) :
    decCheck key s =
      if inBounds s.src.toNat s.slen.toNat then
        if s.slen.toNat < 97 then some .decode
        else if outputRegionOk s (s.slen.toNat - 97) then if privValid (s.natW key) then none else some .key
        else some .bounds
      else some .bounds := by
  rw [decCheck, outputChecks_eq]
  cases inBounds s.src.toNat s.slen.toNat <;> cases privValid (s.natW key) <;> rfl

end

/-! ### How ENC ends -/

/-- The end of an ENC that has drawn its nonce with its `k`-th request and made the ciphertext `ct`. -/
def encDone (s : State) (k : Nat) (ct : List Byte) : State :=
  complete (((s.consume k).memWrite s.dst.toNat ct).setOutlen (97 + s.slen.toNat))

theorem toNat_outlen_encDone (s : State) (k : Nat) (ct : List Byte) (h : InDmem s.dst.toNat (97 + s.slen.toNat)) :
    (encDone s k ct).outlen.toNat = 97 + s.slen.toNat :=
  (BitVec.toNat_ofNat ..).trans (Nat.mod_eq_of_lt (by unfold InDmem at h; omega))

theorem memRead_encDone (s : State) (k : Nat) (ct : List Byte) :
    (encDone s k ct).memRead s.dst.toNat ct.length = ct := memRead_memWrite (s.consume k) s.dst.toNat ct

theorem readable_encDone (s : State) (k : Nat) (ct : List Byte) :
    (encDone s k ct).readable s.dst.toNat ct.length = true := readable_memWrite (s.consume k) s.dst.toNat ct

section
variable {s : State} {key : PReg} {tm : CipherMode}

theorem endsWell_encDone {k : Nat} {ct : List Byte} (hct : ct.length = 97 + s.slen.toNat)
    (hdst : InDmem s.dst.toNat (97 + s.slen.toNat)) :
    EndsWell (.next (encDone s k ct)) s
      { outlen := true, mem := (s.dst.toNat, 97 + s.slen.toNat), rng := true } fun t =>
        t.outlen.toNat = 97 + s.slen.toNat ∧ t.rng = s.rng.drop k
          ∧ ∀ i < 97 + s.slen.toNat, t.dmem.read? (s.dst.toNat + i) = ct[i]? := by
  have hframe : OnlyWrites { outlen := true, mem := (s.dst.toNat, 97 + s.slen.toNat), rng := true } s
      (encDone s k ct) := by
    refine ⟨fun _ _ => rfl, fun _ _ => rfl, fun _ => rfl, by simp, fun _ => ⟨rfl, rfl⟩, fun a ha => ?_, by simp, ?_⟩
    · exact Memory.read?_storeAll_outside _ _ _ _ (by rwa [hct])
    · simp [encDone]
  exact ⟨_, rfl, ⟨rfl, rfl, rfl, rfl, rfl⟩, hframe, toNat_outlen_encDone s k ct hdst, rfl,
    fun i hi => Memory.read?_storeAll_getElem? _ _ (by rwa [hct])⟩

theorem exec_enc_fail {e : ErrCode} (h : encCheck key s = some e) : exec (.enc key tm) s = fail e s := by
  simp only [exec, execEnc, h]

/-- With its checks passed, ENC reads the message and draws. -/
theorem exec_enc_read (h : encCheck key s = none) :
    exec (.enc key tm) s = withRead s s.src.toNat s.slen.toNat fun m =>
      .next (concludeDraw s (s.takeDraws 1 (Config.n - 1) (encAttempt (s.rawKey key) tm m)) fun c u =>
        (u.memWrite s.dst.toNat c).setOutlen (97 + s.slen.toNat)) := by
  simp only [exec, execEnc, h]

theorem exec_enc_unwritten (h : encCheck key s = none) (hread : s.readable s.src.toNat s.slen.toNat = false) :
    exec (.enc key tm) s = .fault .dmemUnwritten := by
  rw [exec_enc_read h, withRead, if_neg (ne_true_of_eq_false hread)]

section
variable (h0 : s.draws = 0) (hcheck : encCheck key s = none) (hkey : GoodKey (s.getP key))
  (hread : s.readable s.src.toNat s.slen.toNat = true)
include h0 hcheck hkey hread

theorem endsInError_enc_retry (h : NoneGood (encNonce (s.getP key) s.slen.toNat) s) :
    EndsInError (exec (.enc key tm) s) s 12 { rng := true } fun t => t.rng = s.rng.drop 64 := by
  have hm : (s.memRead s.src.toNat s.slen.toNat).length = s.slen.toNat := length_memRead ..
  rw [exec_enc_read hcheck, withRead_eq _ _ _ _ hread]
  rw [← hm] at h
  exact endsInError_retry _ h0 fun i hi => drawStep_enc_bad hkey tm (hm.trans_lt s.slen.isLt) (h i hi)

/-- ENC takes the first good nonce, and its attempt gives the ciphertext of R132. -/
theorem exec_enc_first {j : Nat} (h : FirstGood (encNonce (s.getP key) s.slen.toNat) s j) :
    ∃ x1 y1 x2 y2 : U256, mul (s.rngAt j).toNat basePoint = .aff x1.toNat y1.toNat
      ∧ mul (s.rngAt j).toNat (s.rawKey key) = .aff x2.toNat y2.toNat
      ∧ exec (.enc key tm) s = .next
          (encDone s (j + 1) (cipherText tm x1 y1 x2 y2 (s.memRead s.src.toNat s.slen.toNat))) := by
  have hm : (s.memRead s.src.toNat s.slen.toNat).length = s.slen.toNat := length_memRead ..
  have hlt : (s.memRead s.src.toNat s.slen.toNat).length < 2 ^ 32 := hm.trans_lt s.slen.isLt
  rw [← hm] at h
  obtain ⟨hj, hgood, hbad⟩ := h
  obtain ⟨x1, y1, x2, y2, hC1, hshared, hdraw⟩ := drawStep_enc_good tm hlt hgood
  refine ⟨x1, y1, x2, y2, hC1, hshared, ?_⟩
  rw [exec_enc_read hcheck, withRead_eq _ _ _ _ hread]
  exact congrArg _ (concludeDraw_first _ h0 hj hdraw fun i hi => drawStep_enc_bad hkey tm hlt (hbad i hi))

end

end

theorem length_cipherText (tm : CipherMode) (x1 y1 x2 y2 : U256) (m : List Byte) :
    (cipherText tm x1 y1 x2 y2 m).length = 97 + m.length := by
  cases tm <;> simp [cipherText] <;> omega

/-! ### The ciphertext as DEC reads it (R134) -/

/-- The message DEC takes from a ciphertext with the shared point (x2, y2). -/
def unmasked (tm : CipherMode) (ct : List Byte) (x2 y2 : U256) : List Byte :=
  xorBytes (cipherC2 tm ct) ((List.range (ct.length - 97)).map (maskByte (be256 x2 ++ be256 y2)))

theorem unmasked_eq_map (tm : CipherMode) {ct : List Byte} (x2 y2 : U256) (h : 97 ≤ ct.length) :
    unmasked tm ct x2 y2 = (List.range (ct.length - 97)).map fun i =>
      (cipherC2 tm ct).getD i 0 ^^^ maskByte (be256 x2 ++ be256 y2) i := by
  rw [unmasked, ← length_cipherC2 tm ct h, xorBytes_eq_map]

section
variable {d : Nat} {tm : CipherMode} {ct : List Byte} {x1 y1 x2 y2 : U256}
  (hcoords : (ct.drop 1).take 64 = be256 x1 ++ be256 y1)
include hcoords

theorem decrypt_undecodable (h : ct[0]? ≠ some 0x04 ∨ Config.p ≤ x1.toNat ∨ Config.p ≤ y1.toNat) :
    decrypt d tm ct = .error .decode := by
  obtain ⟨hx, hy⟩ := cipher_coords hcoords
  simp only [decrypt, hx, hy]
  rcases h with hfirst | hrange
  · rw [if_pos hfirst]
  · rw [if_pos hrange, ite_self]

variable (h0 : ct[0]? = some 0x04) (hx1 : x1.toNat < Config.p) (hy1 : y1.toNat < Config.p)
include h0 hx1 hy1

theorem decrypt_off_curve (hcurve : ¬ CurveEq x1.toNat y1.toNat) : decrypt d tm ct = .error .invCt := by
  obtain ⟨hx, hy⟩ := cipher_coords hcoords
  simp only [decrypt, hx, hy]
  rw [if_neg (not_not_intro h0), if_neg (by omega), if_pos]
  rw [Bool.not_eq_true', ← Bool.not_eq_true]
  exact mt (onCurve_iff_curveEq _ _).1 hcurve

theorem decrypt_on_curve (hcurve : CurveEq x1.toNat y1.toNat) (hlen : ct.length < 2 ^ 32)
    (hmul : mul d (.aff x1.toNat y1.toNat) = .aff x2.toNat y2.toNat) :
    decrypt d tm ct =
      .ok (if integrityDigest (.aff x2.toNat y2.toNat) (unmasked tm ct x2 y2) = cipherC3 tm ct
        then some (unmasked tm ct x2 y2) else none) := by
  obtain ⟨hx, hy⟩ := cipher_coords hcoords
  have hmask := kdf_eq (be256 x2 ++ be256 y2) (ct.length - 97) ((Nat.sub_le _ _).trans_lt hlen)
  simp only [decrypt, hx, hy]
  rw [if_neg (not_not_intro h0), if_neg (by omega), if_neg (by simpa [onCurve_iff_curveEq] using hcurve), hmul]
  simp only [sharedBytes_eq, hmask]
  rfl

end

/-! ### The ciphertext of R132 read back -/

theorem slice_middle {a b c : List Byte} {i j : Nat} (hi : a.length = i) (hj : i + b.length = j) :
    slice (a ++ b ++ c) i j = b := by
  subst hi hj
  simp [slice]

section
variable (tm : CipherMode) {c1 c3 : List Byte} (c2 : List Byte) (h1 : c1.length = 65) (h3 : c3.length = 32)
include h1 h3

theorem length_layout : (layout tm c1 c2 c3).length = 97 + c2.length := by
  cases tm <;> simp only [layout, List.length_append] <;> omega

theorem cipherC2_layout : cipherC2 tm (layout tm c1 c2 c3) = c2 := by
  have hlen := length_layout tm c2 h1 h3
  cases tm with
  | c1c3c2 =>
    have := slice_middle (a := c1 ++ c3) (b := c2) (c := []) (i := 97) (by simp [h1, h3]) hlen.symm
    rwa [List.append_nil] at this
  | c1c2c3 => exact slice_middle h1 (by rw [hlen]; omega)

theorem cipherC3_layout : cipherC3 tm (layout tm c1 c2 c3) = c3 := by
  have hlen := length_layout tm c2 h1 h3
  cases tm with
  | c1c3c2 => exact slice_middle h1 (by omega)
  | c1c2c3 =>
    have hC3 : 65 + ((layout .c1c2c3 c1 c2 c3).length - 97) + c3.length = (layout .c1c2c3 c1 c2 c3).length := by omega
    have := slice_middle (a := c1 ++ c2) (b := c3) (c := []) (by rw [List.length_append, h1]; omega) hC3
    rwa [List.append_nil] at this

end

section
variable (tm : CipherMode) (x1 y1 x2 y2 : U256) (m : List Byte)

theorem cipherText_eq_layout :
    cipherText tm x1 y1 x2 y2 m
      = layout tm (0x04 :: (be256 x1 ++ be256 y1))
          (xorBytes m ((List.range m.length).map (maskByte (be256 x2 ++ be256 y2))))
          ((List.range 32).map (digestByte (be256 x2 ++ m ++ be256 y2))) := by
  cases tm <;> simp only [cipherText, layout, xorBytes_eq_map]

theorem cipherText_getElem?_zero : (cipherText tm x1 y1 x2 y2 m)[0]? = some 0x04 := by cases tm <;> rfl

theorem cipherText_coords : ((cipherText tm x1 y1 x2 y2 m).drop 1).take 64 = be256 x1 ++ be256 y1 := by
  rw [cipherText_eq_layout]
  cases tm <;>
    · rw [layout, List.append_assoc]
      exact List.take_left' (by simp)

theorem cipherC2_cipherText :
    cipherC2 tm (cipherText tm x1 y1 x2 y2 m)
      = xorBytes m ((List.range m.length).map (maskByte (be256 x2 ++ be256 y2))) := by
  rw [cipherText_eq_layout, cipherC2_layout _ _ (by simp) (by simp)]

theorem cipherC3_cipherText :
    cipherC3 tm (cipherText tm x1 y1 x2 y2 m) = (List.range 32).map (digestByte (be256 x2 ++ m ++ be256 y2)) := by
  rw [cipherText_eq_layout, cipherC3_layout _ _ (by simp) (by simp)]

theorem unmasked_cipherText : unmasked tm (cipherText tm x1 y1 x2 y2 m) x2 y2 = m := by
  rw [unmasked, cipherC2_cipherText, length_cipherText, Nat.add_sub_cancel_left, xorBytes_cancel _ _ (by simp)]

variable {tm x1 y1 x2 y2 m}

/-- DEC takes the message from the ciphertext of R132 when its key gives the shared point (R135). -/
theorem decrypt_cipherText {d : Nat} (hC1 : (Point.aff x1.toNat y1.toNat).Valid) (hm : 97 + m.length < 2 ^ 32)
    (hmul : mul d (.aff x1.toNat y1.toNat) = .aff x2.toNat y2.toNat) :
    decrypt d tm (cipherText tm x1 y1 x2 y2 m) = .ok (some m) := by
  obtain ⟨⟨hx1, hy1⟩, hcurve⟩ := hC1
  rw [decrypt_on_curve (cipherText_coords ..) (cipherText_getElem?_zero ..) hx1 hy1
    ((onCurve_iff_curveEq _ _).1 hcurve) (by rwa [length_cipherText]) hmul, unmasked_cipherText,
    cipherC3_cipherText, if_pos (integrityDigest_eq ..)]

end

/-! ### How DEC ends -/

section
variable {s : State} {key : WReg} {tm : CipherMode}

theorem exec_dec_fail {e : ErrCode} (h : decCheck key s = some e) : exec (.dec key tm) s = fail e s := by
  simp only [exec, execDec, h]

theorem decCheck_pass (hsrc : InDmem s.src.toNat s.slen.toNat) (hlen : 97 ≤ s.slen.toNat)
    (hroom : outputRegionOk s (s.slen.toNat - 97) = true) (hd : privValid (s.natW key) = true) :
    decCheck key s = none := by
  rw [decCheck_eq, if_pos ((inBounds_iff_inDmem _ _).2 hsrc), if_neg (Nat.not_lt.2 hlen), if_pos hroom, if_pos hd]

section
variable (hcheck : decCheck key s = none)
include hcheck

theorem exec_dec_unwritten (hread : s.readable s.src.toNat s.slen.toNat = false) :
    exec (.dec key tm) s = .fault .dmemUnwritten := by
  simp only [exec, execDec, hcheck, withRead, hread, Bool.false_eq_true, if_false]

variable (hread : s.readable s.src.toNat s.slen.toNat = true)
include hread

theorem exec_dec_error {e : ErrCode}
    (h : decrypt (s.natW key) tm (s.memRead s.src.toNat s.slen.toNat) = .error e) :
    exec (.dec key tm) s = fail e s := by
  simp only [exec, execDec, hcheck, withRead_eq _ _ _ _ hread, h]

theorem exec_dec_mismatch (h : decrypt (s.natW key) tm (s.memRead s.src.toNat s.slen.toNat) = .ok none) :
    exec (.dec key tm) s = fail .integrity (s.memWrite s.dst.toNat (zeros (s.slen.toNat - 97))) := by
  simp only [exec, execDec, hcheck, withRead_eq _ _ _ _ hread, h]

theorem exec_dec_message {m : List Byte}
    (h : decrypt (s.natW key) tm (s.memRead s.src.toNat s.slen.toNat) = .ok (some m)) :
    exec (.dec key tm) s = succeed ((s.memWrite s.dst.toNat m).setOutlen (s.slen.toNat - 97)) := by
  simp only [exec, execDec, hcheck, withRead_eq _ _ _ _ hread, h]

end

/-- C3 does not match: zeros at DST, and OUTLEN is kept. -/
theorem endsInError_dec_mismatch (hcheck : decCheck key s = none)
    (hread : s.readable s.src.toNat s.slen.toNat = true)
    (h : decrypt (s.natW key) tm (s.memRead s.src.toNat s.slen.toNat) = .ok none) :
    EndsInError (exec (.dec key tm) s) s 8 { mem := (s.dst.toNat, s.slen.toNat - 97) } fun t =>
      ∀ i < s.slen.toNat - 97, t.dmem.read? (s.dst.toNat + i) = some 0 := by
  have hlen : (zeros (s.slen.toNat - 97)).length = s.slen.toNat - 97 := List.length_replicate
  rw [exec_dec_mismatch hcheck hread h]
  refine endsInError_fail (e := .integrity) ⟨fun _ _ => rfl, fun _ _ => rfl, fun _ => rfl, fun _ => rfl,
    fun _ => ⟨rfl, rfl⟩, fun a ha => ?_, by simp⟩ fun i hi => ?_
  · exact Memory.read?_storeAll_outside _ _ _ _ (by rwa [hlen])
  · refine (Memory.read?_storeAll_inside _ _ _ i (by rwa [hlen])).trans ?_
    simp [zeros]

/-- C3 matches: the message at DST, and its length in OUTLEN. -/
theorem endsWell_dec_message (hcheck : decCheck key s = none)
    (hread : s.readable s.src.toNat s.slen.toNat = true) {m : List Byte} (hm : m.length = s.slen.toNat - 97)
    (h : decrypt (s.natW key) tm (s.memRead s.src.toNat s.slen.toNat) = .ok (some m)) :
    EndsWell (exec (.dec key tm) s) s { outlen := true, mem := (s.dst.toNat, s.slen.toNat - 97) } fun t =>
      t.outlen.toNat = s.slen.toNat - 97
        ∧ ∀ i < s.slen.toNat - 97, t.dmem.read? (s.dst.toNat + i) = m[i]? := by
  rw [exec_dec_message hcheck hread h]
  refine endsWell_succeed ⟨rfl, rfl⟩ (onlyWrites_memWrite s _ _ m _ hm)
    ⟨?_, fun i hi => Memory.read?_storeAll_getElem? _ _ (by rwa [hm])⟩
  exact (BitVec.toNat_ofNat ..).trans (Nat.mod_eq_of_lt ((Nat.sub_le _ _).trans_lt s.slen.isLt))

end

/-! ### DEC after ENC (R135) -/

/-- DEC of the ciphertext of R132 writes its message, when the private key gives the shared point. -/
theorem endsWell_dec_cipherText {s : State} {key : WReg} {tm : CipherMode} {x1 y1 x2 y2 : U256} {m : List Byte}
    (hcheck : decCheck key s = none) (hread : s.readable s.src.toNat s.slen.toNat = true)
    (hct : s.memRead s.src.toNat s.slen.toNat = cipherText tm x1 y1 x2 y2 m)
    (hC1 : (Point.aff x1.toNat y1.toNat).Valid)
    (hmul : mul (s.natW key) (.aff x1.toNat y1.toNat) = .aff x2.toNat y2.toNat) :
    EndsWell (exec (.dec key tm) s) s { outlen := true, mem := (s.dst.toNat, m.length) } fun t =>
      t.outlen.toNat = m.length ∧ ∀ i < m.length, t.dmem.read? (s.dst.toNat + i) = m[i]? := by
  have hslen : s.slen.toNat = 97 + m.length := by rw [← length_cipherText tm x1 y1 x2 y2 m, ← hct, length_memRead]
  have hm : m.length = s.slen.toNat - 97 := by omega
  have hdec := decrypt_cipherText (tm := tm) hC1 (hslen ▸ s.slen.isLt) hmul
  rw [← hct] at hdec
  rw [hm]
  exact endsWell_dec_message hcheck hread hm hdec

/-- The raw coordinates of Norm(d·G) are those of d·G. -/
theorem rawKey_of_norm_mul {s : State} {key : PReg} {d : Nat} (hd1 : 1 ≤ d) (hd2 : d < Config.n)
    (hkey : s.getP key = norm (mul d basePoint)) : s.rawKey key = mul d basePoint := by
  obtain ⟨x, y, hmul, hx, hy⟩ := mul_basePoint_words d hd1 hd2
  obtain ⟨hnx, hny, -⟩ := norm_aff hx hy
  rw [State.rawKey, hkey, hmul, hnx, hny]

/-- An ENC that completes without error has passed its checks, read its message, and written the ciphertext of R132
for some nonce, whatever the draw counter was. -/
theorem exec_enc_completed {s t : State} {key : PReg} {tm : CipherMode} (h : exec (.enc key tm) s = .next t)
    (ht : t.err = false) :
    encCheck key s = none ∧ ∃ (k : Nat) (ct : List Byte) (v x1 y1 x2 y2 : U256),
      mul v.toNat basePoint = .aff x1.toNat y1.toNat
        ∧ mul v.toNat (s.rawKey key) = .aff x2.toNat y2.toNat
        ∧ ct = cipherText tm x1 y1 x2 y2 (s.memRead s.src.toNat s.slen.toNat) ∧ t = encDone s k ct := by
  rcases hcheck : encCheck key s with _ | e
  · refine ⟨rfl, ?_⟩
    have hm : (s.memRead s.src.toNat s.slen.toNat).length < 2 ^ 32 := (length_memRead ..).trans_lt s.slen.isLt
    obtain ⟨-, -, -, -, hkey⟩ := encCheck_none hcheck
    rw [keyValid_iff] at hkey
    rw [exec_enc_read hcheck] at h
    rcases withRead_cases s s.src.toNat s.slen.toNat _ with ⟨-, hgo⟩ | ⟨-, hfault⟩
    · obtain rfl := Host.Outcome.next.inj (hgo.symm.trans h)
      obtain ⟨-, ⟨j, ct, hout, hlo, hhi, hct⟩ | ⟨_, _, hout, -⟩ | hout⟩ := takeDraws_cases s 1 (Config.n - 1)
        (encAttempt (s.rawKey key) tm (s.memRead s.src.toNat s.slen.toNat))
      · rw [← drawStep_inside (attempt := encAttempt _ tm _) ⟨hlo, hhi⟩] at hct
        by_cases hgood : encNonce (s.getP key) (s.memRead s.src.toNat s.slen.toNat).length (s.rngAt j)
        · obtain ⟨x1, y1, x2, y2, hc1, hshared, hdraw⟩ := drawStep_enc_good tm hm hgood
          obtain rfl : cipherText tm x1 y1 x2 y2 _ = ct := by simpa using hdraw.symm.trans hct
          exact ⟨_, _, s.rngAt j, x1, y1, x2, y2, hc1, hshared, rfl, by rw [concludeDraw, hout, encDone]⟩
        · cases (drawStep_enc_bad hkey tm hm hgood).symm.trans hct
      all_goals
        rw [concludeDraw, hout] at ht
        cases ht
    · cases hfault.symm.trans h
  · rw [exec_enc_fail hcheck] at h
    cases h
    cases ht

end Machine
end Sys2Proof

section
open Sys2Proof Sys2Proof.Machine

/-- Settles O52: the first accepted request is the first good nonce, and its attempt gives the ciphertext of R132. -/
theorem encrypt : Obligations.Encrypt := by
  intro s key tm h0 mlen olen ok m k
  have hok : _ ↔ ok := encRegions_iff s
  have hkey := keyValid_iff k
  have hpass (h : ok) (hk : GoodKey k) : encCheck key s = none := by
    rw [encCheck_eq, if_pos (hok.2 h), if_pos (hkey.2 hk)]
  refine ⟨fun h => endsInError_of_fail (e := .bounds) (exec_enc_fail ?_),
    fun h hk => endsInError_of_fail (e := .key) (exec_enc_fail ?_), fun h hk => exec_enc_unwritten (hpass h hk),
    fun h hk hread => endsInError_enc_retry h0 (hpass h hk) hk hread, fun j h hk hread hfirst => ?_⟩
  · rw [encCheck_eq, if_neg (mt hok.1 h)]
  · rw [encCheck_eq, if_pos (hok.2 h), if_neg (mt hkey.1 hk)]
  · obtain ⟨x1, y1, x2, y2, hC1, hshared, hexec⟩ := exec_enc_first (tm := tm) h0 (hpass h hk) hk hread hfirst
    have hlen : (cipherText tm x1 y1 x2 y2 m).length = olen := by rw [length_cipherText, length_memRead]
    obtain ⟨-, -, hdst, -⟩ := h
    obtain ⟨t, hnext, hsucc, hframe, houtlen, hrng, hbytes⟩ := endsWell_encDone (k := j + 1) hlen hdst
    exact ⟨t, hexec.trans hnext, hsucc, hframe, houtlen, hrng, x1, y1, x2, y2, hC1, hshared, hbytes⟩

/-- Settles O53: R134's checks in order, then `decrypt` on the ciphertext's own coordinates. -/
theorem decrypt : Obligations.Decrypt := by
  intro s key tm x1 y1 clen mlen d ct room go c2 c3 coords
  have hsrc := inBounds_iff_inDmem s.src.toNat clen
  have hroom : outputRegionOk s mlen = true ↔ room := outputRegionOk_iff s mlen
  have hd : privValid (s.natW key) = true ↔ 1 ≤ d ∧ d ≤ Config.n - 2 := privValid_iff _
  have hpass (h : go) : decCheck key s = none := by
    obtain ⟨hin, h97, hr, hd1, hd2⟩ := h
    exact decCheck_pass hin h97 (hroom.2 hr) (hd.2 ⟨hd1, hd2⟩)
  refine ⟨fun hout => endsInError_of_fail (e := .bounds) (exec_dec_fail ?_),
    fun hin hshort => endsInError_of_fail (e := .decode) (exec_dec_fail ?_),
    fun hin h97 hr => endsInError_of_fail (e := .bounds) (exec_dec_fail ?_),
    fun hin h97 hr hk => endsInError_of_fail (e := .key) (exec_dec_fail ?_),
    fun h => exec_dec_unwritten (hpass h), fun h hread hcoords => ⟨fun hbad => ?_, fun h0 hx hy => ⟨fun hoff => ?_,
      fun hcurve => ?_⟩⟩⟩
  · rw [decCheck_eq, if_neg (mt hsrc.1 hout)]
  · rw [decCheck_eq, if_pos (hsrc.2 hin), if_pos hshort]
  · rw [decCheck_eq, if_pos (hsrc.2 hin), if_neg (Nat.not_lt.2 h97), if_neg (mt hroom.1 hr)]
  · rw [decCheck_eq, if_pos (hsrc.2 hin), if_neg (Nat.not_lt.2 h97), if_pos (hroom.2 hr), if_neg (mt hd.1 hk)]
  · exact endsInError_of_fail (e := .decode)
      (exec_dec_error (hpass h) hread (decrypt_undecodable hcoords hbad))
  · exact endsInError_of_fail (e := .invCt)
      (exec_dec_error (hpass h) hread (decrypt_off_curve hcoords h0 hx hy hoff))
  · have hcheck := hpass h
    obtain ⟨-, h97, -, hd1, hd2⟩ := h
    have hlen : ct.length = clen := length_memRead ..
    have hC1 : (Point.aff x1.toNat y1.toNat).Valid := ⟨⟨hx, hy⟩, (onCurve_iff_curveEq _ _).2 hcurve⟩
    obtain ⟨x2, y2, hmul, -⟩ := exists_words (valid_mul hC1 d)
      (mul_ne_inf hC1 (by simp) d hd1 (hd2.trans_lt (by decide)))
    have hdec := decrypt_on_curve (tm := tm) hcoords h0 hx hy hcurve (hlen ▸ s.slen.isLt) hmul
    have hc2 := cipherC2_eq tm ct
    have hc3 := cipherC3_eq tm ct
    rw [hlen] at hc2 hc3
    change _ = c2 at hc2
    change _ = c3 at hc3
    rw [unmasked_eq_map tm x2 y2 (hlen ▸ h97), hc2, hc3, hlen] at hdec
    refine ⟨x2, y2, hmul, fun hmatch => ?_, fun hdiff => ?_⟩
    · rw [if_pos ((integrityDigest_eq ..).trans hmatch)] at hdec
      exact endsWell_dec_message hcheck hread (by simp [mlen, clen]) hdec
    · rw [if_neg (mt (integrityDigest_eq ..).symm.trans hdiff)] at hdec
      exact endsInError_dec_mismatch hcheck hread hdec

/-- Settles O54: both commands compute the shared point d·k·G, so DEC of the ciphertext of R132 gives the message. -/
theorem encryptThenDecrypt : Obligations.EncryptThenDecrypt := by
  intro s t key dk tm dst dlen _ hexec ht hd1 hd2 hkey hroom hdst hdisj u
  obtain ⟨hcheck, k, ct, v, x1, y1, x2, y2, hC1, hshared, hct, rfl⟩ := exec_enc_completed hexec ht
  obtain ⟨-, -, hin, -⟩ := encCheck_none hcheck
  have hdn : (s.getW dk).toNat < Config.n := hd2.trans_lt (by decide)
  have hmul : mul (s.getW dk).toNat (.aff x1.toNat y1.toNat) = .aff x2.toNat y2.toNat := by
    rw [← hC1, mul_mul_comm valid_basePoint _ _ (s.getW dk).isLt v.isLt, ← hshared,
      rawKey_of_norm_mul hd1 hdn hkey]
  have houtlen : u.slen.toNat = 97 + s.slen.toNat := toNat_outlen_encDone s k ct hin
  have hlen : u.slen.toNat = ct.length := by rw [houtlen, hct, length_cipherText, length_memRead]
  have hreadable : u.readable u.src.toNat u.slen.toNat = true := hlen ▸ readable_encDone s k ct
  have hread : u.memRead u.src.toNat u.slen.toNat = ct := hlen ▸ memRead_encDone s k ct
  have hpass : decCheck dk u = none := by
    refine decCheck_pass (houtlen ▸ hin) (houtlen ▸ Nat.le_add_right _ _) ((outputRegionOk_iff u _).2 ?_)
      ((privValid_iff _).2 ⟨hd1, hd2⟩)
    rw [houtlen, Nat.add_sub_cancel_left]
    exact ⟨hroom, hdst, hdisj⟩
  obtain ⟨w, hnext, hsucc, hframe, hwlen, hbytes⟩ := endsWell_dec_cipherText hpass hreadable (hread.trans hct)
    (hC1 ▸ valid_mul valid_basePoint _) hmul
  rw [length_memRead] at hframe hwlen hbytes
  exact ⟨w, hnext, hsucc, hframe, BitVec.eq_of_toNat_eq hwlen,
    fun i hi => (hbytes i hi).trans (memRead_getElem? s _ hi)⟩

/-- Settles O55: C1 = k·G has order n, and d and e differ mod n. -/
theorem wrongKeyDiffers : Obligations.WrongKeyDiffers := by
  intro k d e hk hk' hd hd' he he' hne
  have hC1 := valid_mul valid_basePoint k
  have hfinite := mul_basePoint_ne_inf k hk (hk'.trans_lt (by decide))
  have hdn : d < Config.n := hd'.trans_lt (by decide)
  have hen : e < Config.n := he'.trans_lt (by decide)
  refine ⟨fun heq => hne ?_, mul_ne_inf hC1 hfinite d hd hdn⟩
  have hmod := (mul_eq_mul_iff hC1 hfinite d e (hdn.trans n_lt) (hen.trans n_lt)).1 heq
  rwa [Nat.mod_eq_of_lt hdn, Nat.mod_eq_of_lt hen] at hmod

end
end

section
/-! SUPPORT. The signature family (47_sm2sig.md): the digest where the regions are readable, the checks of SIGN and
VERIFY and how the commands end once they pass, why a signature of SIGN passes VERIFY's test, and PRECOMP's table (O56
to O60). -/

namespace Sys2Proof
namespace Machine

/-! ### The digest and its region checks (R140, R141) -/

section
variable {e : WReg} {h i : Bool} {x y : U256} {s : State} {go : Nat → Host.Outcome State Fault Refusal}

theorem withDigest_readable (hread : SigReadable h i s) :
    withDigest e h i (.aff x.toNat y.toNat) s go = go (digestOf e h i x y s) := by
  rcases withDigest_cases e h i x y s go with ⟨-, hgo⟩ | ⟨hnot, -⟩
  · exact hgo
  · exact absurd hread hnot

theorem withDigest_unreadable (hread : ¬ SigReadable h i s) :
    withDigest e h i (.aff x.toNat y.toNat) s go = .fault .dmemUnwritten := by
  rcases withDigest_cases e h i x y s go with ⟨hyes, -⟩ | ⟨-, hfault⟩
  · exact absurd hyes hread
  · exact hfault

theorem regionsFail_iff : (!h && !digestRegionsOk i s) = true ↔ ¬ SigRegions h i s := by
  rw [← digestRegionsOk_iff, Bool.not_eq_false]

end

/-! ### The pair of SIGN (R142) -/

/-- (r, sg) is the pair of R142 for the key d, the digest ev and the nonce v. -/
structure IsSignature (d ev : Nat) (v : U256) (r sg : Nat) : Prop where
  nonce_pos : 1 ≤ v.toNat
  nonce_lt : v.toNat < Config.n
  r_eq : ∃ x1 y1, mul v.toNat basePoint = .aff x1 y1 ∧ r = (ev + x1) % Config.n
  s_eq : ((sg : Int) * (1 + d) - (v.toNat - r * d)) % Config.n = 0
  r_pos : 1 ≤ r
  r_add_nonce_ne : r + v.toNat ≠ Config.n
  s_pos : 1 ≤ sg
  s_lt : sg < Config.n

section
variable {d ev r sg : Nat} {v : U256}

theorem IsSignature.r_lt (h : IsSignature d ev v r sg) : r < Config.n := by
  obtain ⟨x1, _, -, rfl⟩ := h.r_eq
  exact Nat.mod_lt _ n_pos

/-- A good nonce is accepted with its pair. -/
theorem exists_isSignature (hd1 : 1 ≤ d) (hd2 : d ≤ Config.n - 2) (hv : signNonce d ev v) :
    ∃ r sg, IsSignature d ev v r sg ∧ drawStep 1 (Config.n - 1) (signAttempt d ev) v = .ok (some (r, sg)) := by
  obtain ⟨x1, y1, sg, hmul, hdraw, hsg, hr, hspos, hslt⟩ := drawStep_sign_good hd1 hd2 hv
  obtain ⟨hlo, hhi, x1', y1', hmul', -, hne, -⟩ := hv
  obtain ⟨rfl, rfl⟩ : x1 = x1' ∧ y1 = y1' := by simpa using hmul.symm.trans hmul'
  have hspec := sign_s_spec hd1 hd2 ((ev + x1) % Config.n) v.toNat
  rw [← hsg] at hspec
  exact ⟨_, sg, ⟨hlo, hhi.trans_lt (by decide), ⟨x1, y1, hmul, rfl⟩, hspec, hr, hne, hspos, hslt⟩, hdraw⟩

/-- Only a good nonce is accepted, so what is accepted is its pair. -/
theorem isSignature_of_drawStep (hd1 : 1 ≤ d) (hd2 : d ≤ Config.n - 2)
    (h : drawStep 1 (Config.n - 1) (signAttempt d ev) v = .ok (some (r, sg))) : IsSignature d ev v r sg := by
  by_cases hv : signNonce d ev v
  · obtain ⟨r', sg', hsig, hdraw⟩ := exists_isSignature hd1 hd2 hv
    obtain ⟨rfl, rfl⟩ : r = r' ∧ sg = sg' := by simpa using h.symm.trans hdraw
    exact hsig
  · cases h.symm.trans (drawStep_sign_bad hd1 hd2 hv)

end

/-! ### How SIGN ends -/

/-- The end of a SIGN that has drawn its nonce with its `k`-th request and made the pair (r, sg). -/
def signDone (s : State) (rs : WReg) (k r sg : Nat) : State :=
  complete (((s.consume k).putW rs r).putW (pairNext rs) sg)

section
variable (s : State) (rs : WReg) (k r sg : Nat)

theorem getW_signDone_fst : (signDone s rs k r sg).getW rs = BitVec.ofNat 256 r :=
  (getW_putW_ne ((s.consume k).putW rs r) sg (pairNext_ne rs).symm).trans (getW_putW_same _ rs r)

theorem getW_signDone_snd : (signDone s rs k r sg).getW (pairNext rs) = BitVec.ofNat 256 sg :=
  getW_putW_same _ (pairNext rs) sg

@[simp] theorem getP_signDone (j : PReg) : (signDone s rs k r sg).getP j = s.getP j := rfl

theorem onlyWrites_signDone : OnlyWrites { w := [rs, pairNext rs], rng := true } s (signDone s rs k r sg) := by
  refine ⟨fun j hj => ?_, fun _ _ => rfl, by simp [signDone]⟩
  obtain ⟨hfst, hsnd⟩ : j ≠ rs ∧ j ≠ pairNext rs := by simpa using hj
  exact (getW_putW_ne ((s.consume k).putW rs r) sg hsnd).trans (getW_putW_ne (s.consume k) r hfst)

/-- SIGN leaves everything that its regions, their readability and a hashed digest depend on. -/
theorem sigRegions_signDone (h i : Bool) : SigRegions h i (signDone s rs k r sg) ↔ SigRegions h i s := .rfl

theorem sigReadable_signDone (h i : Bool) : SigReadable h i (signDone s rs k r sg) ↔ SigReadable h i s := .rfl

theorem digestOf_signDone {e f : WReg} {h : Bool} (hf : h = true → (signDone s rs k r sg).getW f = s.getW e)
    (i : Bool) (x y : U256) : digestOf f h i x y (signDone s rs k r sg) = digestOf e h i x y s := by
  cases h with
  | true => exact congrArg BitVec.toNat (hf rfl)
  | false => rfl

end

theorem IsSignature.toNat_getW {d ev r sg : Nat} {v : U256} (h : IsSignature d ev v r sg) (s : State) (rs : WReg)
    (k : Nat) : ((signDone s rs k r sg).getW rs).toNat = r
      ∧ ((signDone s rs k r sg).getW (pairNext rs)).toNat = sg := by
  rw [getW_signDone_fst, getW_signDone_snd, BitVec.toNat_ofNat, BitVec.toNat_ofNat,
    Nat.mod_eq_of_lt (h.r_lt.trans n_lt), Nat.mod_eq_of_lt (h.s_lt.trans n_lt)]
  exact ⟨rfl, rfl⟩

section
variable {s : State} {rs key e : WReg} {h i : Bool}

theorem exec_sign_bounds (hreg : ¬ SigRegions h i s) : exec (.sign rs key e h i) s = fail .bounds s :=
  if_pos (regionsFail_iff.2 hreg)

section
variable (hreg : SigRegions h i s)
include hreg

theorem exec_sign_key (hd : ¬ (1 ≤ s.natW key ∧ s.natW key ≤ Config.n - 2)) :
    exec (.sign rs key e h i) s = fail .key s := by
  have hpriv : (!privValid (s.natW key)) = true := by simpa [← privValid_iff] using hd
  rw [exec, execSign, if_neg (mt regionsFail_iff.1 (not_not_intro hreg)), if_pos hpriv]

variable (hd1 : 1 ≤ s.natW key) (hd2 : s.natW key ≤ Config.n - 2)
include hd1 hd2

/-- With its checks passed, SIGN makes the digest under its own public key and draws. -/
theorem exec_sign_digest :
    exec (.sign rs key e h i) s = withDigest e h i (mul (s.natW key) basePoint) s fun ev =>
      .next (concludeDraw s (s.takeDraws 1 (Config.n - 1) (signAttempt (s.natW key) ev)) fun sig t =>
        (t.putW rs sig.1).putW (pairNext rs) sig.2) := by
  have hpriv : ¬ (!privValid (s.natW key)) = true := by simpa using (privValid_iff _).2 ⟨hd1, hd2⟩
  rw [exec, execSign, if_neg (mt regionsFail_iff.1 (not_not_intro hreg)), if_neg hpriv]

variable {px py : U256} (hpub : mul (s.natW key) basePoint = .aff px.toNat py.toNat)
include hpub

theorem exec_sign_unwritten (hread : ¬ SigReadable h i s) :
    exec (.sign rs key e h i) s = .fault .dmemUnwritten := by
  rw [exec_sign_digest hreg hd1 hd2, hpub, withDigest_unreadable hread]

variable (hread : SigReadable h i s)
include hread

theorem exec_sign_draw :
    exec (.sign rs key e h i) s =
      .next (concludeDraw s (s.takeDraws 1 (Config.n - 1) (signAttempt (s.natW key) (digestOf e h i px py s)))
        fun sig t => (t.putW rs sig.1).putW (pairNext rs) sig.2) := by
  rw [exec_sign_digest hreg hd1 hd2, hpub, withDigest_readable hread]

theorem endsInError_sign_retry (h0 : s.draws = 0)
    (hnone : NoneGood (signNonce (s.natW key) (digestOf e h i px py s)) s) :
    EndsInError (exec (.sign rs key e h i) s) s 12 { rng := true } fun t => t.rng = s.rng.drop 64 := by
  rw [exec_sign_draw hreg hd1 hd2 hpub hread]
  exact endsInError_retry _ h0 fun k hk => drawStep_sign_bad hd1 hd2 (hnone k hk)

/-- SIGN takes the first good nonce and writes its pair. -/
theorem exec_sign_first (h0 : s.draws = 0) {j : Nat}
    (hfirst : FirstGood (signNonce (s.natW key) (digestOf e h i px py s)) s j) :
    ∃ r sg, IsSignature (s.natW key) (digestOf e h i px py s) (s.rngAt j) r sg
      ∧ exec (.sign rs key e h i) s = .next (signDone s rs (j + 1) r sg) := by
  obtain ⟨hj, hgood, hbad⟩ := hfirst
  obtain ⟨r, sg, hsig, hdraw⟩ := exists_isSignature hd1 hd2 hgood
  refine ⟨r, sg, hsig, ?_⟩
  rw [exec_sign_draw hreg hd1 hd2 hpub hread,
    concludeDraw_first _ h0 hj hdraw fun k hk => drawStep_sign_bad hd1 hd2 (hbad k hk), signDone]

end

/-- A SIGN that completes without error has passed its checks, read its input and written the pair of some nonce,
whatever the draw counter was. -/
theorem exec_sign_completed {t : State} (hexec : exec (.sign rs key e h i) s = .next t) (ht : t.err = false) :
    SigRegions h i s ∧ SigReadable h i s ∧ 1 ≤ s.natW key ∧ s.natW key ≤ Config.n - 2
      ∧ ∃ (px py v : U256) (k r sg : Nat), mul (s.natW key) basePoint = .aff px.toNat py.toNat
        ∧ IsSignature (s.natW key) (digestOf e h i px py s) v r sg ∧ t = signDone s rs k r sg := by
  by_cases hreg : SigRegions h i s
  swap
  · obtain rfl := Host.Outcome.next.inj ((exec_sign_bounds hreg).symm.trans hexec)
    cases ht
  by_cases hd : 1 ≤ s.natW key ∧ s.natW key ≤ Config.n - 2
  swap
  · obtain rfl := Host.Outcome.next.inj ((exec_sign_key hreg hd).symm.trans hexec)
    cases ht
  obtain ⟨hd1, hd2⟩ := hd
  obtain ⟨px, py, hpub, -⟩ := mul_basePoint_words (s.natW key) hd1 (hd2.trans_lt (by decide))
  by_cases hread : SigReadable h i s
  swap
  · cases (exec_sign_unwritten hreg hd1 hd2 hpub hread).symm.trans hexec
  refine ⟨hreg, hread, hd1, hd2, px, py, ?_⟩
  obtain rfl := Host.Outcome.next.inj ((exec_sign_draw hreg hd1 hd2 hpub hread).symm.trans hexec)
  obtain ⟨-, ⟨j, ⟨r, sg⟩, hout, hlo, hhi, hsig⟩ | ⟨_, _, _, _, _, herr⟩ | hout⟩ := takeDraws_cases s 1 (Config.n - 1)
    (signAttempt (s.natW key) (digestOf e h i px py s))
  · rw [← drawStep_inside (attempt := signAttempt _ _) ⟨hlo, hhi⟩] at hsig
    exact ⟨s.rngAt j, _, r, sg, hpub, isSignature_of_drawStep hd1 hd2 hsig, by rw [concludeDraw, hout, signDone]⟩
  · exact absurd herr (signAttempt_ne_error _ _ _ _)
  · rw [concludeDraw, hout] at ht
    cases ht

end

/-! ### How VERIFY ends (R143) -/

section
variable {s : State} {rs e : WReg} {key : PReg} {h i u : Bool}

theorem verifyKey_table : s.verifyKey key true = .aff s.tabKey.x.toNat s.tabKey.y.toNat := rfl

theorem verifyKey_register : s.verifyKey key false = s.rawKey key := rfl

theorem tableFail_iff : (u && !s.tabv) = true ↔ u = true ∧ s.tabv = false := by simp

theorem keyFail_iff : (!u && !keyValid (s.getP key)) = true ↔ ¬ (u = true ∨ GoodKey (s.getP key)) := by
  simp [← keyValid_iff]

theorem verifyCheck_noTab (htab : u = true ∧ s.tabv = false) : verifyCheck key h i u s = some .noTab :=
  if_pos (tableFail_iff.2 htab)

theorem verifyCheck_bounds (htab : ¬ (u = true ∧ s.tabv = false)) (hreg : ¬ SigRegions h i s) :
    verifyCheck key h i u s = some .bounds := by
  rw [verifyCheck, if_neg (mt tableFail_iff.1 htab), if_pos (regionsFail_iff.2 hreg)]

theorem verifyCheck_key (htab : ¬ (u = true ∧ s.tabv = false)) (hreg : SigRegions h i s)
    (hkey : ¬ (u = true ∨ GoodKey (s.getP key))) : verifyCheck key h i u s = some .key := by
  rw [verifyCheck, if_neg (mt tableFail_iff.1 htab), if_neg (mt regionsFail_iff.1 (not_not_intro hreg)),
    if_pos (keyFail_iff.2 hkey)]

theorem verifyCheck_pass (htab : ¬ (u = true ∧ s.tabv = false)) (hreg : SigRegions h i s)
    (hkey : u = true ∨ GoodKey (s.getP key)) : verifyCheck key h i u s = none := by
  rw [verifyCheck, if_neg (mt tableFail_iff.1 htab), if_neg (mt regionsFail_iff.1 (not_not_intro hreg)),
    if_neg (mt keyFail_iff.1 (not_not_intro hkey))]

theorem sigInRange_iff (r sg : Nat) :
    sigInRange r sg = true ↔ 1 ≤ r ∧ r ≤ Config.n - 1 ∧ 1 ≤ sg ∧ sg ≤ Config.n - 1 := by
  simp only [sigInRange, Bool.and_eq_true, decide_eq_true_eq, and_assoc]

theorem exec_verify_fail {c : ErrCode} (hcheck : verifyCheck key h i u s = some c) :
    exec (.verify rs e key h i u) s = fail c s := by
  simp only [exec, execVerify, hcheck]

section
variable (hcheck : verifyCheck key h i u s = none)
include hcheck

theorem endsWell_verify_outOfRange (hrange : ¬ sigInRange (s.natW rs) (s.natW (pairNext rs)) = true) :
    EndsWell (exec (.verify rs e key h i u) s) s { res := true } fun t => t.res = 0 := by
  simp only [exec, execVerify, hcheck]
  rw [if_neg hrange]
  exact endsWell_succeed ⟨rfl, rfl⟩ (onlyWrites_setRes s 0) rfl

variable (hrange : sigInRange (s.natW rs) (s.natW (pairNext rs)) = true)
include hrange

theorem exec_verify_digest :
    exec (.verify rs e key h i u) s = withDigest e h i (s.verifyKey key u) s fun ev =>
      succeed (s.setRes (boolWord (sigMatches (s.verifyKey key u) ev (s.natW rs) (s.natW (pairNext rs))))) := by
  simp only [exec, execVerify, hcheck]
  exact if_pos hrange

variable {x y : U256} (hkey : s.verifyKey key u = .aff x.toNat y.toNat)
include hkey

theorem exec_verify_unwritten (hread : ¬ SigReadable h i s) :
    exec (.verify rs e key h i u) s = .fault .dmemUnwritten := by
  rw [exec_verify_digest hcheck hrange, hkey, withDigest_unreadable hread]

theorem endsWell_verify_test (hread : SigReadable h i s) {P : Prop}
    (hP : sigMatches (.aff x.toNat y.toNat) (digestOf e h i x y s) (s.natW rs) (s.natW (pairNext rs)) = true ↔ P) :
    EndsWell (exec (.verify rs e key h i u) s) s { res := true } fun t =>
      (t.res = 0 ∨ t.res = 1) ∧ (t.res = 1 ↔ P) := by
  rw [exec_verify_digest hcheck hrange, hkey, withDigest_readable hread]
  exact endsWell_boolWord hP

end

end

/-! ### VERIFY after SIGN (R145) -/

/-- a·G + b·(d·G) = c·G when a + b·d and c agree mod n. -/
theorem add_mul_mul_basePoint {a b c d : Nat} (ha : a < 2 ^ 256) (hb : b < 2 ^ 256) (hc : c < 2 ^ 256)
    (hd : d < 2 ^ 256) (h : (a + b * d) % Config.n = c % Config.n) :
    add (mul a basePoint) (mul b (mul d basePoint)) = mul c basePoint := by
  have := fact_prime_p
  obtain ⟨hva, hea⟩ := toE_mul valid_basePoint a ha
  obtain ⟨hvd, hed⟩ := toE_mul valid_basePoint d hd
  obtain ⟨hvb, heb⟩ := toE_mul hvd b hb
  obtain ⟨hvc, hec⟩ := toE_mul valid_basePoint c hc
  obtain ⟨hsum, hadd⟩ := toE_add hva hvb
  refine toE_inj hsum hvc ?_
  rw [hadd, hea, heb, hed, hec, ← mul_smul, ← add_smul]
  exact (smul_basePoint_eq_iff _ _).2 h

section
variable {d ev r sg : Nat} {v : U256}

/-- In the ring mod n, s + (r + s)·d is the nonce. -/
theorem IsSignature.nonce_cast_eq (h : IsSignature d ev v r sg) :
    (v.toNat : ZMod Config.n) = sg + (r + sg) * d := by
  have hs := (emod_n_iff _).1 h.s_eq
  push_cast at hs
  linear_combination -hs

/-- t = 0 would give s = k, so r + k = n, which SIGN's loop rejects. -/
theorem IsSignature.t_ne_zero (h : IsSignature d ev v r sg) : (r + sg) % Config.n ≠ 0 := by
  intro ht
  have hrs : (r + sg : ZMod Config.n) = 0 := by
    rw [← Nat.cast_add, ZMod.natCast_eq_zero_iff]
    exact Nat.dvd_of_mod_eq_zero ht
  have hrv : ((r + v.toNat : Nat) : ZMod Config.n) = 0 := by
    rw [Nat.cast_add, h.nonce_cast_eq, hrs]
    linear_combination hrs
  have hpos := h.r_pos
  have hrlt := h.r_lt
  have hvlt := h.nonce_lt
  exact h.r_add_nonce_ne
    (Nat.eq_of_dvd_of_lt_two_mul (by omega) ((ZMod.natCast_eq_zero_iff _ _).1 hrv) (by omega))

/-- The point of VERIFY is k·G, so its test is the equation that made r. -/
theorem IsSignature.sigMatches_eq_true (h : IsSignature d ev v r sg) (hd : d < 2 ^ 256) :
    sigMatches (mul d basePoint) ev r sg = true := by
  obtain ⟨x1, y1, hmul, hr⟩ := h.r_eq
  have ht : (r + sg) % Config.n < 2 ^ 256 := (Nat.mod_lt _ n_pos).trans n_lt
  have hnonce : (sg + (r + sg) % Config.n * d) % Config.n = v.toNat % Config.n := by
    rw [← ZMod.natCast_eq_natCast_iff', h.nonce_cast_eq]
    push_cast
    rw [ZMod.natCast_mod]
    push_cast
    rfl
  refine (sigMatches_iff _ _ _ _).2 ⟨h.t_ne_zero, x1, y1, ?_, hr.symm⟩
  rw [add_mul_mul_basePoint (h.s_lt.trans n_lt) ht v.isLt hd hnonce, hmul]

end

/-! ### PRECOMP and its table (R144, R146) -/

section
variable {s t : State} {a : PReg}

theorem exec_precomp_good (h : GoodKey (s.getP a)) :
    exec (.precomp a) s = succeed (s.setTab (s.getP a).x (s.getP a).y) := if_pos ((keyValid_iff _).2 h)

theorem exec_precomp_bad (h : ¬ GoodKey (s.getP a)) : exec (.precomp a) s = fail .key s :=
  if_neg (mt (keyValid_iff _).1 h)

/-- A PRECOMP that completes without error found a valid key. -/
theorem exec_precomp_completed (hexec : exec (.precomp a) s = .next t) (ht : t.err = false) :
    GoodKey (s.getP a) ∧ t = complete (s.setTab (s.getP a).x (s.getP a).y) := by
  by_cases hkey : GoodKey (s.getP a)
  · exact ⟨hkey, Host.Outcome.next.inj (hexec.symm.trans (exec_precomp_good hkey))⟩
  · obtain rfl := Host.Outcome.next.inj ((exec_precomp_bad hkey).symm.trans hexec)
    cases ht

/-- VERIFY sees the key register and the flag U through its checks and the key it uses only. -/
theorem exec_verify_congr {rs e : WReg} {key key' : PReg} {h i u u' : Bool}
    (hcheck : verifyCheck key h i u s = verifyCheck key' h i u' s)
    (hkey : s.verifyKey key u = s.verifyKey key' u') :
    exec (.verify rs e key h i u) s = exec (.verify rs e key' h i u') s := by
  simp only [exec, execVerify, hcheck, hkey]

end

end Machine
end Sys2Proof

section
open Sys2Proof Sys2Proof.Machine

/-- Settles O56: R142's checks in order; the first accepted request is the first good nonce, and its attempt gives the
pair of R142. -/
theorem sign : Obligations.Sign := by
  intro s rs key e h i _ h0 d run
  refine ⟨fun hreg => endsInError_of_fail (e := .bounds) (exec_sign_bounds hreg),
    fun hreg hd => endsInError_of_fail (e := .key) (exec_sign_key hreg hd), fun hreg hd1 hd2 hread => ?_,
    fun hreg hd1 hd2 hread px py hpub =>
      ⟨endsInError_sign_retry hreg hd1 hd2 hpub hread h0, fun j hfirst => ?_⟩⟩
  · obtain ⟨px, py, hpub, -⟩ := mul_basePoint_words d hd1 (hd2.trans_lt (by decide))
    exact exec_sign_unwritten hreg hd1 hd2 hpub hread
  · obtain ⟨r, sg, hsig, hexec⟩ := exec_sign_first (rs := rs) hreg hd1 hd2 hpub hread h0 hfirst
    obtain ⟨hr, hsg⟩ := hsig.toNat_getW s rs (j + 1)
    obtain ⟨x1, y1, hmul, hreq⟩ := hsig.r_eq
    refine ⟨_, hexec, ⟨rfl, rfl, rfl, rfl, rfl⟩, onlyWrites_signDone .., rfl, x1, y1, hmul, hr.trans hreq, ?_⟩
    rw [hr, hsg]
    exact ⟨hsig.s_eq, hsig.r_pos, hsig.s_pos, hsig.s_lt⟩

/-- Settles O57: R143's checks in order, then the range of r and s before the read, then the test of steps 3 to 5. -/
theorem verify : Obligations.Verify := by
  intro s rs e key h i u _ r sg run inRange keyOk kx ky
  have hrange : sigInRange r sg = true ↔ inRange := sigInRange_iff r sg
  have hkey : s.verifyKey key u = .aff kx.toNat ky.toNat := by cases u <;> rfl
  refine ⟨fun hu htab => endsInError_of_fail (e := .noTab) (exec_verify_fail (verifyCheck_noTab ⟨hu, htab⟩)),
    fun htab hreg => endsInError_of_fail (e := .bounds) (exec_verify_fail (verifyCheck_bounds htab hreg)),
    fun htab hreg hbad => endsInError_of_fail (e := .key) (exec_verify_fail (verifyCheck_key htab hreg hbad)),
    fun htab hreg hok => ?_⟩
  have hcheck := verifyCheck_pass htab hreg hok
  exact ⟨fun hout => endsWell_verify_outOfRange hcheck (mt hrange.1 hout),
    fun hin => exec_verify_unwritten hcheck (hrange.2 hin) hkey,
    fun hin hread => endsWell_verify_test hcheck (hrange.2 hin) hkey hread (sigMatches_iff _ _ _ _)⟩

/-- Settles O58: VERIFY finds the digest SIGN used and the pair it wrote, and the point of its test is k·G. -/
theorem signThenVerify : Obligations.SignThenVerify := by
  intro s t rs key e f pk h i _ _ hf _ hexec ht hpk
  obtain ⟨hreg, hread, hd1, hd2, px, py, v, k, r, sg, hpub, hsig, rfl⟩ := exec_sign_completed hexec ht
  have hd : s.natW key < Config.n := hd2.trans_lt (by decide)
  obtain ⟨hr, hsg⟩ := hsig.toNat_getW s rs k
  have hkey : (signDone s rs k r sg).verifyKey pk false = .aff px.toNat py.toNat :=
    (rawKey_of_norm_mul hd1 hd hpk).trans hpub
  have hcheck : verifyCheck pk h i false (signDone s rs k r sg) = none :=
    verifyCheck_pass (by simp) ((sigRegions_signDone ..).2 hreg)
      (.inr (by rw [getP_signDone, hpk]; exact goodKey_norm_mul hd1 hd))
  have hrange : sigInRange ((signDone s rs k r sg).natW rs) ((signDone s rs k r sg).natW (pairNext rs)) = true := by
    refine (sigInRange_iff _ _).2 ?_
    rw [State.natW, State.natW, hr, hsg]
    exact ⟨hsig.r_pos, Nat.le_pred_of_lt hsig.r_lt, hsig.s_pos, Nat.le_pred_of_lt hsig.s_lt⟩
  have hmatch : sigMatches (.aff px.toNat py.toNat) (digestOf f h i px py (signDone s rs k r sg))
      ((signDone s rs k r sg).natW rs) ((signDone s rs k r sg).natW (pairNext rs)) = true := by
    rw [digestOf_signDone s rs k r sg hf, State.natW, State.natW, hr, hsg, ← hpub]
    exact hsig.sigMatches_eq_true (hd.trans n_lt)
  obtain ⟨w, hnext, hsucc, hframe, -, hres⟩ :=
    endsWell_verify_test hcheck hrange hkey ((sigReadable_signDone ..).2 hread) Iff.rfl
  exact ⟨w, hnext, hsucc, hframe, hres.2 hmatch⟩

/-- Settles O59: the two branches of PRECOMP on the key of its operand. -/
theorem precomputeTable : Obligations.PrecomputeTable := by
  refine fun s a => ⟨fun hkey => ?_, fun hkey => endsInError_of_fail (e := .key) (exec_precomp_bad hkey)⟩
  rw [exec_precomp_good hkey]
  exact endsWell_succeed ⟨rfl, rfl⟩ (by simp [OnlyWrites]) ⟨rfl, rfl, rfl⟩

/-- Settles O60: the table holds the valid key of P[A], so both VERIFYs pass the same checks and use the same key. -/
theorem precomputeIsInvisible : Obligations.PrecomputeIsInvisible := by
  intro s t v a rs e h i _ hexec ht htabv htab hp
  obtain ⟨hkey, rfl⟩ := exec_precomp_completed hexec ht
  have hvalid : keyValid (v.getP a) = true := by rw [hp]; exact (keyValid_iff _).2 hkey
  refine exec_verify_congr ?_ ?_
  · simp [verifyCheck, htabv, hvalid]
  · rw [verifyKey_table, verifyKey_register, State.rawKey, htab, hp]
    rfl

end
end

section
/-! SUPPORT. The exceptions of 60_exceptions.md (O25, O27, O28), the soft reset (O10) and the idle engine's turn (O6). -/

namespace Sys2Proof
namespace Machine

/-! ### The idle engine (70_reset_and_hazards.md R166) -/

theorem step_idleTurn {s : State} (hturn : s.engineNext) (hidle : s.engine = .idle) : step s = .next s.advance := by
  rw [step_of_engineNext hturn, engineTurn, show s.advance.engine = .idle from hidle]

/-! ### DMEM after a soft reset (R165) -/

theorem dmem_softReset_idle {s : State} (h : s.engine = .idle) : (softReset s).dmem = s.dmem := by
  rw [softReset, h, clearRegisters_dmem]

theorem dmem_softReset_busy {s : State} {c : Word32} (h : s.engine = .busy c) :
    (softReset s).dmem = abandonDmem c s := by
  rw [softReset, h, clearRegisters_dmem]

/-- The region a command word gives up is the output region of its command. -/
theorem outputRegion_of_ok {c : Word32} {i : Instr} (h : decode c = .ok i) (s : State) :
    outputRegion c s = regionWritten i s := by
  cases i <;> simp only [outputRegion, h, regionWritten]

/-- An illegal word has no output region. -/
theorem outputRegion_of_error {c : Word32} {e : Illegal} (h : decode c = .error e) (s : State) :
    outputRegion c s = (0, 0) := by
  simp only [outputRegion, h]

theorem abandonDmem_of_error {c : Word32} {e : Illegal} (h : decode c = .error e) (s : State) :
    abandonDmem c s = s.dmem := by
  simp [abandonDmem, outputRegion_of_error h, Memory.storeAll]

/-- The free values of an abandoned command stay inside its output region. -/
theorem read?_abandonDmem_outside {c : Word32} {s : State} {a : Nat}
    (h : a < (outputRegion c s).1 ∨ (outputRegion c s).1 + (outputRegion c s).2 ≤ a) :
    (abandonDmem c s).read? a = s.dmem.read? a := by
  refine Memory.read?_storeAll_outside _ _ _ _ (h.imp_right fun hle => ?_)
  simp only [List.length_map, List.length_range]
  omega

/-! ### A command that ends in an error (60_exceptions.md R148, R152) -/

section
variable {i : Instr} {s t : State}

/-- A command that sets ERR ended in one of the errors of `Outcome`: one that ends well keeps ERR. -/
theorem exec_error_cases (hs : s.err = false) (h : exec i s = .next t) (ht : t.err = true) :
    Precise i s t ∨ BadDigest i s t := by
  rcases exec_next_cases h with ⟨⟨_, _, _, herr, _⟩, _⟩ | herror
  · exact absurd (ht.symm.trans (herr.trans hs)) (by decide)
  · exact herror

theorem Failed.errcode_eq {c : Byte} (h : Failed c t) : t.errcode = c := by
  obtain ⟨_, _, _, _, hcode⟩ := h
  exact hcode

/-- ERR_INTEGRITY is the one error that leaves more than STATUS (46_ecies.md R134). -/
theorem code_ne_integrity {e : ErrCode} (he : e ∈ errorsOf i) : e.code ≠ 8 := by
  have hne : ErrCode.integrity ∉ errorsOf i := by cases i <;> simp [errorsOf]
  cases e with
  | integrity => exact absurd he hne
  | _ => decide

end

/-! ### IRQ (R156) -/

section
variable {s t : State}

theorem irq_iff (s : State) : irq s = true ↔ s.irqen = true ∧ (s.done = true ∨ s.err = true) := by simp [irq]

theorem irq_of_irqen_false (h : s.irqen = false) : irq s = false := by simp [irq, h]

theorem irq_of_flags_false (hdone : s.done = false) (herr : s.err = false) : irq s = false := by
  simp [irq, hdone, herr]

theorem OnlyWrites.irqen_eq {x : Writes} (h : OnlyWrites x s t) : t.irqen = s.irqen := by
  obtain ⟨_, _, _, _, _, _, _, hirqen, _⟩ := h
  exact hirqen

/-- No command writes CTRL (10_state.md R33). -/
theorem exec_irqen {i : Instr} (h : exec i s = .next t) : t.irqen = s.irqen := by
  rcases exec_next_cases h with ⟨_, hw, _⟩ | ⟨_, hw, _⟩ | ⟨_, _, hw, _⟩ <;> exact hw.irqen_eq

/-- A command that answers a next state has set DONE (40_control.md R85, R152). -/
theorem exec_done {i : Instr} (h : exec i s = .next t) : t.done = true := by
  rcases exec_ends h with ⟨_, hdone, _⟩ | ⟨_, _, hdone, _⟩ <;> exact hdone

/-- A CTRL write gives IRQEN bit 2, and SRST clears it (R33). -/
theorem irqen_writeCtrl (v : Word32) (s : State) : (writeCtrl v s).irqen = (!v.getLsbD 1 && v.getLsbD 2) := by
  cases h1 : v.getLsbD 1
  · cases h0 : v.getLsbD 0
    · rw [writeCtrl_irqen h1 h0]
      rfl
    · cases he : s.engine with
      | idle =>
        rw [writeCtrl_start_idle h1 h0 he]
        rfl
      | busy c =>
        rw [writeCtrl_start_busy h1 h0 he]
        rfl
  · obtain ⟨_, hirqen, _⟩ := atReset_softReset s
    rw [writeCtrl, if_pos h1, hirqen]
    rfl

/-- A write to a gated location leaves IRQEN. -/
theorem irqen_writeLoc {l : Loc} (v : Word32) (hg : l.gated = true) : (writeLoc l v s).irqen = s.irqen := by
  cases l with
  | reg r =>
    cases r with
    | cmd | src | slen | dst | dlen | idaddr | idlen => rfl
    | id | ctrl | status | res | outlen => cases hg
  | wWord | pWord | dmem => rfl
  | reserved => cases hg

/-- A step keeps IRQEN, resets the block, or is a CTRL write that gives it bit 2. -/
theorem step_irqen (h : step s = .next t) :
    t.irqen = s.irqen ∨ ResetNext s ∨ ∃ v, s.writeNext 0x004 v ∧ t.irqen = v.getLsbD 2 := by
  rcases step_cases h with ⟨_, ⟨_, rfl⟩ | ⟨c, _, ⟨_, rfl⟩ | ⟨i, _, hi⟩⟩⟩ | ⟨hon, _⟩ | ⟨r, rfl⟩ | ⟨off, v, hwrite, _, hw⟩
  · exact .inl rfl
  · exact .inl rfl
  · exact .inl (exec_irqen (s := s.advance) hi)
  · exact .inr (.inl (.inl hon))
  · exact .inl rfl
  · rcases hw with ⟨_, _, rfl⟩ | ⟨rfl, rfl⟩ | ⟨_, rfl⟩ | ⟨_, hg, rfl⟩
    · exact .inl rfl
    · cases h1 : v.getLsbD 1
      · exact .inr (.inr ⟨v, hwrite, (irqen_writeCtrl v s.advance).trans (by rw [h1]; rfl)⟩)
      · exact .inr (.inl (.inr ⟨v, hwrite, h1⟩))
    · rw [writeStatus_eq]
      exact .inl rfl
    · exact .inl (irqen_writeLoc v hg)

/-- What lowers DONE and ERR together: a START, a reset, or a STATUS write of 1 to each that was 1 (10_state.md R41). -/
theorem FlagCase.flags_cleared (h : FlagCase s t) (h0 : s.done = true ∨ s.err = true) (hdone : t.done = false)
    (herr : t.err = false) :
    StartNext s ∨ ResetNext s
      ∨ ∃ v, s.writeNext 0x00C v ∧ (s.done = true → v.getLsbD 1 = true) ∧ (s.err = true → v.getLsbD 2 = true) := by
  cases h with
  | started hstart => exact .inl hstart
  | cleared hreset => exact .inr (.inl hreset)
  | acknowledged v hwrite _ hd he =>
    exact .inr (.inr ⟨v, hwrite, fun hs => by simpa [hs, hdone] using hd, fun hs => by simpa [hs, herr] using he⟩)
  | _ => simp_all

/-- IRQ falls only when IRQEN does or when DONE and ERR are cleared. -/
theorem step_irq_fall (h : step s = .next t) (h0 : irq s = true) (h1 : irq t = false) :
    StartNext s ∨ ResetNext s
      ∨ (∃ v, s.writeNext 0x00C v ∧ (s.done = true → v.getLsbD 1 = true) ∧ (s.err = true → v.getLsbD 2 = true))
      ∨ ∃ v, s.writeNext 0x004 v ∧ v.getLsbD 2 = false := by
  obtain ⟨hirqen, hflags⟩ := (irq_iff s).1 h0
  cases ht : t.irqen
  · rcases step_irqen h with hkept | hreset | ⟨v, hwrite, hv⟩
    · exact absurd (ht.symm.trans (hkept.trans hirqen)) (by decide)
    · exact .inr (.inl hreset)
    · exact .inr (.inr (.inr ⟨v, hwrite, hv.symm.trans ht⟩))
  · have hlow : t.done = false ∧ t.err = false := by simpa [irq, ht] using h1
    obtain ⟨hdone, herr⟩ := hlow
    rcases (step_flagCase h).flags_cleared hflags hdone herr with hstart | hreset | hack
    · exact .inl hstart
    · exact .inr (.inl hreset)
    · exact .inr (.inr (.inl hack))

end

end Machine
end Sys2Proof

section
open Sys2Proof Sys2Proof.Machine Sys2Proof.Laws

/-- Settles O25: a command ends with DONE = 1 and leaves IRQEN, and IRQ falls only by the causes of `step_irq_fall`. -/
theorem irqLevel : Obligations.IrqLevel := by
  refine ⟨irq_iff, fun i s t h => ?_, fun s v h hd he => ?_, fun s v h h2 => ?_, fun s v h h0 hidle => ?_,
    fun s t h hhigh hlow => ?_⟩
  · simp [irq, exec_irqen h, exec_done h]
  · refine ⟨_, step_write_status h, ?_⟩
    rw [writeStatus_eq]
    exact irq_of_flags_false (by simp [hd]) (by simp [he])
  · refine ⟨_, step_write_ctrl h, irq_of_irqen_false ((irqen_writeCtrl v s.advance).trans ?_)⟩
    rw [h2, Bool.and_false]
  · refine ⟨_, step_write_ctrl h, ?_⟩
    cases h1 : v.getLsbD 1
    · rw [writeCtrl_start_idle h1 h0 (s := s.advance) hidle]
      exact irq_of_flags_false rfl rfl
    · rw [writeCtrl, if_pos h1]
      exact irq_of_atReset (atReset_respond _ (atReset_softReset s.advance))
  · rcases step_irq_fall h hhigh hlow with ⟨hidle, v, hw, _, h0⟩ | (hon | ⟨v, hw, h1⟩) | hack | ⟨v, hw, h2⟩
    · exact .inr (.inr ⟨v, hw, .inr (.inr ⟨h0, hidle⟩)⟩)
    · exact .inl hon
    · exact .inr (.inr ⟨v, hw, .inr (.inl h1)⟩)
    · exact .inr (.inl hack)
    · exact .inr (.inr ⟨v, hw, .inl h2⟩)

/-- Settles O27: `Outcome` gives an error that leaves everything but STATUS and the RNG port's words, or DEC's zeros
with code 8. -/
theorem errorsArePrecise : Obligations.ErrorsArePrecise := by
  intro i s t hs h ht
  rcases exec_error_cases hs h ht with ⟨⟨e, he, hfailed⟩, hw, _⟩ | ⟨_, hfailed, hw, hzero, _⟩
  · have hne : t.errcode ≠ 8 := hfailed.errcode_eq ▸ code_ne_integrity he
    exact ⟨hfailed.errcode_eq ▸ hfailed, fun _ => hw, fun h8 => absurd h8 hne⟩
  · exact ⟨hfailed.errcode_eq ▸ hfailed, fun hne => absurd hfailed.errcode_eq hne, fun _ => ⟨hw, hzero⟩⟩

/-- Settles O28: the codes of `errorsOf`, and 8 for the integrity failure of DEC. -/
theorem errorCodes : Obligations.ErrorCodes := by
  intro i s t hs h ht
  rcases exec_error_cases hs h ht with ⟨⟨e, he, hfailed⟩, _⟩ | ⟨⟨key, tm, rfl⟩, hfailed, _⟩
  · have hcode : t.errcode = e.code := hfailed.errcode_eq
    cases i with
    | minv | msqrt | pmul | pcomp | pdcmp | keygen | hash | kdf | precomp =>
      obtain rfl := List.mem_singleton.1 he
      exact hcode
    | enc | dec | sign | verify =>
      simp only [errorsOf, List.mem_cons, List.not_mem_nil, or_false] at he
      obtain rfl | rfl | rfl | rfl := he <;> simp [hcode, ErrCode.code]
    | _ => exact absurd he List.not_mem_nil
  · exact .inr (.inr (.inr (.inr hfailed.errcode_eq)))

/-- Settles O10: the reset keeps DMEM but for the free values in the output region of the word the engine runs. -/
theorem softReset : Obligations.SoftReset := by
  intro s v h hv
  refine ⟨_, step_write_srst h hv, atReset_respond _ (atReset_softReset s.advance),
    dmem_softReset_idle (s := s.advance), fun c hbusy hillegal => ?_, fun c i hbusy hdecode a ha => ?_⟩
  · have hdmem := dmem_softReset_busy (s := s.advance) hbusy
    cases hdecode : decode c with
    | ok i => exact absurd ((legalWord_iff c).2 ⟨i, hdecode⟩) hillegal
    | error e => exact hdmem.trans (abandonDmem_of_error hdecode s.advance)
  · have hdmem := dmem_softReset_busy (s := s.advance) hbusy
    have hregion : outputRegion c s.advance = regionWritten i s := outputRegion_of_ok hdecode s.advance
    exact (congrArg (·.read? a) hdmem).trans (read?_abandonDmem_outside (hregion ▸ ha))

/-- Settles O6: the idle engine's turn answers the state it was given. -/
theorem idleEngineWaits : Obligations.IdleEngineWaits := fun _ => step_idleTurn

end
end
